-- ==== Sys2Proof/Word.lean ====
section
/-! DEFINITION. The widths the spec names: register words, fp16 patterns and bytes (00_scope R7, R8, R10). -/

namespace Sys2Proof

/-- A byte of the bus address space (R70). -/
abbrev Byte := BitVec 8

/-- A 16-bit quantity: an fp16 scale pattern (R10, R75). -/
abbrev Half := BitVec 16

/-- A 32-bit quantity: a register, a command word, an fp32 pattern, a bus address (R7, R32, R100). -/
abbrev Word := BitVec 32

end Sys2Proof
end

