-- ==== Sys2Proof/Config.lean ====
section
/-! DEFINITION. What one implementation or platform fixes (00_scope R7), and the values the spec leaves free. -/

namespace Sys2Proof

/-- A run of `size` bus addresses that starts at `base`. -/
structure Region where
  base : Nat
  size : Nat
deriving DecidableEq, Repr

/-- The OPEN platform parameters of 00_scope R7. `latency` has no field: it is the number of engine steps a run
takes, and every number is admitted (R143, R282). -/
structure Platform where
  /-- `QDPA_BASE` (R32): the address of the register window, 4-byte aligned at least. -/
  qdpaBase : Nat
  /-- `IRQ_LINE` (R49, R250): the line of the host's interrupt controller that IRQ is wired to. -/
  irqLine : Nat
  /-- `MemAdmit` (R82) as the regions whose bytes return data; the register window is taken out by `memAdmit`. -/
  admitted : List Region
  /-- The locations whose reads have side effects (R83, U8): no input range may cover one. -/
  sideEffects : List Region
  /-- `PLATFORM_COHERENT` (R85): device reads see host stores without cache maintenance. -/
  coherent : Bool
deriving DecidableEq, Repr

namespace Config

/-- The free choice of the byte an engine read step takes (R141), for the n-th engine step that no event of
`State.inputs` schedules. No body: nothing can be proved of it (log 2). -/
opaque readPick : Nat → Nat

/-- The free draw among the values a racing read may return (R86, U5, U18), for the n-th engine step that no event
of `State.inputs` schedules (log 2). -/
opaque readDraw : Nat → Nat

/-- The byte `eng.bytes` gives for an address that was never read: no rule reads one (R180; log 15). -/
opaque missingByte : Nat → Byte

end Config

end Sys2Proof
end

