-- ==== Sys2Proof/Syntax.lean ====
section
/-! DEFINITION. The commands of the opcode table (30_encoding R102, R103, R105), one constructor a row. -/

namespace Sys2Proof

/-- A legal command. `dot` is another spelling of `dotPair2` (R111). -/
inductive Instr where
  /-- `nop` (R230). -/
  | nop
  /-- `dot.pair2` (R201, MODE 0 of R103): the baseline order. -/
  | dotPair2
  /-- `dot.quad4` (R201, MODE 1): the accelerated order. -/
  | dotQuad4
  /-- `dot.seq` (R201, MODE 2): one running total. -/
  | dotSeq
  /-- `isum` (R189). -/
  | isum
  /-- `cvth #h` (R162): `h` is the f16 pattern in command-word bits 31:16. -/
  | cvth (h : Half)
  /-- `nibd #b` (R165): `b` is the byte in command-word bits 23:16. -/
  | nibd (b : Byte)
  /-- `clr` (R232). -/
  | clr
deriving DecidableEq, Repr

end Sys2Proof
end

