-- ==== Sys2Proof/WellFormed.lean ====
section
/-! DEFINITION. The checks on what is handed to the machine: a command as written (30_encoding R110), a decoded
command and a platform (00_scope R7). The check on a host access (R130) is `accessAdmitted` of Machine/Ops.lean. -/

namespace Sys2Proof

/-- A command in assembler syntax (R110): the mnemonic and the operand `#imm`, if there is one. -/
structure AsmLine where
  mnemonic : String
  operand : Option Nat
deriving DecidableEq, Repr

/-- R110: "An assembler refuses an operand out of range, an operand on a command that takes none, and any mnemonic
not in rule R112." -/
def AsmLine.wellFormed (l : AsmLine) : Bool :=
  if l.mnemonic = "cvth" then
    match l.operand with
    | some h => decide (h ≤ 0xFFFF)
    | none => false
  else if l.mnemonic = "nibd" then
    match l.operand with
    | some b => decide (b ≤ 0xFF)
    | none => false
  else ["nop", "dot.pair2", "dot", "dot.quad4", "dot.seq", "isum", "clr"].contains l.mnemonic && l.operand.isNone

/-- The operand bounds of R104 and R110 on a decoded command. The operand types of `Instr` are exactly these widths, so
every command meets them. -/
def Instr.wellFormed : Instr → Bool
  | .nop | .dotPair2 | .dotQuad4 | .dotSeq | .isum | .clr => true
  | .cvth h => decide (h.toNat ≤ 0xFFFF)
  | .nibd b => decide (b.toNat ≤ 0xFF)

/-- A region lies inside the bus address space of R70. -/
def Region.wellFormed (r : Region) : Bool := decide (r.base + r.size ≤ 2 ^ 32)

/-- R32 (the window base is 4-byte aligned) and R70 (the regions lie in the bus address space). -/
def Platform.wellFormed (p : Platform) : Bool :=
  decide (p.qdpaBase % 4 = 0) && p.admitted.all Region.wellFormed && p.sideEffects.all Region.wellFormed

end Sys2Proof
end

