-- ==== Sys2Proof/Decode.lean ====
section
/-! DEFINITION. The command word: its fields, the decoder, the encoder, the opcode table and the assembler
(30_encoding R100 to R112). -/

namespace Sys2Proof

/-- OP, bits 3:0 (R101). -/
def cmdOp (v : Word) : BitVec 4 := v.extractLsb' 0 4

/-- MODE, bits 5:4 (R101). -/
def cmdMode (v : Word) : BitVec 2 := v.extractLsb' 4 2

/-- RSV, bits 15:6 (R101). -/
def cmdRsv (v : Word) : BitVec 10 := v.extractLsb' 6 10

/-- IMM16, bits 31:16 (R101). -/
def cmdImm (v : Word) : Half := v.extractLsb' 16 16

/-- Why a word is ILLEGAL (R107): the causes in the order the decoder meets them. -/
inductive Illegal where
  /-- RSV is nonzero. -/
  | reservedBits
  /-- OP is 0x6 to 0xF. -/
  | reservedOp
  /-- DOT with MODE 3. -/
  | reservedMode
  /-- MODE is nonzero on a command other than DOT. -/
  | modeOutsideDot
  /-- IMM16 is nonzero on a command that takes no immediate, or NIBD with bits 31:24 nonzero. -/
  | immediateBits
deriving DecidableEq, Repr

/-- A command that takes neither MODE nor IMM16. -/
def decodePlain (i : Instr) (mode : BitVec 2) (imm : Half) : Except Illegal Instr :=
  if mode ≠ 0 then .error .modeOutsideDot
  else if imm ≠ 0 then .error .immediateBits
  else .ok i

/-- DOT (R103): MODE 0, 1 and 2 are the three orders, MODE 3 is reserved. -/
def decodeDot (mode : BitVec 2) (imm : Half) : Except Illegal Instr :=
  if imm ≠ 0 then .error .immediateBits
  else if mode = 0 then .ok .dotPair2
  else if mode = 1 then .ok .dotQuad4
  else if mode = 2 then .ok .dotSeq
  else .error .reservedMode

/-- CVTH takes all of IMM16 (R104). -/
def decodeCvth (mode : BitVec 2) (imm : Half) : Except Illegal Instr :=
  if mode ≠ 0 then .error .modeOutsideDot else .ok (.cvth imm)

/-- NIBD takes bits 7:0 of IMM16 and requires the others to be 0 (R101, R104). -/
def decodeNibd (mode : BitVec 2) (imm : Half) : Except Illegal Instr :=
  if mode ≠ 0 then .error .modeOutsideDot
  else if imm.extractLsb' 8 8 ≠ 0 then .error .immediateBits
  else .ok (.nibd (imm.extractLsb' 0 8))

/-- `decode(v)` of R106, total over all words; an ILLEGAL word is rejected with its cause (R107). -/
def decode (v : Word) : Except Illegal Instr :=
  if cmdRsv v ≠ 0 then .error .reservedBits
  else if cmdOp v = 0x0 then decodePlain .nop (cmdMode v) (cmdImm v)
  else if cmdOp v = 0x1 then decodeDot (cmdMode v) (cmdImm v)
  else if cmdOp v = 0x2 then decodePlain .isum (cmdMode v) (cmdImm v)
  else if cmdOp v = 0x3 then decodeCvth (cmdMode v) (cmdImm v)
  else if cmdOp v = 0x4 then decodeNibd (cmdMode v) (cmdImm v)
  else if cmdOp v = 0x5 then decodePlain .clr (cmdMode v) (cmdImm v)
  else .error .reservedOp

/-- The word of a command (R112). -/
def encode : Instr → Word
  | .nop => 0x00000000
  | .dotPair2 => 0x00000001
  | .dotQuad4 => 0x00000011
  | .dotSeq => 0x00000021
  | .isum => 0x00000002
  | .cvth h => h ++ 0x0003#16
  | .nibd b => 0x00#8 ++ b ++ 0x0004#16
  | .clr => 0x00000005

/-- A row of the opcode table (R105). -/
structure OpcodeRow where
  mnemonic : String
  pattern : Word
  mask : Word
deriving DecidableEq, Repr

/-- The opcode table of R105. -/
def opcodeTable : List OpcodeRow :=
  [ ⟨"nop", 0x00000000, 0xFFFFFFFF⟩,
    ⟨"dot.pair2", 0x00000001, 0xFFFFFFFF⟩,
    ⟨"dot.quad4", 0x00000011, 0xFFFFFFFF⟩,
    ⟨"dot.seq", 0x00000021, 0xFFFFFFFF⟩,
    ⟨"isum", 0x00000002, 0xFFFFFFFF⟩,
    ⟨"cvth", 0x00000003, 0x0000FFFF⟩,
    ⟨"nibd", 0x00000004, 0xFF00FFFF⟩,
    ⟨"clr", 0x00000005, 0xFFFFFFFF⟩ ]

/-- `(v & mask) == match` for a row (R105). -/
def OpcodeRow.matchesWord (r : OpcodeRow) (v : Word) : Bool := v &&& r.mask == r.pattern

/-- A word is legal when a row of the table matches it (R105). -/
def legalWord (v : Word) : Bool := opcodeTable.any fun r => r.matchesWord v

/-- The table's name of a command (R105, R110). -/
def mnemonicOf : Instr → String
  | .nop => "nop"
  | .dotPair2 => "dot.pair2"
  | .dotQuad4 => "dot.quad4"
  | .dotSeq => "dot.seq"
  | .isum => "isum"
  | .cvth _ => "cvth"
  | .nibd _ => "nibd"
  | .clr => "clr"

/-- The operand a command is written with (R110). -/
def operandOf : Instr → Option Nat
  | .cvth h => some h.toNat
  | .nibd b => some b.toNat
  | .nop | .dotPair2 | .dotQuad4 | .dotSeq | .isum | .clr => none

/-- The command a mnemonic without operand stands for (R112); `dot` expands to `dot.pair2` (R111). -/
def plainCommand (m : String) : Option Instr :=
  if m = "nop" then some .nop
  else if m = "dot.pair2" ∨ m = "dot" then some .dotPair2
  else if m = "dot.quad4" then some .dotQuad4
  else if m = "dot.seq" then some .dotSeq
  else if m = "isum" then some .isum
  else if m = "clr" then some .clr
  else none

/-- The assembler of R110 to R112: the word of a well-formed line, none where it refuses. -/
def assemble (l : AsmLine) : Option Word :=
  if l.wellFormed then
    match l.operand with
    | none => (plainCommand l.mnemonic).map encode
    | some k =>
      if l.mnemonic = "cvth" then some (encode (.cvth (BitVec.ofNat 16 k)))
      else some (encode (.nibd (BitVec.ofNat 8 k)))
  else none

/-- The disassembler of R112: an ILLEGAL word prints as `.word` with its value. -/
def disassemble (v : Word) : AsmLine :=
  match decode v with
  | .ok i => ⟨mnemonicOf i, operandOf i⟩
  | .error _ => ⟨".word", some v.toNat⟩

/-- The command the decoder reads from the low `nbits` bits of `w`; the table gives every row 32 bits (R100). -/
def decodeTableWord (nbits w : Nat) : Option Instr :=
  match decode (BitVec.ofNat 32 (w % 2 ^ nbits)) with
  | .ok i => some i
  | .error _ => none

end Sys2Proof
end

