-- ==== Sys2Proof/Machine/State.lean ====
section
/-! DEFINITION. The state of the QDPA (10_state), of the memory its engine reads (20_memory) and of the agents around it
(00_scope R15), the reasons a step can stop, and the state after reset (70_reset_and_hazards R270). -/

namespace Sys2Proof.Machine

/-- The reduction modes of DOT (R103). -/
inductive Mode where
  | pair2
  | quad4
  | seq
deriving DecidableEq, Repr

/-- The command in progress, `eng.op` (R50). -/
inductive EngOp where
  | none
  | dot
  | isum
deriving DecidableEq, Repr

/-- The error codes of R240. -/
inductive ErrCode where
  | none
  | illegalCmd
  | badLength
  | range
  | busError
deriving DecidableEq, Repr

/-- One event of an agent (R15): the environment's part of the interleaving. -/
inductive Event where
  /-- `rd OFF` (R131), an access of `bits` bits at offset `offset` of the register window. -/
  | hostRead (bits offset : Nat)
  /-- `wr OFF, v` (R132). -/
  | hostWrite (bits offset : Nat) (v : Word)
  /-- A store of one byte by the host to the bus address space (R85, R86). -/
  | hostStore (addr : Word) (v : Byte)
  /-- The host makes its stores to one byte visible to device reads, on a platform without coherence (R85, R280). -/
  | hostClean (addr : Word)
  /-- An engine step (R141, R142): `pick` is the choice of the pending byte, `draw` the choice among the values a racing
  read may return. -/
  | engine (pick draw : Nat)
  /-- The reset event (R270). -/
  | reset
deriving DecidableEq, Repr

/-- The faults of a step. -/
inductive Fault where
  /-- Raised by a host access that R130 does not admit: "A model treats a non-admitted access as a fault of the host's
  step." The device's state is as before the access. Safe: the run stops where the hardware goes on (log 7). -/
  | hostBusError
  /-- Raised by an engine completion step with BUSY = 1 and `eng.op = NONE`, for which R142 gives no case. No state with
  R50's invariant has it. Safe (log 14). -/
  | engineNoCommand
deriving DecidableEq, Repr

/-- The refusals of a step. -/
inductive Refusal where
  /-- Answered by `exec` for a command that has no meaning in this model; no arm of `exec` uses it. Safe. -/
  | notModelled (mnemonic : String)
  /-- Answered by a DOT or ISUM whose input ranges cover a location with read side effects: "a model refuses such a
  configuration as a launch premise" (R83, U8). Safe (log 10). -/
  | readSideEffects
deriving DecidableEq, Repr

/-- A map from addresses to bytes: the listed cells, addresses strictly rising. -/
abbrev Memory := List Host.Cell

/-- The engine's internal state (R50). -/
structure Engine where
  op : EngOp
  mode : Mode
  nb : Word
  wbase : Word
  abase : Word
  /-- The input bytes not yet read: a set of addresses, listed without repeats. -/
  pending : List Nat
  /-- The input bytes read so far: a partial map, addresses strictly rising. -/
  bytes : Memory
  berr : Bool
deriving DecidableEq, Repr

/-- The machine. The fields up to `eng` are the device's (R33 to R50), `mem` is the bus address space (R70), and the
others are the platform's and the model's own (INVENTORY.md, State). -/
structure State where
  /-- CTRL.IE (R36). -/
  ie : Bool
  /-- STATUS.BUSY (R38). -/
  busy : Bool
  /-- STATUS.DONE (R39). -/
  done : Bool
  /-- STATUS.ERR (R40). -/
  err : Bool
  /-- STATUS.IGN (R41). -/
  ign : Bool
  /-- STATUS.ERRCODE (R42). -/
  errcode : BitVec 4
  /-- N (R44). -/
  n : Word
  /-- WADDR (R45). -/
  waddr : Word
  /-- AADDR (R46). -/
  aaddr : Word
  /-- RESULT (R47). -/
  result : Word
  /-- The engine (R50). -/
  eng : Engine
  /-- The bytes of the bus address space, in the canonical form `Memory.wf` (R70). -/
  mem : Memory
  /-- Values input bytes have held since the CMD write and hold no more, newest first (R86). -/
  stale : List Host.Cell
  /-- Every byte the host has stored on a platform without coherence, newest first (R85, U18). -/
  hostStores : List Host.Cell
  /-- The addresses among them not cleaned since their last store (R85, U18). -/
  uncleaned : List Nat
  /-- The open platform parameters (R7). -/
  platform : Platform
  /-- What the last host read returned (R131). -/
  readData : Option Word
  /-- The events still to come: the interleaving (R15, R249). -/
  inputs : List Event
  /-- How many free choices have been drawn (R141, R86). -/
  draws : Nat
deriving DecidableEq, Repr

/-- The engine after reset (R50). The last four values are unspecified there: a DESIGN CHOICE (log 4). -/
def Engine.reset : Engine where
  op := .none
  pending := []
  bytes := []
  berr := false
  mode := .pair2
  nb := 0
  wbase := 0
  abase := 0

/-- The platform of the reset state: a DESIGN CHOICE for each OPEN parameter of R7 (log 5). -/
def Platform.reset : Platform where
  qdpaBase := 0x40000000
  irqLine := 0
  admitted := [⟨0, 2 ^ 32⟩]
  sideEffects := []
  coherent := true

/-- The machine right after reset (R33, R53, R270). -/
def State.reset : State where
  ie := false
  busy := false
  done := false
  err := false
  ign := false
  errcode := 0
  n := 0
  waddr := 0
  aaddr := 0
  result := 0
  eng := Engine.reset
  mem := []
  stale := []
  hostStores := []
  uncleaned := []
  platform := Platform.reset
  readData := none
  inputs := []
  draws := 0

end Sys2Proof.Machine
end

