-- ==== Sys2Proof/Machine/Flags.lean ====
section
/-! DEFINITION. The flags and the interrupt output (10_state R37 to R42, R49; 60_exceptions R240, R250). -/

namespace Sys2Proof.Machine

/-- The code recorded in STATUS.ERRCODE (R240). -/
def errCodeBits : ErrCode → BitVec 4
  | .none => 0
  | .illegalCmd => 1
  | .badLength => 2
  | .range => 3
  | .busError => 4

/-- The word `rd 0x0C` returns (R37, R131). -/
def statusWord (s : State) : Word :=
  0#20 ++ s.errcode ++ 0#4 ++ BitVec.ofBool s.ign ++ BitVec.ofBool s.err ++ BitVec.ofBool s.done ++ BitVec.ofBool s.busy

/-- The word `rd 0x08` returns (R36, R131). -/
def ctrlWord (s : State) : Word := (BitVec.ofBool s.ie).setWidth 32

/-- The interrupt output (R49): level-sensitive, with no storage of its own. -/
def irq (s : State) : Bool := s.ie && (s.done || s.err)

/-- The level of a line of the host's interrupt controller, as far as the QDPA drives it (R250). -/
def hostLine (s : State) (line : Nat) : Bool := decide (line = s.platform.irqLine) && irq s

/-- The flag writes at the acceptance of every command (R138). -/
def clearOutcome (s : State) : State := { s with done := false, err := false, errcode := 0 }

/-- The record of an ignored write (R41, R134). -/
def setIgnored (s : State) : State := { s with ign := true }

/-- A write of `v` to STATUS (R37): write-1-to-clear of DONE, of ERR with ERRCODE, and of IGN. It is also how a host
handler acknowledges an outcome, the "return" of R251. -/
def writeStatus (v : Word) (s : State) : State :=
  { s with
    done := s.done && !v.getLsbD 1
    err := s.err && !v.getLsbD 2
    errcode := if v.getLsbD 2 then 0 else s.errcode
    ign := s.ign && !v.getLsbD 3 }

/-- A write of `v` to CTRL (R36): only IE is stored. -/
def writeCtrl (v : Word) (s : State) : State := { s with ie := v.getLsbD 0 }

end Sys2Proof.Machine
end

