-- ==== Sys2Proof/Machine/Float.lean ====
section
/-! DEFINITION. binary16 and binary32 (00_scope R10 to R13), computed exactly over the integers and rounded once. -/

namespace Sys2Proof.Machine

/-- `CANON_NAN` (R10). -/
def canonNan : Word := 0x7FC00000

/-- `s || 0xFF || 0[22:0]` (R13): the infinity of a sign. -/
def infinity (neg : Bool) : Word := BitVec.ofBool neg ++ 0xFF#8 ++ 0#23

/-- `s || 0[30:0]` (R13): the zero of a sign. -/
def signedZero (neg : Bool) : Word := BitVec.ofBool neg ++ 0#31

/-- The extended real a pattern denotes (R10), the sign of zero kept. A finite magnitude is counted in units of the least
subnormal of the format, so it is a natural number. -/
inductive FloatVal where
  | nan
  | inf (neg : Bool)
  | fin (neg : Bool) (units : Nat)
deriving DecidableEq, Repr

/-- `val` of an f16 pattern (R10), in units of 2^-24: `2^(e-15) * (1 + m/2^10) = (2^10 + m) * 2^(e-1) * 2^-24`. -/
def f16Val (h : Half) : FloatVal :=
  let e := (h.extractLsb' 10 5).toNat
  let m := (h.extractLsb' 0 10).toNat
  if e = 31 then (if m = 0 then .inf h.msb else .nan)
  else .fin h.msb (if e = 0 then m else (2 ^ 10 + m) * 2 ^ (e - 1))

/-- `val` of an f32 pattern (R10), in units of 2^-149: `2^(e-127) * (1 + m/2^23) = (2^23 + m) * 2^(e-1) * 2^-149`. -/
def f32Val (x : Word) : FloatVal :=
  let e := (x.extractLsb' 23 8).toNat
  let m := (x.extractLsb' 0 23).toNat
  if e = 255 then (if m = 0 then .inf x.msb else .nan)
  else .fin x.msb (if e = 0 then m else (2 ^ 23 + m) * 2 ^ (e - 1))

/-- `f16_to_f32` (R11): exact widening, subnormals normalised, a NaN's sign and payload kept with the quiet bit forced. -/
def f16ToF32 (h : Half) : Word :=
  let s := h.extractLsb' 15 1
  let e := h.extractLsb' 10 5
  let m := h.extractLsb' 0 10
  if e = 0 then
    if m = 0 then s ++ 0#31
    else
      let p := m.toNat.log2
      s ++ BitVec.ofNat 8 (p + 103) ++ (m.setWidth 23 <<< (23 - p))
  else if e = 31 then
    if m = 0 then s ++ 0xFF#8 ++ 0#23
    else s ++ 0xFF#8 ++ 1#1 ++ (m.setWidth 22 <<< 13)
  else s ++ (e.setWidth 8 + 112#8) ++ m ++ 0#13

/-- How many low bits of a magnitude `num` rounding drops, where `num` counts units of 2^-(149+k): all below the least
subnormal, and all below the 24 leading bits. -/
def droppedBits (num k : Nat) : Nat := max k (num.log2 - 23)

/-- `num / 2^d` to the nearest integer, ties to even. -/
def divPow2Even (num d : Nat) : Nat :=
  let q := num / 2 ^ d
  let r := num % 2 ^ d
  if 2 ^ d < 2 * r ∨ (2 * r = 2 ^ d ∧ q % 2 = 1) then q + 1 else q

/-- The exponent and fraction bits of `num * 2^-(149+k)` rounded to nearest, ties to even, as if the exponent had no upper
bound. With `d` bits dropped the kept integer `n` stands for `n` units of 2^(d-k-149), whose bits are
`(d - k) * 2^23 + n` for a normal number, for a subnormal one (`d = k`), and where rounding carries `n` up to 2^24. -/
def roundedBits (num k : Nat) : Nat :=
  (droppedBits num k - k) * 2 ^ 23 + divPow2Even num (droppedBits num k)

/-- `round_rne32` (R13) of the real of sign `neg` and magnitude `num * 2^-(149+k)`: infinity when the rounded magnitude
passes the largest finite one. -/
def roundRne32 (neg : Bool) (num k : Nat) : Word :=
  if roundedBits num k < 0x7F800000 then BitVec.ofBool neg ++ BitVec.ofNat 31 (roundedBits num k)
  else infinity neg

/-- `i2f` (R12), exact for `|i| ≤ 2^24`; `i2f(0)` is `+0`. -/
def i2f (i : Int) : Word := roundRne32 (decide (i < 0)) (i.natAbs * 2 ^ 149) 0

/-- `fmul32` (R13). The exact product of two finite values counts units of 2^-298. -/
def fmul32 (a b : Word) : Word :=
  match f32Val a, f32Val b with
  | .nan, _ => canonNan
  | .inf _, .nan => canonNan
  | .fin _ _, .nan => canonNan
  | .inf s, .inf t => infinity (s ^^ t)
  | .inf s, .fin t y => if y = 0 then canonNan else infinity (s ^^ t)
  | .fin s x, .inf t => if x = 0 then canonNan else infinity (s ^^ t)
  | .fin s x, .fin t y => if x * y = 0 then signedZero (s ^^ t) else roundRne32 (s ^^ t) (x * y) 149

/-- A magnitude with its sign. -/
def signedUnits (neg : Bool) (units : Nat) : Int := if neg then -(units : Int) else units

/-- `fadd32` (R13). The exact sum of two finite values counts units of 2^-149. -/
def fadd32 (a b : Word) : Word :=
  match f32Val a, f32Val b with
  | .nan, _ => canonNan
  | .inf _, .nan => canonNan
  | .fin _ _, .nan => canonNan
  | .inf s, .inf t => if s = t then a else canonNan
  | .inf _, .fin _ _ => a
  | .fin _ _, .inf _ => b
  | .fin s x, .fin t y =>
    let r := signedUnits s x + signedUnits t y
    if r = 0 then
      if a = signedZero true ∧ b = signedZero true then signedZero true else signedZero false
    else roundRne32 (decide (r < 0)) r.natAbs 0

end Sys2Proof.Machine
end

