-- ==== Sys2Proof/Machine/Operands.lean ====
section
/-! DEFINITION. What the commands read from a block (20_memory R71 to R76, 41_layout_decode R160, R161, 42_block_mac R180 to
R187). Every function takes the bytes as a reader `B`, the spec's `eng.bytes`. -/

namespace Sys2Proof.Machine

/-- `tc_16` (R9). -/
def tc16 (i : Int) : Half := BitVec.ofInt 16 i

/-- `tc_32` (R9). -/
def tc32 (i : Int) : Word := BitVec.ofInt 32 i

/-- `decode_nibble_pair` (R160): the low and the high nibble, each less the zero-point 8. -/
def decodeNibblePair (b : Byte) : Int × Int :=
  (((b.extractLsb' 0 4).toNat : Int) - 8, ((b.extractLsb' 4 4).toNat : Int) - 8)

/-- `decode_scale` (R161). -/
def decodeScale (h : Half) : Word := f16ToF32 h

/-- `MemRead(addr, n)` of R80 over admitted bytes: little-endian. -/
def leBytes (B : Nat → Byte) (addr : Nat) : Nat → Nat
  | 0 => 0
  | n + 1 => (B addr).toNat + 2 ^ 8 * leBytes B (addr + 1) n

/-- The block count of an element count, `N[31:5]` (R44). -/
def blockCount (n : Word) : Word := n >>> 5

/-- The address of weight block `k` (R76), over exact integers. -/
def weightBlock (wb k : Nat) : Nat := wb + 18 * k

/-- The address of activation block `k` (R76), over exact integers. -/
def activationBlock (ab k : Nat) : Nat := ab + 34 * k

/-- The scale of the block at `b`: byte 1 is the more significant (R71, R72, R75). -/
def blockScale (B : Nat → Byte) (b : Nat) : Half := B (b + 1) ++ B b

/-- Data byte `qs[j]` of the Q4 block at `w` (R71). -/
def weightByte (B : Nat → Byte) (w j : Nat) : Byte := B (w + 2 + j)

/-- Element `qa[i]` of the Q8 block at `a` as a signed integer (R72, R74). -/
def activationElem (B : Nat → Byte) (a i : Nat) : Int := (B (a + 2 + i)).toInt

/-- Element `w[i]` of the Q4 block at `w` as a signed integer (R73): byte `j` holds elements `j` and `j + 16`. -/
def weightElem (B : Nat → Byte) (w i : Nat) : Int :=
  if i < 16 then (decodeNibblePair (weightByte B w i)).1 else (decodeNibblePair (weightByte B w (i - 16))).2

/-- The two products of data byte `j` (R182): the low nibble pairs with element `j`, the high one with element `j + 16`. -/
def pairProducts (B : Nat → Byte) (w a j : Nat) : Int :=
  weightElem B w j * activationElem B a j + weightElem B w (j + 16) * activationElem B a (j + 16)

/-- The integer partial sum of the block pair at `w` and `a` (R182), exact. -/
def blockSum (B : Nat → Byte) (w a : Nat) : Int := ((List.range 16).map (pairProducts B w a)).sum

/-- The scale product `sp_k` (R185, R186). -/
def scaleProduct (B : Nat → Byte) (w a : Nat) : Word :=
  fmul32 (decodeScale (blockScale B w)) (decodeScale (blockScale B a))

/-- The block contribution `c_k` of the block pair at `w` and `a` (R187). -/
def blockContribution (B : Nat → Byte) (w a : Nat) : Word := fmul32 (i2f (blockSum B w a)) (scaleProduct B w a)

/-- `[c_0, ..., c_(nb-1)]` (R204) of the vectors at `wb` and `ab`. -/
def contributions (B : Nat → Byte) (wb ab nb : Nat) : List Word :=
  (List.range nb).map fun k => blockContribution B (weightBlock wb k) (activationBlock ab k)

end Sys2Proof.Machine
end

