-- ==== Sys2Proof/Machine/Ops.lean ====
section
/-! DEFINITION. The shared operations: memory, the register window, acceptance, completion, errors, the start of the engine
and reset (20_memory, 40_command_interface, 60_exceptions, 70_reset_and_hazards). -/

namespace Sys2Proof.Machine

/-! ## Maps from addresses to bytes -/

/-- The byte listed for an address. -/
def lookupCell (a : Nat) : Memory → Option Byte
  | [] => none
  | (b, v) :: rest => if b = a then some v else lookupCell a rest

/-- Lists `v` for `a`, keeping the addresses rising. -/
def insertCell (a : Nat) (v : Byte) : Memory → Memory
  | [] => [(a, v)]
  | (b, w) :: rest =>
    if a < b then (a, v) :: (b, w) :: rest
    else if a = b then (a, v) :: rest
    else (b, w) :: insertCell a v rest

/-- Lists nothing for `a`. -/
def eraseCell (a : Nat) : Memory → Memory
  | [] => []
  | (b, w) :: rest => if b = a then rest else (b, w) :: eraseCell a rest

/-! ## The bus address space -/

/-- What a byte that nothing has written reads as: a DESIGN CHOICE (log 6), the convention of 95_test_vectors section 3. -/
def blankByte : Byte := 0

/-- The byte at a bus address (R70). -/
def memRead (m : Memory) (a : Nat) : Byte := (lookupCell a m).getD blankByte

/-- Stores a byte, keeping the canonical form. -/
def memWrite (m : Memory) (a : Nat) (v : Byte) : Memory := if v = blankByte then eraseCell a m else insertCell a v m

/-- The cells stand at strictly rising addresses. -/
abbrev Memory.rising (m : Memory) : Prop := (m.map Prod.fst).Pairwise (· < ·)

/-- The canonical form: rising addresses inside the bus address space (R70), and no cell that says what an unlisted
address reads as. -/
abbrev Memory.wf (m : Memory) : Prop := Memory.rising m ∧ ∀ c ∈ m, c.2 ≠ blankByte ∧ c.1 < 2 ^ 32

/-! ## The platform -/

/-- An address lies in a region. -/
def inRegion (a : Nat) (r : Region) : Bool := decide (r.base ≤ a) && decide (a < r.base + r.size)

/-- An address lies in the register window of R32. -/
def inWindow (p : Platform) (a : Nat) : Bool := inRegion a ⟨p.qdpaBase, 64⟩

/-- `MemAdmit(addr)` (R82): "The QDPA's own register window is never admitted to its bus-master port." -/
def memAdmit (p : Platform) (a : Nat) : Bool := p.admitted.any (inRegion a) && !inWindow p a

/-- The range `base .. base + len - 1` and a region share an address. -/
def rangeMeets (base len : Nat) (r : Region) : Bool :=
  decide (max base r.base < min (base + len) (r.base + r.size))

/-- The input ranges of `nb` block pairs cover a location with read side effects (R83). -/
def touchesSideEffects (s : State) (nb : Nat) : Bool :=
  s.platform.sideEffects.any fun r => rangeMeets s.waddr.toNat (18 * nb) r || rangeMeets s.aaddr.toNat (34 * nb) r

/-! ## The host's stores and what device reads see of them -/

/-- The values a list of cells holds for an address. -/
def valuesAt (a : Nat) (cells : List Host.Cell) : List Byte := (cells.filter fun c => c.1 == a).map Prod.snd

/-- The values a device read of a byte may return: its memory value, the values it held since the CMD write (R86, U5), and,
where stores to it were not cleaned, every value the host stored to it (R85, U18). -/
def readCandidates (s : State) (a : Nat) : List Byte :=
  memRead s.mem a :: (valuesAt a s.stale ++ if s.uncleaned.contains a then valuesAt a s.hostStores else [])

/-- The value a device read of an admitted byte returns, `draw` being the free choice among the candidates. -/
def deviceByte (s : State) (a draw : Nat) : Byte :=
  (readCandidates s a).getD (draw % (readCandidates s a).length) blankByte

/-- The memory value of a byte becomes `v`. While a command is in progress the value it held remains one a racing read may
return (R86). -/
def replaceByte (s : State) (a : Nat) (v : Byte) : State :=
  { s with
    stale := if s.busy then (a, memRead s.mem a) :: s.stale else s.stale
    mem := memWrite s.mem a v }

/-- A host store of one byte (R85, R86): at once in memory where the platform is coherent, and held back from device
reads where it is not. -/
def storeByte (s : State) (a : Nat) (v : Byte) : State :=
  if s.platform.coherent then replaceByte s a v
  else { s with hostStores := (a, v) :: s.hostStores, uncleaned := s.uncleaned.insert a }

/-- The host cleans a byte from its caches (R85, R280): its last store reaches memory. While a command is in progress every
value the byte may have had so far remains one a racing read may return. -/
def cleanByte (s : State) (a : Nat) : State :=
  if s.uncleaned.contains a then
    match valuesAt a s.hostStores with
    | [] => { s with uncleaned := s.uncleaned.filter (· != a) }
    | v :: olds =>
      { replaceByte s a v with
        stale := (if s.busy then (v :: olds).map (fun o => (a, o)) else []) ++ (replaceByte s a v).stale
        uncleaned := s.uncleaned.filter (· != a) }
  else s

/-! ## The end of a command -/

/-- `eng.op <- NONE; eng.pending <- empty; eng.bytes <- empty; eng.berr <- false` (R145, R242, R270). -/
def engineIdle (e : Engine) : Engine := { e with op := .none, pending := [], bytes := [], berr := false }

/-- `complete(v)` (R145). The race of R86 ends with the command, so `stale` is emptied. -/
def complete (v : Word) (s : State) : State :=
  { s with result := v, done := true, busy := false, eng := engineIdle s.eng, stale := [] }

/-- `raise Error(code)` (R242): the one way a command ends in error. It is a record, not a trap (R241). -/
def raiseError (c : ErrCode) (s : State) : State :=
  { s with err := true, errcode := errCodeBits c, busy := false, eng := engineIdle s.eng, stale := [] }

/-- `reset()` (R270). Memory, the platform and the host's side of the interleaving are no state of the device and stay
(R272). The engine fields that R270 leaves unspecified take the values of the reset state (log 4). -/
def resetDevice (s : State) : State :=
  { s with
    ie := false, busy := false, done := false, err := false, ign := false, errcode := 0
    n := 0, waddr := 0, aaddr := 0, result := 0
    eng := Engine.reset, stale := [] }

/-! ## Acceptance -/

/-- A host write of a command to CMD (R43, R132, R138): ignored with IGN set while BUSY is 1 (R134), otherwise accepted,
which clears DONE, ERR and ERRCODE before the command's own effect `body`. -/
def commandWrite (body : State → Host.Outcome State Fault Refusal) (s : State) : Host.Outcome State Fault Refusal :=
  if s.busy then .next (setIgnored s) else body (clearOutcome s)

/-- The `len` addresses from `base`. -/
def addressRun (base len : Nat) : List Nat := (List.range len).map (base + ·)

/-- The input bytes of R140: the union of the weight and the activation range, each shared address once. -/
def inputAddresses (wb ab nb : Nat) : List Nat :=
  addressRun wb (18 * nb) ++ (addressRun ab (34 * nb)).filter fun a => !(decide (wb ≤ a) && decide (a < wb + 18 * nb))

/-- `start(op, mode, nb)` (R140). -/
def startEngine (op : EngOp) (mode : Mode) (nb : Word) (s : State) : State :=
  { s with
    eng := { op := op, mode := mode, nb := nb, wbase := s.waddr, abase := s.aaddr,
             pending := inputAddresses s.waddr.toNat s.aaddr.toNat nb.toNat, bytes := [], berr := false }
    busy := true
    stale := [] }

/-- The RANGE check (R76, R190, R203), over exact integers. -/
def rangesFit (s : State) (nb : Nat) : Bool :=
  decide (s.waddr.toNat + 18 * nb ≤ 2 ^ 32) && decide (s.aaddr.toNat + 34 * nb ≤ 2 ^ 32)

/-- The part of `start_isum` and `start_dot` they share (R190, R202): the RANGE check, the launch premise of R83, and the
start of the engine. -/
def launch (op : EngOp) (mode : Mode) (nb : Word) (s : State) : Host.Outcome State Fault Refusal :=
  if !rangesFit s nb.toNat then .next (raiseError .range s)
  else if touchesSideEffects s nb.toNat then .refused .readSideEffects
  else .next (startEngine op mode nb s)

/-! ## The register window -/

/-- R130: a host access is admitted only if it is a 32-bit access at a 4-byte-aligned offset in `0x00 .. 0x3C`. -/
def accessAdmitted (bits offset : Nat) : Bool :=
  decide (bits = 32) && decide (offset % 4 = 0) && decide (offset ≤ 0x3C)

/-- ID (R34). -/
def idValue : Word := 0x51445041

/-- VERSION (R35). -/
def versionValue : Word := 0x00010000

/-- `rd(OFF)` (R131): CMD and the reserved offsets read 0. -/
def readReg (offset : Nat) (s : State) : Word :=
  if offset = 0x00 then idValue
  else if offset = 0x04 then versionValue
  else if offset = 0x08 then ctrlWord s
  else if offset = 0x0C then statusWord s
  else if offset = 0x14 then s.n
  else if offset = 0x18 then s.waddr
  else if offset = 0x1C then s.aaddr
  else if offset = 0x20 then s.result
  else 0

/-- A write of N, WADDR or AADDR (R132 to R134): stored unchecked while BUSY is 0, ignored with IGN set while it is 1. -/
def writeOperand (store : State → State) (s : State) : State := if s.busy then setIgnored s else store s

/-- `wr(OFF, v)` (R132) at every offset but CMD's: ID, VERSION, RESULT and the reserved offsets ignore it. -/
def writeReg (offset : Nat) (v : Word) (s : State) : State :=
  if offset = 0x08 then writeCtrl v s
  else if offset = 0x0C then writeStatus v s
  else if offset = 0x14 then writeOperand (fun s => { s with n := v }) s
  else if offset = 0x18 then writeOperand (fun s => { s with waddr := v }) s
  else if offset = 0x1C then writeOperand (fun s => { s with aaddr := v }) s
  else s

end Sys2Proof.Machine
end

