-- ==== Sys2Proof/Machine/BlockMac.lean ====
section
/-! DEFINITION. ISUM (42_block_mac R189 to R191). -/

namespace Sys2Proof.Machine

/-- `isum_result(B, wb, ab)` (R191). -/
def isumResult (B : Nat → Byte) (wb ab : Nat) : Word := tc32 (blockSum B (weightBlock wb 0) (activationBlock ab 0))

/-- ISUM at acceptance (R189, R190): one block pair; N is not read. R190 passes `-` for the mode, which ISUM never reads:
it keeps its value (log 13). -/
def execIsum (s : State) : Host.Outcome State Fault Refusal :=
  commandWrite (fun s => launch .isum s.eng.mode 1 s) s

end Sys2Proof.Machine
end

