-- ==== Sys2Proof/Machine/Control.lean ====
section
/-! DEFINITION. NOP and CLR (44_control_commands). -/

namespace Sys2Proof.Machine

/-- NOP (R230): `complete(reg.RESULT)`. -/
def execNop (s : State) : Host.Outcome State Fault Refusal :=
  commandWrite (fun s => .next (complete s.result s)) s

/-- CLR (R232): IGN becomes 0 (R233), then `complete(0x00000000)`. -/
def execClr (s : State) : Host.Outcome State Fault Refusal :=
  commandWrite (fun s => .next (complete 0 { s with ign := false })) s

end Sys2Proof.Machine
end

