-- ==== Sys2Proof/Machine/Layout.lean ====
section
/-! DEFINITION. The layout decoders as commands: CVTH and NIBD (41_layout_decode). -/

namespace Sys2Proof.Machine

/-- CVTH (R162). -/
def execCvth (h : Half) (s : State) : Host.Outcome State Fault Refusal :=
  commandWrite (fun s => .next (complete (decodeScale h) s)) s

/-- NIBD's RESULT (R165, R166): `tc_16(hi) || tc_16(lo)`. -/
def nibbleWord (b : Byte) : Word := tc16 (decodeNibblePair b).2 ++ tc16 (decodeNibblePair b).1

/-- NIBD (R165). -/
def execNibd (b : Byte) (s : State) : Host.Outcome State Fault Refusal :=
  commandWrite (fun s => .next (complete (nibbleWord b) s)) s

end Sys2Proof.Machine
end

