-- ==== Sys2Proof/Machine/Reduction.lean ====
section
/-! DEFINITION. DOT and the three orders of reduction (43_dot_reduction). -/

namespace Sys2Proof.Machine

/-- `+0`, the start of every running total (R204). -/
def plusZero : Word := 0x00000000

/-- The single-block loop of R205 and R206: each block is added into the total. -/
def addSingles (t : Word) (cs : List Word) : Word := cs.foldl fadd32 t

/-- `seq` (R207). -/
def seqReduce (cs : List Word) : Word := addSingles plusZero cs

/-- The pair loop of R205: it ends with the two totals and the blocks left over. -/
def pairLoop (s0 s1 : Word) : List Word → Word × Word × List Word
  | a :: b :: rest => pairLoop (fadd32 s0 a) (fadd32 s1 b) rest
  | rest => (s0, s1, rest)

/-- `pair2` (R205). -/
def pair2Reduce (cs : List Word) : Word :=
  let (s0, s1, rest) := pairLoop plusZero plusZero cs
  addSingles (fadd32 s0 s1) rest

/-- The group loop of R206: it ends with the four totals merged pairwise, then summed, and the blocks left over. -/
def quadLoop (s0 s1 s2 s3 : Word) : List Word → Word × List Word
  | a :: b :: c :: d :: rest => quadLoop (fadd32 s0 a) (fadd32 s1 b) (fadd32 s2 c) (fadd32 s3 d) rest
  | rest => (fadd32 (fadd32 s0 s1) (fadd32 s2 s3), rest)

/-- The remainder of R206: a pair in two fresh totals, then a single block. -/
def quadRemainder (t : Word) : List Word → Word
  | a :: b :: rest => addSingles (fadd32 t (fadd32 (fadd32 plusZero a) (fadd32 plusZero b))) rest
  | rest => addSingles t rest

/-- `quad4` (R206). -/
def quad4Reduce (cs : List Word) : Word :=
  let (t, rest) := quadLoop plusZero plusZero plusZero plusZero cs
  quadRemainder t rest

/-- The reduction of a mode (R204). -/
def reduceWith : Mode → List Word → Word
  | .pair2, cs => pair2Reduce cs
  | .quad4, cs => quad4Reduce cs
  | .seq, cs => seqReduce cs

/-- `dot_result(mode, nb, B, wb, ab)` (R204). -/
def dotResult (mode : Mode) (nb : Nat) (B : Nat → Byte) (wb ab : Nat) : Word :=
  reduceWith mode (contributions B wb ab nb)

/-- The length check of R202: a legal N is nonzero with `N[4:0] = 0` (R44). -/
def lengthLegal (n : Word) : Bool := decide (n ≠ 0) && decide (n.extractLsb' 0 5 = 0)

/-- `start_dot(mode)` (R202): BAD_LENGTH, then RANGE (R248), then the start. -/
def startDot (mode : Mode) (s : State) : Host.Outcome State Fault Refusal :=
  if lengthLegal s.n then launch .dot mode (blockCount s.n) s else .next (raiseError .badLength s)

/-- DOT in mode PAIR2 (R201). -/
def execDotPair2 (s : State) : Host.Outcome State Fault Refusal := commandWrite (startDot .pair2) s

/-- DOT in mode QUAD4 (R201). -/
def execDotQuad4 (s : State) : Host.Outcome State Fault Refusal := commandWrite (startDot .quad4) s

/-- DOT in mode SEQ (R201). -/
def execDotSeq (s : State) : Host.Outcome State Fault Refusal := commandWrite (startDot .seq) s

end Sys2Proof.Machine
end

