-- ==== Sys2Proof/Machine/Dispatch.lean ====
section
/-! DEFINITION. What a host write of a legal command word to CMD does (40_command_interface R138): one arm a command. -/

namespace Sys2Proof.Machine

def exec (i : Instr) (s : State) : Host.Outcome State Fault Refusal :=
  match i with
  | .nop => Sys2Proof.Machine.execNop s
  | .dotPair2 => Sys2Proof.Machine.execDotPair2 s
  | .dotQuad4 => Sys2Proof.Machine.execDotQuad4 s
  | .dotSeq => Sys2Proof.Machine.execDotSeq s
  | .isum => Sys2Proof.Machine.execIsum s
  | .cvth h => Sys2Proof.Machine.execCvth h s
  | .nibd b => Sys2Proof.Machine.execNibd b s
  | .clr => Sys2Proof.Machine.execClr s

end Sys2Proof.Machine
end

