-- ==== Sys2Proof/Machine/Engine.lean ====
section
/-! DEFINITION. The engine's steps (40_command_interface R141 to R143). -/

namespace Sys2Proof.Machine

/-- `eng.bytes` as a reader. At completion every input byte is in the map (R180); an address that is not gives a free
value (log 15). -/
def engineByte (e : Engine) (a : Nat) : Byte := (lookupCell a e.bytes).getD (Config.missingByte a)

/-- The address an engine read step takes (R141): any pending one. -/
def pickedAddress (e : Engine) (pick : Nat) : Nat := e.pending.getD (pick % e.pending.length) 0

/-- The engine read step (R141, R82). -/
def engineRead (pick draw : Nat) (s : State) : State :=
  let a := pickedAddress s.eng pick
  if memAdmit s.platform a then
    { s with eng := { s.eng with
        bytes := insertCell a (deviceByte s a draw) s.eng.bytes
        pending := s.eng.pending.erase a } }
  else { s with eng := { s.eng with berr := true } }

/-- The engine completion step (R142). -/
def engineComplete (s : State) : Host.Outcome State Fault Refusal :=
  if s.eng.berr then .next (raiseError .busError s)
  else match s.eng.op with
    | .isum => .next (complete (isumResult (engineByte s.eng) s.eng.wbase.toNat s.eng.abase.toNat) s)
    | .dot =>
      .next (complete (dotResult s.eng.mode s.eng.nb.toNat (engineByte s.eng) s.eng.wbase.toNat s.eng.abase.toNat) s)
    | .none => .fault .engineNoCommand

/-- One turn of the engine (R141, R142). While BUSY is 0 "the engine takes no step" (R258). -/
def engineStep (pick draw : Nat) (s : State) : Host.Outcome State Fault Refusal :=
  if !s.busy then .next s
  else if s.eng.berr || s.eng.pending.isEmpty then engineComplete s
  else .next (engineRead pick draw s)

/-- What happens when no event is left: the engine goes on by itself, its free choices drawn from Config (R143, logs 1
and 2), and an idle device does nothing (R258). -/
def unscheduledStep (s : State) : Host.Outcome State Fault Refusal :=
  if s.busy then engineStep (Config.readPick s.draws) (Config.readDraw s.draws) { s with draws := s.draws + 1 }
  else .next s

end Sys2Proof.Machine
end

