-- ==== Sys2Proof/Machine/Access.lean ====
section
/-! DEFINITION. Host accesses and the events of the interleaving (40_command_interface R130 to R134, 00_scope R15). -/

namespace Sys2Proof.Machine

/-- A word that `decode` maps to ILLEGAL, written to CMD (R107, R138, R243). -/
def acceptIllegal (s : State) : Host.Outcome State Fault Refusal :=
  commandWrite (fun s => .next (raiseError .illegalCmd s)) s

/-- A write of `v` to CMD (R43, R132, R138). -/
def writeCmd (v : Word) (s : State) : Host.Outcome State Fault Refusal :=
  match decode v with
  | .ok i => exec i s
  | .error _ => acceptIllegal s

/-- `wr OFF, v` (R132), admitted or not (R130). -/
def hostWrite (bits offset : Nat) (v : Word) (s : State) : Host.Outcome State Fault Refusal :=
  if !accessAdmitted bits offset then .fault .hostBusError
  else if offset = 0x10 then writeCmd v s
  else .next (writeReg offset v s)

/-- `rd OFF` (R131), admitted or not (R130): no register has a read side effect. -/
def hostRead (bits offset : Nat) (s : State) : Host.Outcome State Fault Refusal :=
  if accessAdmitted bits offset then .next { s with readData := some (readReg offset s) } else .fault .hostBusError

/-- A host store of a byte to the bus address space (R85, R86). At an address of the register window it is an 8-bit access
to the window, which R130 does not admit (log 16). -/
def hostStore (a : Nat) (v : Byte) (s : State) : Host.Outcome State Fault Refusal :=
  if inWindow s.platform a then .fault .hostBusError else .next (storeByte s a v)

/-- One event of the interleaving (R15, R249). -/
def runEvent (e : Event) (s : State) : Host.Outcome State Fault Refusal :=
  match e with
  | .hostRead bits offset => hostRead bits offset s
  | .hostWrite bits offset v => hostWrite bits offset v s
  | .hostStore a v => hostStore a.toNat v s
  | .hostClean a => .next (cleanByte s a.toNat)
  | .engine pick draw => engineStep pick draw s
  | .reset => .next (resetDevice s)

/-- The state with the write of `w` to CMD as its next event: the device fetches no instructions, "Commands arrive only as
host writes to CMD" (R89). -/
def queueCommand (w : Word) (s : State) : State := { s with inputs := .hostWrite 32 0x10 w :: s.inputs }

end Sys2Proof.Machine
end

