-- ==== Sys2Proof/Machine/Step.lean ====
section
/-! DEFINITION. One step of the interleaving of host, engine and reset (00_scope R15, 60_exceptions R249). -/

namespace Sys2Proof.Machine

/-- The next event happens, or, when none is left, what goes on without one (R15, R143; log 1). -/
def step (s : State) : Host.Outcome State Fault Refusal :=
  match s.inputs with
  | [] => unscheduledStep s
  | e :: rest => runEvent e { s with inputs := rest }

/-- The command word in the low `nbits` bits of `w`, written to CMD by the host as the next event (R89, R100; log 3). -/
def State.withFetchWord (s : State) (nbits w : Nat) : State := queueCommand (BitVec.ofNat 32 (w % 2 ^ nbits)) s

end Sys2Proof.Machine
end

