-- ==== Sys2Proof/Safety.lean ====
section
/-! DEFINITION. The terms of the claims: how a command ends or starts, what it leaves alone, and the invariants of a safe
run. -/

namespace Sys2Proof.Machine

/-! ## Frames -/

/-- What no command touches: every byte of the bus address space (R81), the platform, and the other agents' side. -/
structure SurroundingsKept (s t : State) : Prop where
  memory : ∀ a, memRead t.mem a = memRead s.mem a
  hostStores : t.hostStores = s.hostStores
  uncleaned : t.uncleaned = s.uncleaned
  platform : t.platform = s.platform
  readData : t.readData = s.readData
  inputs : t.inputs = s.inputs
  draws : t.draws = s.draws

/-- The registers only their own host writes and reset change: CTRL, N, WADDR, AADDR. -/
structure OperandsKept (s t : State) : Prop where
  ie : t.ie = s.ie
  n : t.n = s.n
  waddr : t.waddr = s.waddr
  aaddr : t.aaddr = s.aaddr

/-! ## The ends of a command -/

/-- The engine has no command: `eng.op = NONE` and nothing pending, read or failed (R145, R242). -/
structure EngineAtRest (e : Engine) : Prop where
  op : e.op = .none
  pending : e.pending = []
  bytes : e.bytes = []
  berr : e.berr = false

/-- The command ended without error with RESULT = `v` (R145, R146). -/
structure CompletedWith (v : Word) (t : State) : Prop where
  result : t.result = v
  busy : t.busy = false
  done : t.done = true
  err : t.err = false
  errcode : t.errcode = 0
  engine : EngineAtRest t.eng

/-- The command ended in error with ERRCODE = `code` (R242, R146); RESULT is that of `s`. -/
structure EndedInError (code : BitVec 4) (s t : State) : Prop where
  result : t.result = s.result
  busy : t.busy = false
  done : t.done = false
  err : t.err = true
  errcode : t.errcode = code
  engine : EngineAtRest t.eng

/-- An address lies in the weight or the activation range of `nb` block pairs (R76). -/
def InInputRanges (wb ab nb a : Nat) : Prop := (wb ≤ a ∧ a < wb + 18 * nb) ∨ (ab ≤ a ∧ a < ab + 34 * nb)

/-- The engine was started on `nb` block pairs with the operands of `s` (R140); RESULT is that of `s` (R47). -/
structure StartedOn (op : EngOp) (nb : Nat) (s t : State) : Prop where
  result : t.result = s.result
  busy : t.busy = true
  done : t.done = false
  err : t.err = false
  errcode : t.errcode = 0
  op : t.eng.op = op
  count : t.eng.nb.toNat = nb
  wbase : t.eng.wbase = s.waddr
  abase : t.eng.abase = s.aaddr
  pending : ∀ a, a ∈ t.eng.pending ↔ InInputRanges s.waddr.toNat s.aaddr.toNat nb a
  once : t.eng.pending.Nodup
  bytes : t.eng.bytes = []
  berr : t.eng.berr = false

/-! ## Invariants -/

/-- The status fields agree with each other (R38, R39, R42, R139). -/
structure StatusInv (s : State) : Prop where
  oneOutcome : ¬ (s.done = true ∧ s.err = true)
  codeExactlyOnError : s.errcode ≠ 0 ↔ s.err = true
  codeProduced : s.errcode.toNat ≤ 4
  noOutcomeWhileBusy : s.busy = true → s.done = false ∧ s.err = false

/-- The engine's state is that of the command in progress (R50, R140, R141): it has one exactly when BUSY is 1, with the
operands the registers still hold, and every input byte is either pending or read. -/
structure EngineInv (s : State) : Prop where
  busyHasOp : s.busy = true ↔ s.eng.op ≠ .none
  restWhenIdle : s.busy = false → EngineAtRest s.eng ∧ s.stale = []
  bases : s.busy = true → s.eng.wbase = s.waddr ∧ s.eng.abase = s.aaddr
  dotCount : s.eng.op = .dot → lengthLegal s.n = true ∧ s.eng.nb = blockCount s.n
  isumCount : s.eng.op = .isum → s.eng.nb = 1
  rangesFit : s.busy = true → s.waddr.toNat + 18 * s.eng.nb.toNat ≤ 2 ^ 32 ∧ s.aaddr.toNat + 34 * s.eng.nb.toNat ≤ 2 ^ 32
  pendingOnce : s.eng.pending.Nodup
  bytesRising : Memory.rising s.eng.bytes
  pendingOrRead : s.busy = true → ∀ a, InInputRanges s.waddr.toNat s.aaddr.toNat s.eng.nb.toNat a ↔
    (a ∈ s.eng.pending ∨ (lookupCell a s.eng.bytes).isSome = true)
  notBoth : ∀ a ∈ s.eng.pending, lookupCell a s.eng.bytes = none

/-- The bus address space is in its canonical form. -/
def MemoryInv (s : State) : Prop := Memory.wf s.mem

/-- The invariant of a safe run. -/
structure RunInv (s : State) : Prop where
  status : StatusInv s
  engine : EngineInv s
  memory : MemoryInv s

/-! ## Runs of the engine alone -/

/-- Every event still to come is an engine turn: no other agent acts. -/
def OnlyEngineTurns (s : State) : Prop := ∀ e ∈ s.inputs, ∃ pick draw, e = .engine pick draw

/-- No byte of the input ranges of `nb` block pairs holds a host store that device reads may not see (R85, R280). -/
def StoresVisible (s : State) (nb : Nat) : Prop :=
  ∀ a, InInputRanges s.waddr.toNat s.aaddr.toNat nb a → a ∉ s.uncleaned

/-! ## The premises of a command -/

/-- The launch premise of R83: no byte of the input ranges of `nb` block pairs has read side effects. -/
def NoSideEffectInput (s : State) (nb : Nat) : Prop :=
  ∀ r ∈ s.platform.sideEffects, ∀ a, InInputRanges s.waddr.toNat s.aaddr.toNat nb a → ¬ (r.base ≤ a ∧ a < r.base + r.size)

/-- Both input ranges of `nb` block pairs lie in the bus address space (R76). -/
def RangesInSpace (s : State) (nb : Nat) : Prop :=
  s.waddr.toNat + 18 * nb ≤ 2 ^ 32 ∧ s.aaddr.toNat + 34 * nb ≤ 2 ^ 32

/-- A legal N of `nb` blocks: nonzero and a multiple of 32 (R44). -/
def LegalCount (s : State) (nb : Nat) : Prop := s.n.toNat = 32 * nb ∧ nb ≠ 0

/-- Every byte of the input ranges of `nb` block pairs is admitted by the platform (R82). -/
def InputAdmitted (s : State) (nb : Nat) : Prop :=
  ∀ a, InInputRanges s.waddr.toNat s.aaddr.toNat nb a → memAdmit s.platform a = true

/-- The total that starts at `+0` and takes `c j`, `c (step + j)`, `c (2 * step + j)`, ..., `count` of them, in this order:
one total of R205 to R207. -/
def strideTotal (c : Nat → Word) (step j count : Nat) : Word :=
  (List.range count).foldl (fun t q => fadd32 t (c (step * q + j))) 0x00000000

/-- The DOT commands with their modes (R103). -/
def dotCommands : List (Instr × Mode) := [(.dotPair2, .pair2), (.dotQuad4, .quad4), (.dotSeq, .seq)]

/-- An f16 pattern is finite (R10). -/
def FiniteHalf (h : Half) : Prop := ∃ neg units, f16Val h = .fin neg units

end Sys2Proof.Machine
end

