-- ==== Sys2Proof/Certificates/Slice0/Obligations.lean ====
section
/-! DEFINITION. The statements about the model, in the order of OBLIGATIONS.json. -/

open Sys2Proof Sys2Proof.Machine

/-! ## Encoding -/

/-- R106, R112: a word decodes to a command exactly when it is the command's word, so no bit of an encoding is dropped and
no command has a second word. -/
def Obligations.DecodeExactlyInvertsEncode : Prop :=
  ∀ (v : Word) (i : Instr), decode v = .ok i ↔ encode i = v

/-- R105: a word is legal exactly when one row of the table matches it, no two rows match one word, and the row that matches
is the one of the command decoded. -/
def Obligations.LegalWordsAreTheTableWords : Prop :=
  ∀ v : Word,
    ((∃ i, decode v = .ok i) ↔ ∃ r ∈ opcodeTable, v &&& r.mask = r.pattern) ∧
    (∀ r ∈ opcodeTable, ∀ r' ∈ opcodeTable, v &&& r.mask = r.pattern → v &&& r'.mask = r'.pattern → r = r') ∧
    (∀ i, decode v = .ok i → ∃ r ∈ opcodeTable, r.mnemonic = mnemonicOf i ∧ v &&& r.mask = r.pattern)

/-- R107: which words are ILLEGAL, and that such a word written to CMD of an idle device ends at once with ILLEGAL_CMD,
RESULT unchanged and nothing read; the only word that is a no-op is NOP's. -/
def Obligations.IllegalWordsEndAtOnce : Prop :=
  (∀ v : Word, (∃ e, decode v = .error e) ↔
    (6 ≤ (v.extractLsb' 0 4).toNat ∨ (v.extractLsb' 0 4 = 1 ∧ v.extractLsb' 4 2 = 3) ∨ v.extractLsb' 6 10 ≠ 0 ∨
      (v.extractLsb' 4 2 ≠ 0 ∧ v.extractLsb' 0 4 ≠ 1) ∨
      (v.extractLsb' 16 16 ≠ 0 ∧ v.extractLsb' 0 4 ≠ 3 ∧ v.extractLsb' 0 4 ≠ 4) ∨
      (v.extractLsb' 0 4 = 4 ∧ v.extractLsb' 24 8 ≠ 0))) ∧
  (∀ (v : Word) (e : Illegal) (s : State), decode v = .error e → s.busy = false →
    ∃ t, hostWrite 32 0x10 v s = .next t ∧ EndedInError 1 s t ∧ t.ign = s.ign ∧ OperandsKept s t ∧ SurroundingsKept s t) ∧
  (∀ v : Word, decode v = .ok .nop → v = 0)

/-- R108: the count of legal command words. -/
def Obligations.LegalWordCount : Prop := Nat.card { v : Word // legalWord v = true } = 6 + 2 ^ 16 + 2 ^ 8

/-- 95_test_vectors section 2.6: words written out from the encoding decode as listed there. -/
def Obligations.SampleWordsDecode : Prop :=
  decode 0x00000000 = .ok .nop ∧ decode 0x00000001 = .ok .dotPair2 ∧ decode 0x00000011 = .ok .dotQuad4 ∧
  decode 0x00000021 = .ok .dotSeq ∧ decode 0x00000002 = .ok .isum ∧ decode 0x3C000003 = .ok (.cvth 0x3C00) ∧
  decode 0x009F0004 = .ok (.nibd 0x9F) ∧ decode 0x00000005 = .ok .clr

/-- R110 to R112: the assembler and the disassembler agree; `dot` is the one second spelling. -/
def Obligations.AssemblerRoundTrip : Prop :=
  (∀ i : Instr, assemble (disassemble (encode i)) = some (encode i)) ∧
  (∀ (l : AsmLine) (v : Word), assemble l = some v → ∃ i, decode v = .ok i ∧ l.operand = operandOf i ∧
    (l.mnemonic = mnemonicOf i ∨ (l.mnemonic = "dot" ∧ i = .dotPair2))) ∧
  (∀ (v : Word) (e : Illegal), decode v = .error e → disassemble v = ⟨".word", some v.toNat⟩) ∧
  assemble ⟨"dot", none⟩ = some 0x00000001

/-! ## Arithmetic -/

/-- R163: the widening is exact for every pattern that is no NaN; one f16 unit is 2^125 f32 units. -/
def Obligations.WideningIsExact : Prop :=
  ∀ h : Half,
    (∀ neg units, f16Val h = .fin neg units → f32Val (f16ToF32 h) = .fin neg (units * 2 ^ 125)) ∧
    (∀ neg, f16Val h = .inf neg → f32Val (f16ToF32 h) = .inf neg)

/-- `round_rne32` of R13, for the real of magnitude `num * 2^-(149+k)`: infinity from `2^128 - 2^103` on; below it a nearest
finite value, the one with an even fraction where two are nearest. -/
def Obligations.RoundingIsNearestEven : Prop :=
  ∀ (neg : Bool) (num k : Nat), 0 < num →
    ((2 ^ 128 - 2 ^ 103) * 2 ^ (149 + k) ≤ num → roundRne32 neg num k = infinity neg) ∧
    (num < (2 ^ 128 - 2 ^ 103) * 2 ^ (149 + k) →
      ∃ units, f32Val (roundRne32 neg num k) = .fin neg units ∧
        ∀ (x : Word) (neg' : Bool) (other : Nat), f32Val x = .fin neg' other →
          |(num : Int) - units * 2 ^ k| ≤ |(num : Int) - other * 2 ^ k| ∧
          (other ≠ units → |(num : Int) - units * 2 ^ k| = |(num : Int) - other * 2 ^ k| →
            (roundRne32 neg num k).getLsbD 0 = false))

/-- R12: `i2f` is exact up to 2^24, gives `+0` for 0, and every integer partial sum is within its range. -/
def Obligations.IntegerToFloatIsExact : Prop :=
  (∀ i : Int, i.natAbs ≤ 2 ^ 24 → f32Val (i2f i) = .fin (decide (i < 0)) (i.natAbs * 2 ^ 149)) ∧
  i2f 0 = 0x00000000 ∧
  (∀ (B : Nat → Byte) (w a : Nat), (blockSum B w a).natAbs ≤ 32768)

/-- R13: the special cases of `fmul32` and `fadd32`, and the one rounding of the others. -/
def Obligations.FloatOperationCases : Prop :=
  (∀ a b : Word, f32Val a = .nan ∨ f32Val b = .nan → fmul32 a b = canonNan ∧ fadd32 a b = canonNan) ∧
  (∀ (a b : Word) (s t : Bool), f32Val a = .inf s → f32Val b = .inf t →
    fmul32 a b = infinity (s ^^ t) ∧ fadd32 a b = if s = t then a else canonNan) ∧
  (∀ (a b : Word) (s t : Bool) (y : Nat), f32Val a = .inf s → f32Val b = .fin t y →
    (fmul32 a b = if y = 0 then canonNan else infinity (s ^^ t)) ∧
    (fmul32 b a = if y = 0 then canonNan else infinity (t ^^ s)) ∧ fadd32 a b = a ∧ fadd32 b a = a) ∧
  (∀ (a b : Word) (s t : Bool) (x y : Nat), f32Val a = .fin s x → f32Val b = .fin t y →
    (x * y = 0 → fmul32 a b = signedZero (s ^^ t)) ∧
    (x * y ≠ 0 → fmul32 a b = roundRne32 (s ^^ t) (x * y) 149) ∧
    (signedUnits s x + signedUnits t y = 0 →
      fadd32 a b = if a = signedZero true ∧ b = signedZero true then signedZero true else signedZero false) ∧
    (signedUnits s x + signedUnits t y ≠ 0 →
      fadd32 a b = roundRne32 (decide (signedUnits s x + signedUnits t y < 0)) (signedUnits s x + signedUnits t y).natAbs 0))

/-- R160: the nibble pair of a byte, each half in `[-8, 7]`. -/
def Obligations.NibblePairDecoding : Prop :=
  ∀ b : Byte,
    decodeNibblePair b = (((b.toNat % 16 : Nat) : Int) - 8, ((b.toNat / 16 : Nat) : Int) - 8) ∧
    -8 ≤ (decodeNibblePair b).1 ∧ (decodeNibblePair b).1 ≤ 7 ∧ -8 ≤ (decodeNibblePair b).2 ∧ (decodeNibblePair b).2 ≤ 7

/-- R80, R75: a multi-byte read is little-endian, and the scale of a block is its two-byte read. -/
def Obligations.DeviceReadsAreLittleEndian : Prop :=
  (∀ (B : Nat → Byte) (a n : Nat), leBytes B a n = ∑ i ∈ Finset.range n, (B (a + i)).toNat * 2 ^ (8 * i)) ∧
  (∀ (B : Nat → Byte) (b : Nat), (blockScale B b).toNat = leBytes B b 2)

/-- R182: the low nibble of data byte `j` pairs with activation element `j`, the high one with element `j + 16`. -/
def Obligations.IntegerSumPairing : Prop :=
  ∀ (B : Nat → Byte) (w a : Nat),
    blockSum B w a = (∑ j ∈ Finset.range 16,
      ((((((B (w + 2 + j)).toNat % 16 : Nat) : Int) - 8) * (B (a + 2 + j)).toInt
        + ((((B (w + 2 + j)).toNat / 16 : Nat) : Int) - 8) * (B (a + 2 + (j + 16))).toInt))) ∧
    blockSum B w a = ∑ i ∈ Finset.range 32, weightElem B w i * activationElem B a i

/-- R183: the range of the products, of the of the sum and of every partial sum; 17 bits hold the sum; both ends of its range are
reached. -/
def Obligations.IntegerSumRange : Prop :=
  ∀ (B : Nat → Byte) (w a : Nat),
    (∀ i < 32, -1016 ≤ weightElem B w i * activationElem B a i ∧ weightElem B w i * activationElem B a i ≤ 1024) ∧
    -32512 ≤ blockSum B w a ∧ blockSum B w a ≤ 32768 ∧
    (∀ S ⊆ Finset.range 32, -32512 ≤ (∑ i ∈ S, weightElem B w i * activationElem B a i) ∧
      (∑ i ∈ S, weightElem B w i * activationElem B a i) ≤ 32768) ∧
    (BitVec.ofInt 17 (blockSum B w a)).toInt = blockSum B w a ∧
    f32Val (i2f (blockSum B w a)) = .fin (decide (blockSum B w a < 0)) ((blockSum B w a).natAbs * 2 ^ 149) ∧
    ((∀ j < 16, B (w + 2 + j) = 0x00) → (∀ i < 32, B (a + 2 + i) = 0x80) → blockSum B w a = 32768) ∧
    ((∀ j < 16, B (w + 2 + j) = 0x00) → (∀ i < 32, B (a + 2 + i) = 0x7F) → blockSum B w a = -32512)

/-- R188: with finite scales the scale product is exact and the contribution is rounded once, never overflows and is never
subnormal; with non-finite scales it is the listed NaN or infinity. -/
def Obligations.BlockContributionExactness : Prop :=
  ∀ (B : Nat → Byte) (w a : Nat),
    (∀ (s t : Bool) (x y : Nat), f16Val (blockScale B w) = .fin s x → f16Val (blockScale B a) = .fin t y →
      f32Val (scaleProduct B w a) = .fin (s ^^ t) (x * y * 2 ^ 101) ∧
      x * y ≤ (65504 * 2 ^ 24) ^ 2 ∧
      ((blockSum B w a).natAbs * (x * y) ≠ 0 →
        blockContribution B w a = roundRne32 (decide (blockSum B w a < 0) ^^ (s ^^ t)) ((blockSum B w a).natAbs * (x * y) * 2 ^ 101) 0) ∧
      ∃ u, f32Val (blockContribution B w a) = .fin (decide (blockSum B w a < 0) ^^ (s ^^ t)) u ∧
        u ≤ 32768 * 4290774016 * 2 ^ 149 ∧
        (u ≠ 0 → 2 ^ (149 - 48) ≤ u) ∧ (u = 0 ↔ blockSum B w a = 0 ∨ x = 0 ∨ y = 0)) ∧
    (f16Val (blockScale B w) = .nan ∨ f16Val (blockScale B a) = .nan → blockContribution B w a = canonNan) ∧
    (∀ s t, (f16Val (blockScale B w) = .inf s ∧ f16Val (blockScale B a) = .fin t 0) ∨
        (f16Val (blockScale B w) = .fin t 0 ∧ f16Val (blockScale B a) = .inf s) →
      scaleProduct B w a = canonNan ∧ blockContribution B w a = canonNan) ∧
    (∀ s t y, y ≠ 0 → blockSum B w a ≠ 0 → (f16Val (blockScale B w) = .inf s ∧ f16Val (blockScale B a) = .fin t y) ∨
        (f16Val (blockScale B w) = .fin t y ∧ f16Val (blockScale B a) = .inf s) →
      blockContribution B w a = infinity (decide (blockSum B w a < 0) ^^ (s ^^ t))) ∧
    (∀ s, blockSum B w a = 0 → f16Val (blockScale B w) = .inf s ∨ f16Val (blockScale B a) = .inf s →
      blockContribution B w a = canonNan)

/-! ## Reduction -/

/-- R209: `fadd32` gives `-0` only for two `-0`, so no running total becomes `-0`, and no DOT result is `-0`. -/
def Obligations.DotResultIsNeverNegativeZero : Prop :=
  (∀ a b : Word, fadd32 a b = 0x80000000 ↔ a = 0x80000000 ∧ b = 0x80000000) ∧
  (∀ (t : Word) (cs : List Word), t ≠ 0x80000000 → addSingles t cs ≠ 0x80000000 ∧ quadRemainder t cs ≠ 0x80000000) ∧
  (∀ (s0 s1 : Word) (cs : List Word), s0 ≠ 0x80000000 → s1 ≠ 0x80000000 →
    (pairLoop s0 s1 cs).1 ≠ 0x80000000 ∧ (pairLoop s0 s1 cs).2.1 ≠ 0x80000000) ∧
  (∀ (s0 s1 s2 s3 : Word) (cs : List Word), s0 ≠ 0x80000000 → s1 ≠ 0x80000000 → s2 ≠ 0x80000000 → s3 ≠ 0x80000000 →
    (quadLoop s0 s1 s2 s3 cs).1 ≠ 0x80000000) ∧
  (∀ (mode : Mode) (cs : List Word), reduceWith mode cs ≠ 0x80000000) ∧
  (∀ (mode : Mode) (nb : Nat) (B : Nat → Byte) (wb ab : Nat), dotResult mode nb B wb ab ≠ 0x80000000)

/-- R204 to R207: the order of each mode on any number of contributions, with the remainder pair of QUAD4 in two fresh totals
and a single block added last, and the contributions a DOT result reduces. R210: the three modes agree up to three blocks, with
the results listed there, and differ on its four contributions. -/
def Obligations.ModesAgreeUpToThreeBlocks : Prop :=
  (∀ (c : Nat → Word) (nb : Nat),
    reduceWith .seq ((List.range nb).map c) = strideTotal c 1 0 nb ∧
    (let T := fadd32 (strideTotal c 2 0 (nb / 2)) (strideTotal c 2 1 (nb / 2));
      reduceWith .pair2 ((List.range nb).map c) = if nb % 2 = 1 then fadd32 T (c (nb - 1)) else T) ∧
    (let g := nb / 4;
      let T := fadd32 (fadd32 (strideTotal c 4 0 g) (strideTotal c 4 1 g)) (fadd32 (strideTotal c 4 2 g) (strideTotal c 4 3 g));
      let U := if 2 ≤ nb % 4 then fadd32 T (fadd32 (fadd32 0 (c (4 * g))) (fadd32 0 (c (4 * g + 1)))) else T;
      reduceWith .quad4 ((List.range nb).map c) = if nb % 2 = 1 then fadd32 U (c (nb - 1)) else U)) ∧
  (∀ (mode : Mode) (nb : Nat) (B : Nat → Byte) (wb ab : Nat),
    dotResult mode nb B wb ab =
      reduceWith mode ((List.range nb).map fun k => blockContribution B (wb + 18 * k) (ab + 34 * k))) ∧
  (∀ x : Word, fadd32 0 x = if x = 0x80000000 then 0 else if f32Val x = .nan then canonNan else x) ∧
  (∀ (mode : Mode) (c0 c1 c2 : Word),
    reduceWith mode [c0] = fadd32 0 c0 ∧
    reduceWith mode [c0, c1] = fadd32 (fadd32 0 c0) (fadd32 0 c1) ∧
    reduceWith mode [c0, c1, c2] = fadd32 (fadd32 (fadd32 0 c0) (fadd32 0 c1)) c2) ∧
  reduceWith .pair2 [0x4B800000, 0x3F800000, 0x40400000, 0xCB800000] = 0x40A00000 ∧
  reduceWith .quad4 [0x4B800000, 0x3F800000, 0x40400000, 0xCB800000] = 0x40400000 ∧
  reduceWith .seq [0x4B800000, 0x3F800000, 0x40400000, 0xCB800000] = 0x40800000

/-- R212: when a DOT result is NaN, an infinity or finite; a finite one is far below overflow. -/
def Obligations.NonFiniteDotResults : Prop :=
  ∀ (mode : Mode) (nb : Nat) (B : Nat → Byte) (wb ab : Nat),
    ((∃ c ∈ contributions B wb ab nb, f32Val c = .nan) → dotResult mode nb B wb ab = canonNan) ∧
    ((∀ c ∈ contributions B wb ab nb, f32Val c ≠ .nan) →
      ((∃ c ∈ contributions B wb ab nb, f32Val c = .inf false) → (∃ c ∈ contributions B wb ab nb, f32Val c = .inf true) →
        dotResult mode nb B wb ab = canonNan) ∧
      (∀ neg, (∃ c ∈ contributions B wb ab nb, f32Val c = .inf neg) →
        (∀ c ∈ contributions B wb ab nb, f32Val c ≠ .inf (!neg)) → dotResult mode nb B wb ab = infinity neg) ∧
      ((∀ c ∈ contributions B wb ab nb, ∀ neg, f32Val c ≠ .inf neg) →
        ∃ neg u, f32Val (dotResult mode nb B wb ab) = .fin neg u ∧ u ≤ 2 ^ (75 + 149)))

/-- R213: zero weights or zero activations give exactly `+0` with finite scales, and `CANON_NAN` with a non-finite one. -/
def Obligations.ZeroInputsGiveZero : Prop :=
  ∀ (mode : Mode) (nb : Nat) (B : Nat → Byte) (wb ab : Nat),
    (∀ k < nb, ∀ j < 16, B (wb + 18 * k + 2 + j) = 0x88) ∨ (∀ k < nb, ∀ i < 32, B (ab + 34 * k + 2 + i) = 0x00) →
    ((∀ k < nb, FiniteHalf (blockScale B (wb + 18 * k)) ∧ FiniteHalf (blockScale B (ab + 34 * k))) →
      dotResult mode nb B wb ab = 0x00000000) ∧
    ((∃ k < nb, ¬ FiniteHalf (blockScale B (wb + 18 * k)) ∨ ¬ FiniteHalf (blockScale B (ab + 34 * k))) →
      dotResult mode nb B wb ab = canonNan)

/-- R214, for contributions that are multiples of one power of two with a sum of magnitudes of at most 24 bits: every mode
returns the exact sum. -/
def Obligations.ExactSumsAgreeInEveryMode : Prop :=
  ∀ (mode : Mode) (g : Nat) (cs : List Word) (is : List Int), g ≤ 252 → (is.map Int.natAbs).sum ≤ 2 ^ 24 →
    List.Forall₂ (fun c i => ∃ neg, f32Val c = .fin neg (i.natAbs * 2 ^ g) ∧ (i ≠ 0 → neg = decide (i < 0))) cs is →
    f32Val (reduceWith mode cs) = .fin (decide (is.sum < 0)) (is.sum.natAbs * 2 ^ g)

/-- R208, R78: a result is a function of the mode, the block count and the bytes of the two ranges only. -/
def Obligations.ResultsReadOnlyTheirRanges : Prop :=
  ∀ (B B' : Nat → Byte) (wb ab nb : Nat), (∀ a, InInputRanges wb ab nb a → B a = B' a) →
    (∀ mode, dotResult mode nb B wb ab = dotResult mode nb B' wb ab) ∧
    (0 < nb → isumResult B wb ab = isumResult B' wb ab)

/-! ## Commands -/

/-- R231, R230: NOP completes with RESULT unchanged and writes nothing but DONE, ERR and ERRCODE. -/
def Obligations.NopCompletes : Prop :=
  ∀ s : State, s.busy = false →
    ∃ t, exec .nop s = .next t ∧ CompletedWith s.result t ∧ t.ign = s.ign ∧ OperandsKept s t ∧ SurroundingsKept s t

/-- R232: CLR completes with RESULT = 0 and IGN = 0. -/
def Obligations.ClrCompletes : Prop :=
  ∀ s : State, s.busy = false →
    ∃ t, exec .clr s = .next t ∧ CompletedWith 0x00000000 t ∧ t.ign = false ∧ OperandsKept s t ∧ SurroundingsKept s t

/-- R162: CVTH completes with the widened pattern; a NaN keeps its sign and payload with the quiet bit forced. -/
def Obligations.CvthCompletes : Prop :=
  ∀ (h : Half) (s : State), s.busy = false →
    ∃ t, exec (.cvth h) s = .next t ∧ CompletedWith (f16ToF32 h) t ∧ t.ign = s.ign ∧ OperandsKept s t ∧
      SurroundingsKept s t ∧
      (f16Val h = .nan → t.result = h.extractLsb' 15 1 ++ 0xFF#8 ++ 1#1 ++ h.extractLsb' 0 9 ++ 0#13)

/-- R166, R165: NIBD completes with the low nibble's value in the low half of RESULT and the high nibble's in the high half;
adding the zero-point back recovers the nibbles. -/
def Obligations.NibdCompletes : Prop :=
  ∀ (b : Byte) (s : State), s.busy = false →
    ∃ t, exec (.nibd b) s = .next t ∧ CompletedWith t.result t ∧ t.ign = s.ign ∧ OperandsKept s t ∧
      SurroundingsKept s t ∧
      t.result.extractLsb' 0 16 = BitVec.ofInt 16 (decodeNibblePair b).1 ∧
      t.result.extractLsb' 16 16 = BitVec.ofInt 16 (decodeNibblePair b).2 ∧
      t.result.extractLsb' 0 16 + 8 = (b.extractLsb' 0 4).setWidth 16 ∧
      t.result.extractLsb' 16 16 + 8 = (b.extractLsb' 4 4).setWidth 16

/-- R189, R190, R140: ISUM starts the engine on the one block pair at WADDR and AADDR; N is not read. -/
def Obligations.IsumStartsTheEngine : Prop :=
  ∀ s : State, s.busy = false → RangesInSpace s 1 → NoSideEffectInput s 1 →
    ∃ t, exec .isum s = .next t ∧ StartedOn .isum 1 s t ∧ t.ign = s.ign ∧ OperandsKept s t ∧ SurroundingsKept s t

/-- R201, R202, R140: each DOT command starts the engine in its mode on `N / 32` block pairs. -/
def Obligations.DotStartsTheEngine : Prop :=
  ∀ (s : State) (nb : Nat), s.busy = false → LegalCount s nb → RangesInSpace s nb → NoSideEffectInput s nb →
    ∀ c ∈ dotCommands, ∃ t, exec c.1 s = .next t ∧ StartedOn .dot nb s t ∧ t.eng.mode = c.2 ∧ t.ign = s.ign ∧
      OperandsKept s t ∧ SurroundingsKept s t

/-- R245: DOT ends at acceptance with BAD_LENGTH when N is 0 or no multiple of 32, whatever the ranges (R248); ISUM never
does. -/
def Obligations.DotBadLength : Prop :=
  (∀ s : State, s.busy = false → (s.n.toNat = 0 ∨ s.n.toNat % 32 ≠ 0) →
    ∀ c ∈ dotCommands, ∃ t, exec c.1 s = .next t ∧ EndedInError 2 s t ∧ t.ign = s.ign ∧ OperandsKept s t ∧
      SurroundingsKept s t) ∧
  (∀ s t : State, s.busy = false → exec .isum s = .next t → t.errcode ≠ 2)

/-- R246: DOT and ISUM end at acceptance with RANGE when a range passes the end of the bus address space. -/
def Obligations.RangeError : Prop :=
  (∀ (s : State) (nb : Nat), s.busy = false → LegalCount s nb → ¬ RangesInSpace s nb →
    ∀ c ∈ dotCommands, ∃ t, exec c.1 s = .next t ∧ EndedInError 3 s t ∧ t.ign = s.ign ∧ OperandsKept s t ∧
      SurroundingsKept s t) ∧
  (∀ s : State, s.busy = false → ¬ RangesInSpace s 1 →
    ∃ t, exec .isum s = .next t ∧ EndedInError 3 s t ∧ t.ign = s.ign ∧ OperandsKept s t ∧ SurroundingsKept s t)

/-- R83, U8 (log 10): a DOT or ISUM over a location with read side effects is refused before it runs. -/
def Obligations.SideEffectInputsAreRefused : Prop :=
  (∀ (s : State) (nb : Nat), s.busy = false → LegalCount s nb → RangesInSpace s nb → ¬ NoSideEffectInput s nb →
    ∀ c ∈ dotCommands, exec c.1 s = .refused .readSideEffects) ∧
  (∀ s : State, s.busy = false → RangesInSpace s 1 → ¬ NoSideEffectInput s 1 →
    exec .isum s = .refused .readSideEffects)

/-- R134: a write to CMD, N, WADDR or AADDR while BUSY is 1 is ignored and sets IGN; nothing else changes. -/
def Obligations.WritesWhileBusyAreIgnored : Prop :=
  (∀ (s : State) (offset : Nat) (v : Word), s.busy = true → offset ∈ [0x10, 0x14, 0x18, 0x1C] →
    hostWrite 32 offset v s = .next { s with ign := true }) ∧
  (∀ (s : State) (i : Instr), s.busy = true → exec i s = .next { s with ign := true })

/-- R139: after a CMD write to an idle device, either BUSY is 0 and exactly one of DONE and ERR is 1, or the word is a DOT or
ISUM and the engine has started. -/
def Obligations.CommandOutcomeWithinTheWrite : Prop :=
  ∀ (s t : State) (v : Word), s.busy = false → hostWrite 32 0x10 v s = .next t →
    (t.busy = false ∧ t.done = !t.err) ∨
    (t.busy = true ∧ t.done = false ∧ t.err = false ∧
      ∃ i, decode v = .ok i ∧ i ∈ [Instr.dotPair2, .dotQuad4, .dotSeq, .isum])

/-- R231, R134, R47, R233: what a command leaves alone, in every form and every state. -/
def Obligations.CommandFrame : Prop :=
  ∀ (i : Instr) (s t : State), exec i s = .next t →
    OperandsKept s t ∧ SurroundingsKept s t ∧
    (i ∈ [Instr.nop, .dotPair2, .dotQuad4, .dotSeq, .isum] → t.result = s.result) ∧
    (i ≠ .clr → s.busy = false → t.ign = s.ign) ∧
    (s.busy = true ∨ t.busy = false →
      t.eng.mode = s.eng.mode ∧ t.eng.nb = s.eng.nb ∧ t.eng.wbase = s.eng.wbase ∧ t.eng.abase = s.eng.abase)

/-! ## The register window -/

/-- R131: what `rd` returns at every offset; it changes nothing but what the host has read. -/
def Obligations.RegisterReads : Prop :=
  ∀ (s : State) (offset : Nat), offset % 4 = 0 → offset ≤ 0x3C →
    ∃ w, hostRead 32 offset s = .next { s with readData := some w } ∧
      (offset = 0x00 → w = 0x51445041) ∧
      (offset = 0x04 → w = 0x00010000) ∧
      (offset = 0x08 → w = if s.ie then 1 else 0) ∧
      (offset = 0x0C → w.getLsbD 0 = s.busy ∧ w.getLsbD 1 = s.done ∧ w.getLsbD 2 = s.err ∧ w.getLsbD 3 = s.ign ∧
        w.extractLsb' 4 4 = 0 ∧ w.extractLsb' 8 4 = s.errcode ∧ w.extractLsb' 12 20 = 0) ∧
      (offset = 0x10 → w = 0) ∧
      (offset = 0x14 → w = s.n) ∧
      (offset = 0x18 → w = s.waddr) ∧
      (offset = 0x1C → w = s.aaddr) ∧
      (offset = 0x20 → w = s.result) ∧
      (0x24 ≤ offset → w = 0)

/-- R133: a write of N, WADDR or AADDR while BUSY is 0 stores the whole value with no check, and it reads back. -/
def Obligations.OperandWritesStoreUnchecked : Prop :=
  ∀ (s : State) (v : Word), s.busy = false →
    (hostWrite 32 0x14 v s = .next { s with n := v } ∧ readReg 0x14 { s with n := v } = v) ∧
    (hostWrite 32 0x18 v s = .next { s with waddr := v } ∧ readReg 0x18 { s with waddr := v } = v) ∧
    (hostWrite 32 0x1C v s = .next { s with aaddr := v } ∧ readReg 0x1C { s with aaddr := v } = v)

/-- R37: what a write of STATUS does, busy or not. -/
def Obligations.StatusWriteOneToClear : Prop :=
  ∀ (s : State) (v : Word), ∃ t, hostWrite 32 0x0C v s = .next t ∧
    t = { s with done := t.done, err := t.err, errcode := t.errcode, ign := t.ign } ∧
    (v.getLsbD 1 = true → t.done = false) ∧ (v.getLsbD 1 = false → t.done = s.done) ∧
    (v.getLsbD 2 = true → t.err = false ∧ t.errcode = 0) ∧ (v.getLsbD 2 = false → t.err = s.err ∧ t.errcode = s.errcode) ∧
    (v.getLsbD 3 = true → t.ign = false) ∧ (v.getLsbD 3 = false → t.ign = s.ign)

/-- R36: a write of CTRL stores bit 0 as IE, busy or not, IGN as it was, and reads back with the reserved bits 0; IE gates
the interrupt output and is 0 at reset. -/
def Obligations.CtrlWriteStoresIe : Prop :=
  (∀ (s : State) (v : Word), hostWrite 32 0x08 v s = .next { s with ie := v.getLsbD 0 } ∧
    readReg 0x08 { s with ie := v.getLsbD 0 } = v &&& 1) ∧
  (∀ s : State, irq s = (s.ie && (s.done || s.err))) ∧ State.reset.ie = false

/-- R48, R34, R35, R47: writes to the reserved and the read-only offsets are ignored, IGN included; reserved offsets read 0. -/
def Obligations.ReadOnlyOffsetsIgnoreWrites : Prop :=
  (∀ (s : State) (offset : Nat) (v : Word), offset % 4 = 0 → offset ≤ 0x3C →
    (offset = 0x00 ∨ offset = 0x04 ∨ 0x20 ≤ offset) → hostWrite 32 offset v s = .next s) ∧
  (∀ (s : State) (offset : Nat), 0x24 ≤ offset → offset ≤ 0x3C → readReg offset s = 0)

/-- R130: exactly the aligned 32-bit accesses at 0x00 to 0x3C are admitted; any other is a fault of the host's step. -/
def Obligations.UnadmittedAccessesFault : Prop :=
  ∀ (s : State) (bits offset : Nat) (v : Word),
    (hostRead bits offset s = .fault .hostBusError ↔ ¬ (bits = 32 ∧ offset % 4 = 0 ∧ offset ≤ 0x3C)) ∧
    (hostWrite bits offset v s = .fault .hostBusError ↔ ¬ (bits = 32 ∧ offset % 4 = 0 ∧ offset ≤ 0x3C))

/-- R49, R250: the interrupt output and what raises, masks and clears it; IGN does not drive it. -/
def Obligations.InterruptOutput : Prop :=
  irq State.reset = false ∧
  ∀ s : State,
    (irq s = true ↔ s.ie = true ∧ (s.done = true ∨ s.err = true)) ∧
    (∀ v : Word, v.getLsbD 1 = true → v.getLsbD 2 = true → irq (writeStatus v s) = false) ∧
    (∀ v : Word, v.getLsbD 0 = false → irq (writeCtrl v s) = false ∧ (writeCtrl v s).done = s.done ∧ (writeCtrl v s).err = s.err) ∧
    irq (clearOutcome s) = false ∧ irq (resetDevice s) = false ∧ irq (setIgnored s) = irq s ∧
    (∀ line, hostLine s line = true ↔ line = s.platform.irqLine ∧ irq s = true)

/-! ## The engine -/

/-- R141, R86: an engine read step takes the pending byte its pick names and records the candidate its draw names, or records
the bus error; a pick names every pending byte and a draw every candidate of it. -/
def Obligations.EngineReadsOnePendingByte : Prop :=
  ∀ s : State, s.busy = true → s.eng.berr = false → s.eng.pending ≠ [] →
    (∀ pick draw : Nat,
      let a := pickedAddress s.eng pick
      let v := deviceByte s a draw
      a ∈ s.eng.pending ∧ v ∈ readCandidates s a ∧ ∃ t, engineStep pick draw s = .next t ∧
        (memAdmit s.platform a = true →
          t = { s with eng := { s.eng with bytes := t.eng.bytes, pending := s.eng.pending.erase a } } ∧
          ∀ b, lookupCell b t.eng.bytes = if b = a then some v else lookupCell b s.eng.bytes) ∧
        (memAdmit s.platform a = false → t = { s with eng := { s.eng with berr := true } })) ∧
    (∀ a ∈ s.eng.pending, ∀ v ∈ readCandidates s a, ∃ pick draw, pickedAddress s.eng pick = a ∧ deviceByte s a draw = v)

/-- R142, R145, R244: the completion step ends the command, with BUS_ERROR after a failed read, otherwise with the result of
the bytes read. -/
def Obligations.EngineCompletionEndsTheCommand : Prop :=
  ∀ (s : State) (pick draw : Nat), StatusInv s → s.busy = true →
    (s.eng.berr = true → ∃ t, engineStep pick draw s = .next t ∧ EndedInError 4 s t ∧ t.ign = s.ign ∧
      OperandsKept s t ∧ SurroundingsKept s t) ∧
    (s.eng.berr = false → s.eng.pending = [] → s.eng.op = .isum → ∃ t, engineStep pick draw s = .next t ∧
      CompletedWith (tc32 (blockSum (engineByte s.eng) s.eng.wbase.toNat s.eng.abase.toNat)) t ∧ t.ign = s.ign ∧
      OperandsKept s t ∧ SurroundingsKept s t) ∧
    (s.eng.berr = false → s.eng.pending = [] → s.eng.op = .dot → ∃ t, engineStep pick draw s = .next t ∧
      CompletedWith (dotResult s.eng.mode s.eng.nb.toNat (engineByte s.eng) s.eng.wbase.toNat s.eng.abase.toNat) t ∧
      t.ign = s.ign ∧ OperandsKept s t ∧ SurroundingsKept s t)

/-- R258, R271: while BUSY is 0 the engine takes no step. That an engine event is then a step that changes nothing, and that a
step with no event to come changes nothing, is the model's choice, log 1. -/
def Obligations.IdleEngineTakesNoStep : Prop :=
  ∀ s : State, s.busy = false →
    (∀ pick draw, engineStep pick draw s = .next s) ∧ (s.inputs = [] → step s = .next s)

/-- R86, R85, R280, U5, U18: a device read may return exactly the values the byte has held since the CMD write, and where the
platform is not coherent every value stored to a byte not cleaned; what a host store and a host clean do to memory and to these
values. The lists that carry them are the model's (logs 8 and 9). -/
def Obligations.RacingReadsReturnHeldValues : Prop :=
  (∀ (s : State) (a : Nat), (∀ draw, deviceByte s a draw ∈ readCandidates s a) ∧
    (∀ x ∈ readCandidates s a, ∃ draw, deviceByte s a draw = x)) ∧
  (∀ (s : State) (op : EngOp) (mode : Mode) (nb : Word) (a : Nat), a ∉ s.uncleaned →
    readCandidates (startEngine op mode nb s) a = [memRead s.mem a]) ∧
  (∀ (s : State) (a b : Nat) (v x : Byte), s.platform.coherent = true → s.busy = true → Memory.rising s.mem →
    (x ∈ readCandidates (storeByte s a v) b ↔ (b = a ∧ x = v) ∨ x ∈ readCandidates s b)) ∧
  (∀ (s : State) (a b : Nat) (v x : Byte), s.platform.coherent = false →
    (x ∈ readCandidates (storeByte s a v) b ↔
      x ∈ readCandidates s b ∨ (b = a ∧ (x = v ∨ x ∈ valuesAt a s.hostStores)))) ∧
  (∀ (s : State) (a b : Nat) (v : Byte), s.platform.coherent = true → s.busy = false → Memory.rising s.mem →
    readCandidates (storeByte s a v) b = if b = a then v :: (readCandidates s a).tail else readCandidates s b) ∧
  (∀ (s : State) (a : Nat) (v : Byte), inWindow s.platform a = false → Memory.rising s.mem →
    let t := storeByte s a v
    hostStore a v s = .next t ∧
      t = { s with mem := t.mem, stale := t.stale, hostStores := t.hostStores, uncleaned := t.uncleaned } ∧
      ∀ b, memRead t.mem b = if b = a ∧ s.platform.coherent = true then v else memRead s.mem b) ∧
  (∀ (s : State) (a : Nat), a ∉ s.uncleaned → cleanByte s a = s) ∧
  (∀ (s : State) (a : Nat) (v : Byte) (olds : List Byte), a ∈ s.uncleaned → valuesAt a s.hostStores = v :: olds →
    Memory.rising s.mem →
    let t := cleanByte s a
    t = { s with mem := t.mem, stale := t.stale, uncleaned := t.uncleaned } ∧
    (∀ b, memRead t.mem b = if b = a then v else memRead s.mem b) ∧
    (∀ b, b ∈ t.uncleaned ↔ b ≠ a ∧ b ∈ s.uncleaned) ∧
    (∀ b, b ≠ a → readCandidates t b = readCandidates s b) ∧
    (s.busy = false → readCandidates t a = v :: valuesAt a s.stale) ∧
    (s.busy = true → ∀ x, x ∈ readCandidates t a ↔ x ∈ readCandidates s a))

/-! ## Reset and the step -/

/-- R270, R272: the reset event, at any point; memory is left alone. That the platform, the host's stores and marks, what the
host has read and the events to come are left alone too is the model's reading, log 20. -/
def Obligations.ResetEvent : Prop :=
  ∀ s : State, ∃ t, runEvent .reset s = .next t ∧
    t.ie = false ∧ t.busy = false ∧ t.done = false ∧ t.err = false ∧ t.ign = false ∧ t.errcode = 0 ∧
    t.n = 0 ∧ t.waddr = 0 ∧ t.aaddr = 0 ∧ t.result = 0 ∧ EngineAtRest t.eng ∧ irq t = false ∧
    readReg 0x00 t = 0x51445041 ∧ readReg 0x04 t = 0x00010000 ∧ SurroundingsKept s t

/-- R53, R33: the reset state holds the values the spec gives. -/
def Obligations.ResetStateValues : Prop :=
  State.reset.ie = false ∧ statusWord State.reset = 0 ∧ State.reset.n = 0 ∧ State.reset.waddr = 0 ∧
  State.reset.aaddr = 0 ∧ State.reset.result = 0x00000000 ∧ readReg 0x00 State.reset = 0x51445041 ∧
  readReg 0x04 State.reset = 0x00010000 ∧ readReg 0x10 State.reset = 0 ∧ EngineAtRest State.reset.eng ∧
  irq State.reset = false

/-- R15, R43, R89, R138, R249: a step takes the first event off `inputs` and does what that event is: a host write of a legal
word to CMD is `exec` of the command it decodes to, one of an ILLEGAL word ends in ILLEGAL_CMD or is ignored, and every other
event is its own operation; with no event left the engine goes on alone. `withFetchWord` makes a command's word the first event.
The list of events and the step without one are the model's (logs 1 and 3), and so are the host clean (log 9) and the free
choices (log 2). -/
def Obligations.StepRunsTheDecodedCommand : Prop :=
  (∀ (s : State) (v : Word) (rest : List Event) (i : Instr), s.inputs = .hostWrite 32 0x10 v :: rest →
    decode v = .ok i → step s = exec i { s with inputs := rest }) ∧
  (∀ (s : State) (v : Word) (rest : List Event) (e : Illegal), s.inputs = .hostWrite 32 0x10 v :: rest → decode v = .error e →
    step s = .next (if s.busy then { s with inputs := rest, ign := true }
      else raiseError .illegalCmd (clearOutcome { s with inputs := rest }))) ∧
  (∀ (s : State) (rest : List Event),
    let r := { s with inputs := rest }
    (∀ bits offset, s.inputs = .hostRead bits offset :: rest → step s = hostRead bits offset r) ∧
    (∀ bits offset v, s.inputs = .hostWrite bits offset v :: rest → step s = hostWrite bits offset v r) ∧
    (∀ a v, s.inputs = .hostStore a v :: rest → step s = hostStore a.toNat v r) ∧
    (∀ a, s.inputs = .hostClean a :: rest → step s = .next (cleanByte r a.toNat)) ∧
    (∀ pick draw, s.inputs = .engine pick draw :: rest → step s = engineStep pick draw r) ∧
    (s.inputs = .reset :: rest → step s = runEvent .reset r)) ∧
  (∀ s : State, s.inputs = [] →
    (s.busy = true →
      step s = engineStep (Config.readPick s.draws) (Config.readDraw s.draws) { s with draws := s.draws + 1 }) ∧
    (s.busy = false → step s = .next s)) ∧
  (∀ (s : State) (i : Instr), step (s.withFetchWord 32 (encode i).toNat) = exec i s)

/-! ## Invariants -/

/-- R39, R42, R139: the status fields keep agreeing with each other at every step. -/
def Obligations.StatusInvariantIsKept : Prop :=
  ∀ s t : State, StatusInv s → step s = .next t → StatusInv t

/-- R50: the engine's state keeps being that of the command in progress at every step. -/
def Obligations.EngineInvariantIsKept : Prop :=
  ∀ s t : State, EngineInv s → step s = .next t → EngineInv t

/-- The memory keeps its canonical form at every step (the model's own representation, log 6). -/
def Obligations.MemoryFormIsKept : Prop :=
  ∀ s t : State, MemoryInv s → step s = .next t → MemoryInv t

/-- The reset state meets the three invariants. -/
def Obligations.ResetMeetsTheInvariants : Prop := RunInv State.reset

/-- R50: an engine with a command never meets the completion step that R142 gives no case for. -/
def Obligations.EngineNeverLacksItsCommand : Prop :=
  ∀ s : State, EngineInv s → step s ≠ .fault .engineNoCommand

/-! ## Whole-machine rules -/

/-- R81, R70: no step but a host store or a host clean changes a byte of the bus address space. That no step changes the
platform is the model's choice, log 5. -/
def Obligations.DeviceNeverWritesMemory : Prop :=
  ∀ s t : State, step s = .next t →
    t.platform = s.platform ∧
    ((∀ a v rest, s.inputs ≠ .hostStore a v :: rest) → (∀ a rest, s.inputs ≠ .hostClean a :: rest) →
      ∀ a, memRead t.mem a = memRead s.mem a)

/-- R38: BUSY is set only by the acceptance of a DOT or ISUM and cleared only by the engine's completion or by reset. -/
def Obligations.BusyChangesOnlyAtStartAndEnd : Prop :=
  ∀ s t : State, step s = .next t →
    (s.busy = false → t.busy = true → ∃ v rest i, s.inputs = .hostWrite 32 0x10 v :: rest ∧ decode v = .ok i ∧
      i ∈ [Instr.dotPair2, .dotQuad4, .dotSeq, .isum]) ∧
    (s.busy = true → t.busy = false → (∃ rest, s.inputs = .reset :: rest) ∨
      ((s.inputs = [] ∨ ∃ pick draw rest, s.inputs = .engine pick draw :: rest) ∧
        (s.eng.berr = true ∨ s.eng.pending = []) ∧ (t.done = true ∨ t.err = true)))

/-- R233, R41: IGN is cleared by a W1C of STATUS bit 3, by CLR and by reset, and by nothing else; CLR's is the only command
word that does. -/
def Obligations.IgnIsSticky : Prop :=
  (∀ s t : State, step s = .next t → s.ign = true → t.ign = false →
    (∃ v rest, s.inputs = .hostWrite 32 0x0C v :: rest ∧ v.getLsbD 3 = true) ∨
    (∃ rest, s.inputs = .hostWrite 32 0x10 0x00000005 :: rest ∧ s.busy = false) ∨
    (∃ rest, s.inputs = .reset :: rest)) ∧
  (∀ (s : State) (v : Word), v.getLsbD 3 = true → (writeStatus v s).ign = false) ∧
  (∀ s : State, s.busy = false → ∃ t, hostWrite 32 0x10 0x00000005 s = .next t ∧ t.ign = false) ∧
  (∀ s : State, (resetDevice s).ign = false)

/-- R47: RESULT changes only when a command completes without error, and at reset. -/
def Obligations.ResultChangesOnlyAtCompletion : Prop :=
  ∀ s t : State, step s = .next t → t.result ≠ s.result →
    (∃ rest, s.inputs = .reset :: rest) ∨
    (s.busy = false ∧ t.busy = false ∧ t.done = true ∧
      ∃ v rest i, s.inputs = .hostWrite 32 0x10 v :: rest ∧ decode v = .ok i ∧
        i ∉ [Instr.nop, .dotPair2, .dotQuad4, .dotSeq, .isum]) ∨
    ((s.inputs = [] ∨ ∃ pick draw rest, s.inputs = .engine pick draw :: rest) ∧
      s.busy = true ∧ t.busy = false ∧ t.done = true ∧ s.eng.berr = false ∧ s.eng.pending = [])

/-! ## Whole commands -/

/-- R143: while only the engine acts, every command in progress ends with exactly one of DONE and ERR. The bound, one step a
pending byte and one more, follows from R141 and R142; R143 gives none. That the engine goes on with no event left is the
model's choice, log 1. -/
def Obligations.EveryCommandEnds : Prop :=
  ∀ s : State, RunInv s → s.busy = true → OnlyEngineTurns s →
    ∀ k, s.eng.pending.length < k → ∃ t, Host.Core.run Sys2Proof.core k s = .next t ∧
      t.busy = false ∧ t.done = (!t.err)

/-- R201 to R208, R85: a DOT over admitted memory that no host store races ends with RESULT the reduction, in its mode, of the
contributions of the bytes in memory, whatever order the engine reads them in. No host access happens during the run; that the
engine goes on with no event left is the model's choice, log 1. -/
def Obligations.DotComputesTheReduction : Prop :=
  ∀ (s : State) (nb : Nat), s.busy = false → LegalCount s nb → RangesInSpace s nb → NoSideEffectInput s nb →
    InputAdmitted s nb → StoresVisible s nb → OnlyEngineTurns s →
    ∀ c ∈ dotCommands, ∃ t, exec c.1 s = .next t ∧
      ∀ k, t.eng.pending.length < k → ∃ u, Host.Core.run Sys2Proof.core k t = .next u ∧
        CompletedWith (dotResult c.2 nb (memRead s.mem) s.waddr.toNat s.aaddr.toNat) u ∧ u.ign = s.ign ∧
        OperandsKept s u ∧ ∀ a, memRead u.mem a = memRead s.mem a

/-- R189 to R191, R85: the same of ISUM, with RESULT the integer partial sum (log 1 for the run, as there). -/
def Obligations.IsumComputesTheSum : Prop :=
  ∀ s : State, s.busy = false → RangesInSpace s 1 → NoSideEffectInput s 1 → InputAdmitted s 1 → StoresVisible s 1 →
    OnlyEngineTurns s →
    ∃ t, exec .isum s = .next t ∧
      ∀ k, t.eng.pending.length < k → ∃ u, Host.Core.run Sys2Proof.core k t = .next u ∧
        CompletedWith (tc32 (blockSum (memRead s.mem) s.waddr.toNat s.aaddr.toNat)) u ∧ u.ign = s.ign ∧
        OperandsKept s u ∧ ∀ a, memRead u.mem a = memRead s.mem a

/-- R244, R82: a DOT or ISUM with an input byte the platform does not admit ends with BUS_ERROR and RESULT unchanged, whatever
order the engine reads in (log 1 for the run, as there). -/
def Obligations.UnadmittedInputEndsInBusError : Prop :=
  (∀ (s : State) (nb : Nat), s.busy = false → LegalCount s nb → RangesInSpace s nb → NoSideEffectInput s nb →
    ¬ InputAdmitted s nb → OnlyEngineTurns s →
    ∀ c ∈ dotCommands, ∃ t, exec c.1 s = .next t ∧
      ∀ k, t.eng.pending.length < k → ∃ u, Host.Core.run Sys2Proof.core k t = .next u ∧ EndedInError 4 s u ∧
        u.ign = s.ign ∧ OperandsKept s u ∧ ∀ a, memRead u.mem a = memRead s.mem a) ∧
  (∀ s : State, s.busy = false → RangesInSpace s 1 → NoSideEffectInput s 1 → ¬ InputAdmitted s 1 → OnlyEngineTurns s →
    ∃ t, exec .isum s = .next t ∧
      ∀ k, t.eng.pending.length < k → ∃ u, Host.Core.run Sys2Proof.core k t = .next u ∧ EndedInError 4 s u ∧
        u.ign = s.ign ∧ OperandsKept s u ∧ ∀ a, memRead u.mem a = memRead s.mem a)
end

