-- ==== Sys2Proof/Laws/Memory.lean ====
section
/-! SUPPORT. The maps from addresses to bytes: read after write, other addresses untouched, and the canonical form kept. -/

namespace Sys2Proof.Machine

@[simp] theorem lookupCell_nil (a : Nat) : lookupCell a [] = none := rfl

@[simp] theorem memRead_nil (a : Nat) : memRead [] a = blankByte := rfl

theorem rising_nil : Memory.rising [] := by simp [Memory.rising]

theorem rising_cons (b : Nat) (w : Byte) (m : Memory) :
    Memory.rising ((b, w) :: m) ↔ (∀ c ∈ m, b < c.1) ∧ Memory.rising m := by
  simp only [Memory.rising, List.map_cons, List.pairwise_cons, List.mem_map, forall_exists_index, and_imp,
    forall_apply_eq_imp_iff₂]

theorem lookupCell_none_of_lt (a : Nat) (m : Memory) (h : ∀ c ∈ m, a < c.1) : lookupCell a m = none := by
  induction m with
  | nil => rfl
  | cons c m ih =>
    obtain ⟨b, w⟩ := c
    have hb : a < b := h (b, w) (by simp)
    simp only [lookupCell, if_neg (show ¬ b = a by omega)]
    exact ih fun c hc => h c (by simp [hc])

theorem lookupCell_insertCell (a b : Nat) (v : Byte) (m : Memory) :
    lookupCell b (insertCell a v m) = if b = a then some v else lookupCell b m := by
  induction m with
  | nil => simp [insertCell, lookupCell, eq_comm]
  | cons c m ih =>
    obtain ⟨k, w⟩ := c
    simp only [insertCell]
    split
    · simp [lookupCell, eq_comm]
    · split
      · subst_vars
        simp only [lookupCell]
        by_cases hb : b = k
        · simp [hb]
        · simp [hb, Ne.symm hb]
      · simp only [lookupCell, ih]
        by_cases hk : k = b
        · subst hk
          simp [Ne.symm ‹¬ a = k›]
        · simp [hk]

theorem lookupCell_eraseCell (a b : Nat) (m : Memory) (h : Memory.rising m) :
    lookupCell b (eraseCell a m) = if b = a then none else lookupCell b m := by
  induction m with
  | nil => simp [eraseCell]
  | cons c m ih =>
    obtain ⟨k, w⟩ := c
    obtain ⟨hlt, hm⟩ := (rising_cons k w m).1 h
    simp only [eraseCell]
    split
    · subst_vars
      by_cases hb : b = k
      · subst hb
        simp [lookupCell_none_of_lt b m hlt]
      · simp [lookupCell, hb, Ne.symm hb]
    · simp only [lookupCell, ih hm]
      by_cases hk : k = b
      · subst hk
        simp [‹¬ k = a›]
      · simp [hk]

theorem mem_insertCell {a : Nat} {v : Byte} {m : Memory} {c : Host.Cell} (h : c ∈ insertCell a v m) :
    c = (a, v) ∨ c ∈ m := by
  induction m with
  | nil => simpa [insertCell] using h
  | cons d m ih =>
    obtain ⟨k, w⟩ := d
    simp only [insertCell] at h
    split at h
    · simpa using h
    · split at h
      · rcases List.mem_cons.1 h with h | h
        · exact .inl h
        · exact .inr (by simp [h])
      · rcases List.mem_cons.1 h with h | h
        · exact .inr (by simp [h])
        · exact (ih h).imp id fun h => by simp [h]

theorem mem_eraseCell {a : Nat} {m : Memory} {c : Host.Cell} (h : c ∈ eraseCell a m) : c ∈ m := by
  induction m with
  | nil => simp [eraseCell] at h
  | cons d m ih =>
    obtain ⟨k, w⟩ := d
    simp only [eraseCell] at h
    split at h
    · simp [h]
    · rcases List.mem_cons.1 h with h | h
      · simp [h]
      · simp [ih h]

theorem insertCell_rising (a : Nat) (v : Byte) (m : Memory) (h : Memory.rising m) : Memory.rising (insertCell a v m) := by
  induction m with
  | nil => simp [insertCell, Memory.rising]
  | cons c m ih =>
    obtain ⟨k, w⟩ := c
    obtain ⟨hlt, hm⟩ := (rising_cons k w m).1 h
    simp only [insertCell]
    split
    · refine (rising_cons _ _ _).2 ⟨?_, h⟩
      rintro c hc
      rcases List.mem_cons.1 hc with rfl | hc
      · assumption
      · have := hlt c hc; omega
    · split
      · subst_vars
        exact (rising_cons _ _ _).2 ⟨hlt, hm⟩
      · refine (rising_cons _ _ _).2 ⟨?_, ih hm⟩
        intro c hc
        rcases mem_insertCell hc with rfl | hc
        · simp only; omega
        · exact hlt c hc

theorem eraseCell_rising (a : Nat) (m : Memory) (h : Memory.rising m) : Memory.rising (eraseCell a m) := by
  induction m with
  | nil => simpa [eraseCell] using h
  | cons c m ih =>
    obtain ⟨k, w⟩ := c
    obtain ⟨hlt, hm⟩ := (rising_cons k w m).1 h
    simp only [eraseCell]
    split
    · exact hm
    · exact (rising_cons _ _ _).2 ⟨fun c hc => hlt c (mem_eraseCell hc), ih hm⟩

theorem eraseCell_gone (a : Nat) (m : Memory) (h : Memory.rising m) : ∀ c ∈ eraseCell a m, c.1 ≠ a := by
  induction m with
  | nil => simp [eraseCell]
  | cons c m ih =>
    obtain ⟨k, w⟩ := c
    obtain ⟨hlt, hm⟩ := (rising_cons k w m).1 h
    simp only [eraseCell]
    split
    · subst_vars
      intro c hc
      have := hlt c hc; omega
    · rintro c hc
      rcases List.mem_cons.1 hc with rfl | hc
      · assumption
      · exact ih hm c hc

/-! ## The values a list of cells holds -/

@[simp] theorem valuesAt_nil (a : Nat) : valuesAt a [] = [] := rfl

theorem valuesAt_cons (a b : Nat) (v : Byte) (cells : List Host.Cell) :
    valuesAt b ((a, v) :: cells) = if b = a then v :: valuesAt b cells else valuesAt b cells := by
  simp only [valuesAt, List.filter_cons]
  by_cases h : b = a
  · simp [h]
  · simp [h, Ne.symm h]

@[simp] theorem valuesAt_append (a : Nat) (cells others : List Host.Cell) :
    valuesAt a (cells ++ others) = valuesAt a cells ++ valuesAt a others := by simp [valuesAt]

/-- Cells that all stand at `a` hold their values there and none elsewhere. -/
theorem valuesAt_map (a b : Nat) (vs : List Byte) : valuesAt b (vs.map fun v => (a, v)) = if b = a then vs else [] := by
  induction vs with
  | nil => simp
  | cons v vs ih =>
    rw [List.map_cons, valuesAt_cons, ih]
    split <;> rfl

/-! ## The bus address space -/

/-- Read after write, at the address written and at every other one. -/
theorem memRead_memWrite (m : Memory) (h : Memory.rising m) (a b : Nat) (v : Byte) :
    memRead (memWrite m a v) b = if b = a then v else memRead m b := by
  unfold memRead memWrite
  split
  · rw [lookupCell_eraseCell a b m h]
    split <;> simp [*]
  · rw [lookupCell_insertCell]
    split <;> simp

/-- A write keeps the canonical form. -/
theorem memWrite_wf (m : Memory) (h : Memory.wf m) (a : Nat) (ha : a < 2 ^ 32) (v : Byte) : Memory.wf (memWrite m a v) := by
  unfold memWrite
  split
  · exact ⟨eraseCell_rising a m h.1, fun c hc => h.2 c (mem_eraseCell hc)⟩
  · refine ⟨insertCell_rising a v m h.1, fun c hc => ?_⟩
    rcases mem_insertCell hc with rfl | hc
    · exact ⟨‹_›, ha⟩
    · exact h.2 c hc

theorem reset_memory_wf : Memory.wf State.reset.mem := by decide

theorem replaceByte_memory_wf (s : State) (a : Nat) (ha : a < 2 ^ 32) (v : Byte) (h : Memory.wf s.mem) :
    Memory.wf (replaceByte s a v).mem := memWrite_wf s.mem h a ha v

theorem storeByte_memory_wf (s : State) (a : Nat) (ha : a < 2 ^ 32) (v : Byte) (h : Memory.wf s.mem) :
    Memory.wf (storeByte s a v).mem := by
  unfold storeByte
  split
  · exact replaceByte_memory_wf s a ha v h
  · exact h

theorem cleanByte_memory_wf (s : State) (a : Nat) (ha : a < 2 ^ 32) (h : Memory.wf s.mem) :
    Memory.wf (cleanByte s a).mem := by
  unfold cleanByte
  split
  · split
    · exact h
    · exact replaceByte_memory_wf s a ha _ h
  · exact h

end Sys2Proof.Machine
end

