-- ==== Sys2Proof/Laws/State.lean ====
section
/-! SUPPORT. One lemma per field per update of State, and per field of the engine's updates; all true by rfl. -/

namespace Sys2Proof.Machine

/-! ## clearOutcome -/

@[simp] theorem clearOutcome_ie (s : State) : (clearOutcome s).ie = s.ie := rfl
@[simp] theorem clearOutcome_busy (s : State) : (clearOutcome s).busy = s.busy := rfl
@[simp] theorem clearOutcome_done (s : State) : (clearOutcome s).done = false := rfl
@[simp] theorem clearOutcome_err (s : State) : (clearOutcome s).err = false := rfl
@[simp] theorem clearOutcome_ign (s : State) : (clearOutcome s).ign = s.ign := rfl
@[simp] theorem clearOutcome_errcode (s : State) : (clearOutcome s).errcode = 0 := rfl
@[simp] theorem clearOutcome_n (s : State) : (clearOutcome s).n = s.n := rfl
@[simp] theorem clearOutcome_waddr (s : State) : (clearOutcome s).waddr = s.waddr := rfl
@[simp] theorem clearOutcome_aaddr (s : State) : (clearOutcome s).aaddr = s.aaddr := rfl
@[simp] theorem clearOutcome_result (s : State) : (clearOutcome s).result = s.result := rfl
@[simp] theorem clearOutcome_eng (s : State) : (clearOutcome s).eng = s.eng := rfl
@[simp] theorem clearOutcome_mem (s : State) : (clearOutcome s).mem = s.mem := rfl
@[simp] theorem clearOutcome_stale (s : State) : (clearOutcome s).stale = s.stale := rfl
@[simp] theorem clearOutcome_hostStores (s : State) : (clearOutcome s).hostStores = s.hostStores := rfl
@[simp] theorem clearOutcome_uncleaned (s : State) : (clearOutcome s).uncleaned = s.uncleaned := rfl
@[simp] theorem clearOutcome_platform (s : State) : (clearOutcome s).platform = s.platform := rfl
@[simp] theorem clearOutcome_readData (s : State) : (clearOutcome s).readData = s.readData := rfl
@[simp] theorem clearOutcome_inputs (s : State) : (clearOutcome s).inputs = s.inputs := rfl
@[simp] theorem clearOutcome_draws (s : State) : (clearOutcome s).draws = s.draws := rfl

/-! ## setIgnored -/

@[simp] theorem setIgnored_ie (s : State) : (setIgnored s).ie = s.ie := rfl
@[simp] theorem setIgnored_busy (s : State) : (setIgnored s).busy = s.busy := rfl
@[simp] theorem setIgnored_done (s : State) : (setIgnored s).done = s.done := rfl
@[simp] theorem setIgnored_err (s : State) : (setIgnored s).err = s.err := rfl
@[simp] theorem setIgnored_ign (s : State) : (setIgnored s).ign = true := rfl
@[simp] theorem setIgnored_errcode (s : State) : (setIgnored s).errcode = s.errcode := rfl
@[simp] theorem setIgnored_n (s : State) : (setIgnored s).n = s.n := rfl
@[simp] theorem setIgnored_waddr (s : State) : (setIgnored s).waddr = s.waddr := rfl
@[simp] theorem setIgnored_aaddr (s : State) : (setIgnored s).aaddr = s.aaddr := rfl
@[simp] theorem setIgnored_result (s : State) : (setIgnored s).result = s.result := rfl
@[simp] theorem setIgnored_eng (s : State) : (setIgnored s).eng = s.eng := rfl
@[simp] theorem setIgnored_mem (s : State) : (setIgnored s).mem = s.mem := rfl
@[simp] theorem setIgnored_stale (s : State) : (setIgnored s).stale = s.stale := rfl
@[simp] theorem setIgnored_hostStores (s : State) : (setIgnored s).hostStores = s.hostStores := rfl
@[simp] theorem setIgnored_uncleaned (s : State) : (setIgnored s).uncleaned = s.uncleaned := rfl
@[simp] theorem setIgnored_platform (s : State) : (setIgnored s).platform = s.platform := rfl
@[simp] theorem setIgnored_readData (s : State) : (setIgnored s).readData = s.readData := rfl
@[simp] theorem setIgnored_inputs (s : State) : (setIgnored s).inputs = s.inputs := rfl
@[simp] theorem setIgnored_draws (s : State) : (setIgnored s).draws = s.draws := rfl

/-! ## writeCtrl -/

@[simp] theorem writeCtrl_ie (v : Word) (s : State) : (writeCtrl v s).ie = v.getLsbD 0 := rfl
@[simp] theorem writeCtrl_busy (v : Word) (s : State) : (writeCtrl v s).busy = s.busy := rfl
@[simp] theorem writeCtrl_done (v : Word) (s : State) : (writeCtrl v s).done = s.done := rfl
@[simp] theorem writeCtrl_err (v : Word) (s : State) : (writeCtrl v s).err = s.err := rfl
@[simp] theorem writeCtrl_ign (v : Word) (s : State) : (writeCtrl v s).ign = s.ign := rfl
@[simp] theorem writeCtrl_errcode (v : Word) (s : State) : (writeCtrl v s).errcode = s.errcode := rfl
@[simp] theorem writeCtrl_n (v : Word) (s : State) : (writeCtrl v s).n = s.n := rfl
@[simp] theorem writeCtrl_waddr (v : Word) (s : State) : (writeCtrl v s).waddr = s.waddr := rfl
@[simp] theorem writeCtrl_aaddr (v : Word) (s : State) : (writeCtrl v s).aaddr = s.aaddr := rfl
@[simp] theorem writeCtrl_result (v : Word) (s : State) : (writeCtrl v s).result = s.result := rfl
@[simp] theorem writeCtrl_eng (v : Word) (s : State) : (writeCtrl v s).eng = s.eng := rfl
@[simp] theorem writeCtrl_mem (v : Word) (s : State) : (writeCtrl v s).mem = s.mem := rfl
@[simp] theorem writeCtrl_stale (v : Word) (s : State) : (writeCtrl v s).stale = s.stale := rfl
@[simp] theorem writeCtrl_hostStores (v : Word) (s : State) : (writeCtrl v s).hostStores = s.hostStores := rfl
@[simp] theorem writeCtrl_uncleaned (v : Word) (s : State) : (writeCtrl v s).uncleaned = s.uncleaned := rfl
@[simp] theorem writeCtrl_platform (v : Word) (s : State) : (writeCtrl v s).platform = s.platform := rfl
@[simp] theorem writeCtrl_readData (v : Word) (s : State) : (writeCtrl v s).readData = s.readData := rfl
@[simp] theorem writeCtrl_inputs (v : Word) (s : State) : (writeCtrl v s).inputs = s.inputs := rfl
@[simp] theorem writeCtrl_draws (v : Word) (s : State) : (writeCtrl v s).draws = s.draws := rfl

/-! ## writeStatus -/

@[simp] theorem writeStatus_ie (v : Word) (s : State) : (writeStatus v s).ie = s.ie := rfl
@[simp] theorem writeStatus_busy (v : Word) (s : State) : (writeStatus v s).busy = s.busy := rfl
@[simp] theorem writeStatus_done (v : Word) (s : State) : (writeStatus v s).done = (s.done && !v.getLsbD 1) := rfl
@[simp] theorem writeStatus_err (v : Word) (s : State) : (writeStatus v s).err = (s.err && !v.getLsbD 2) := rfl
@[simp] theorem writeStatus_ign (v : Word) (s : State) : (writeStatus v s).ign = (s.ign && !v.getLsbD 3) := rfl
@[simp] theorem writeStatus_errcode (v : Word) (s : State) : (writeStatus v s).errcode = if v.getLsbD 2 then 0 else s.errcode := rfl
@[simp] theorem writeStatus_n (v : Word) (s : State) : (writeStatus v s).n = s.n := rfl
@[simp] theorem writeStatus_waddr (v : Word) (s : State) : (writeStatus v s).waddr = s.waddr := rfl
@[simp] theorem writeStatus_aaddr (v : Word) (s : State) : (writeStatus v s).aaddr = s.aaddr := rfl
@[simp] theorem writeStatus_result (v : Word) (s : State) : (writeStatus v s).result = s.result := rfl
@[simp] theorem writeStatus_eng (v : Word) (s : State) : (writeStatus v s).eng = s.eng := rfl
@[simp] theorem writeStatus_mem (v : Word) (s : State) : (writeStatus v s).mem = s.mem := rfl
@[simp] theorem writeStatus_stale (v : Word) (s : State) : (writeStatus v s).stale = s.stale := rfl
@[simp] theorem writeStatus_hostStores (v : Word) (s : State) : (writeStatus v s).hostStores = s.hostStores := rfl
@[simp] theorem writeStatus_uncleaned (v : Word) (s : State) : (writeStatus v s).uncleaned = s.uncleaned := rfl
@[simp] theorem writeStatus_platform (v : Word) (s : State) : (writeStatus v s).platform = s.platform := rfl
@[simp] theorem writeStatus_readData (v : Word) (s : State) : (writeStatus v s).readData = s.readData := rfl
@[simp] theorem writeStatus_inputs (v : Word) (s : State) : (writeStatus v s).inputs = s.inputs := rfl
@[simp] theorem writeStatus_draws (v : Word) (s : State) : (writeStatus v s).draws = s.draws := rfl

/-! ## complete -/

@[simp] theorem complete_ie (v : Word) (s : State) : (complete v s).ie = s.ie := rfl
@[simp] theorem complete_busy (v : Word) (s : State) : (complete v s).busy = false := rfl
@[simp] theorem complete_done (v : Word) (s : State) : (complete v s).done = true := rfl
@[simp] theorem complete_err (v : Word) (s : State) : (complete v s).err = s.err := rfl
@[simp] theorem complete_ign (v : Word) (s : State) : (complete v s).ign = s.ign := rfl
@[simp] theorem complete_errcode (v : Word) (s : State) : (complete v s).errcode = s.errcode := rfl
@[simp] theorem complete_n (v : Word) (s : State) : (complete v s).n = s.n := rfl
@[simp] theorem complete_waddr (v : Word) (s : State) : (complete v s).waddr = s.waddr := rfl
@[simp] theorem complete_aaddr (v : Word) (s : State) : (complete v s).aaddr = s.aaddr := rfl
@[simp] theorem complete_result (v : Word) (s : State) : (complete v s).result = v := rfl
@[simp] theorem complete_eng (v : Word) (s : State) : (complete v s).eng = engineIdle s.eng := rfl
@[simp] theorem complete_mem (v : Word) (s : State) : (complete v s).mem = s.mem := rfl
@[simp] theorem complete_stale (v : Word) (s : State) : (complete v s).stale = [] := rfl
@[simp] theorem complete_hostStores (v : Word) (s : State) : (complete v s).hostStores = s.hostStores := rfl
@[simp] theorem complete_uncleaned (v : Word) (s : State) : (complete v s).uncleaned = s.uncleaned := rfl
@[simp] theorem complete_platform (v : Word) (s : State) : (complete v s).platform = s.platform := rfl
@[simp] theorem complete_readData (v : Word) (s : State) : (complete v s).readData = s.readData := rfl
@[simp] theorem complete_inputs (v : Word) (s : State) : (complete v s).inputs = s.inputs := rfl
@[simp] theorem complete_draws (v : Word) (s : State) : (complete v s).draws = s.draws := rfl

/-! ## raiseError -/

@[simp] theorem raiseError_ie (c : ErrCode) (s : State) : (raiseError c s).ie = s.ie := rfl
@[simp] theorem raiseError_busy (c : ErrCode) (s : State) : (raiseError c s).busy = false := rfl
@[simp] theorem raiseError_done (c : ErrCode) (s : State) : (raiseError c s).done = s.done := rfl
@[simp] theorem raiseError_err (c : ErrCode) (s : State) : (raiseError c s).err = true := rfl
@[simp] theorem raiseError_ign (c : ErrCode) (s : State) : (raiseError c s).ign = s.ign := rfl
@[simp] theorem raiseError_errcode (c : ErrCode) (s : State) : (raiseError c s).errcode = errCodeBits c := rfl
@[simp] theorem raiseError_n (c : ErrCode) (s : State) : (raiseError c s).n = s.n := rfl
@[simp] theorem raiseError_waddr (c : ErrCode) (s : State) : (raiseError c s).waddr = s.waddr := rfl
@[simp] theorem raiseError_aaddr (c : ErrCode) (s : State) : (raiseError c s).aaddr = s.aaddr := rfl
@[simp] theorem raiseError_result (c : ErrCode) (s : State) : (raiseError c s).result = s.result := rfl
@[simp] theorem raiseError_eng (c : ErrCode) (s : State) : (raiseError c s).eng = engineIdle s.eng := rfl
@[simp] theorem raiseError_mem (c : ErrCode) (s : State) : (raiseError c s).mem = s.mem := rfl
@[simp] theorem raiseError_stale (c : ErrCode) (s : State) : (raiseError c s).stale = [] := rfl
@[simp] theorem raiseError_hostStores (c : ErrCode) (s : State) : (raiseError c s).hostStores = s.hostStores := rfl
@[simp] theorem raiseError_uncleaned (c : ErrCode) (s : State) : (raiseError c s).uncleaned = s.uncleaned := rfl
@[simp] theorem raiseError_platform (c : ErrCode) (s : State) : (raiseError c s).platform = s.platform := rfl
@[simp] theorem raiseError_readData (c : ErrCode) (s : State) : (raiseError c s).readData = s.readData := rfl
@[simp] theorem raiseError_inputs (c : ErrCode) (s : State) : (raiseError c s).inputs = s.inputs := rfl
@[simp] theorem raiseError_draws (c : ErrCode) (s : State) : (raiseError c s).draws = s.draws := rfl

/-! ## resetDevice -/

@[simp] theorem resetDevice_ie (s : State) : (resetDevice s).ie = false := rfl
@[simp] theorem resetDevice_busy (s : State) : (resetDevice s).busy = false := rfl
@[simp] theorem resetDevice_done (s : State) : (resetDevice s).done = false := rfl
@[simp] theorem resetDevice_err (s : State) : (resetDevice s).err = false := rfl
@[simp] theorem resetDevice_ign (s : State) : (resetDevice s).ign = false := rfl
@[simp] theorem resetDevice_errcode (s : State) : (resetDevice s).errcode = 0 := rfl
@[simp] theorem resetDevice_n (s : State) : (resetDevice s).n = 0 := rfl
@[simp] theorem resetDevice_waddr (s : State) : (resetDevice s).waddr = 0 := rfl
@[simp] theorem resetDevice_aaddr (s : State) : (resetDevice s).aaddr = 0 := rfl
@[simp] theorem resetDevice_result (s : State) : (resetDevice s).result = 0 := rfl
@[simp] theorem resetDevice_eng (s : State) : (resetDevice s).eng = Engine.reset := rfl
@[simp] theorem resetDevice_mem (s : State) : (resetDevice s).mem = s.mem := rfl
@[simp] theorem resetDevice_stale (s : State) : (resetDevice s).stale = [] := rfl
@[simp] theorem resetDevice_hostStores (s : State) : (resetDevice s).hostStores = s.hostStores := rfl
@[simp] theorem resetDevice_uncleaned (s : State) : (resetDevice s).uncleaned = s.uncleaned := rfl
@[simp] theorem resetDevice_platform (s : State) : (resetDevice s).platform = s.platform := rfl
@[simp] theorem resetDevice_readData (s : State) : (resetDevice s).readData = s.readData := rfl
@[simp] theorem resetDevice_inputs (s : State) : (resetDevice s).inputs = s.inputs := rfl
@[simp] theorem resetDevice_draws (s : State) : (resetDevice s).draws = s.draws := rfl

/-! ## startEngine -/

@[simp] theorem startEngine_ie (op : EngOp) (mode : Mode) (nb : Word) (s : State) : (startEngine op mode nb s).ie = s.ie := rfl
@[simp] theorem startEngine_busy (op : EngOp) (mode : Mode) (nb : Word) (s : State) : (startEngine op mode nb s).busy = true := rfl
@[simp] theorem startEngine_done (op : EngOp) (mode : Mode) (nb : Word) (s : State) : (startEngine op mode nb s).done = s.done := rfl
@[simp] theorem startEngine_err (op : EngOp) (mode : Mode) (nb : Word) (s : State) : (startEngine op mode nb s).err = s.err := rfl
@[simp] theorem startEngine_ign (op : EngOp) (mode : Mode) (nb : Word) (s : State) : (startEngine op mode nb s).ign = s.ign := rfl
@[simp] theorem startEngine_errcode (op : EngOp) (mode : Mode) (nb : Word) (s : State) : (startEngine op mode nb s).errcode = s.errcode := rfl
@[simp] theorem startEngine_n (op : EngOp) (mode : Mode) (nb : Word) (s : State) : (startEngine op mode nb s).n = s.n := rfl
@[simp] theorem startEngine_waddr (op : EngOp) (mode : Mode) (nb : Word) (s : State) : (startEngine op mode nb s).waddr = s.waddr := rfl
@[simp] theorem startEngine_aaddr (op : EngOp) (mode : Mode) (nb : Word) (s : State) : (startEngine op mode nb s).aaddr = s.aaddr := rfl
@[simp] theorem startEngine_result (op : EngOp) (mode : Mode) (nb : Word) (s : State) : (startEngine op mode nb s).result = s.result := rfl
@[simp] theorem startEngine_mem (op : EngOp) (mode : Mode) (nb : Word) (s : State) : (startEngine op mode nb s).mem = s.mem := rfl
@[simp] theorem startEngine_stale (op : EngOp) (mode : Mode) (nb : Word) (s : State) : (startEngine op mode nb s).stale = [] := rfl
@[simp] theorem startEngine_hostStores (op : EngOp) (mode : Mode) (nb : Word) (s : State) : (startEngine op mode nb s).hostStores = s.hostStores := rfl
@[simp] theorem startEngine_uncleaned (op : EngOp) (mode : Mode) (nb : Word) (s : State) : (startEngine op mode nb s).uncleaned = s.uncleaned := rfl
@[simp] theorem startEngine_platform (op : EngOp) (mode : Mode) (nb : Word) (s : State) : (startEngine op mode nb s).platform = s.platform := rfl
@[simp] theorem startEngine_readData (op : EngOp) (mode : Mode) (nb : Word) (s : State) : (startEngine op mode nb s).readData = s.readData := rfl
@[simp] theorem startEngine_inputs (op : EngOp) (mode : Mode) (nb : Word) (s : State) : (startEngine op mode nb s).inputs = s.inputs := rfl
@[simp] theorem startEngine_draws (op : EngOp) (mode : Mode) (nb : Word) (s : State) : (startEngine op mode nb s).draws = s.draws := rfl

/-! ## replaceByte -/

@[simp] theorem replaceByte_ie (s : State) (a : Nat) (v : Byte) : (replaceByte s a v).ie = s.ie := rfl
@[simp] theorem replaceByte_busy (s : State) (a : Nat) (v : Byte) : (replaceByte s a v).busy = s.busy := rfl
@[simp] theorem replaceByte_done (s : State) (a : Nat) (v : Byte) : (replaceByte s a v).done = s.done := rfl
@[simp] theorem replaceByte_err (s : State) (a : Nat) (v : Byte) : (replaceByte s a v).err = s.err := rfl
@[simp] theorem replaceByte_ign (s : State) (a : Nat) (v : Byte) : (replaceByte s a v).ign = s.ign := rfl
@[simp] theorem replaceByte_errcode (s : State) (a : Nat) (v : Byte) : (replaceByte s a v).errcode = s.errcode := rfl
@[simp] theorem replaceByte_n (s : State) (a : Nat) (v : Byte) : (replaceByte s a v).n = s.n := rfl
@[simp] theorem replaceByte_waddr (s : State) (a : Nat) (v : Byte) : (replaceByte s a v).waddr = s.waddr := rfl
@[simp] theorem replaceByte_aaddr (s : State) (a : Nat) (v : Byte) : (replaceByte s a v).aaddr = s.aaddr := rfl
@[simp] theorem replaceByte_result (s : State) (a : Nat) (v : Byte) : (replaceByte s a v).result = s.result := rfl
@[simp] theorem replaceByte_eng (s : State) (a : Nat) (v : Byte) : (replaceByte s a v).eng = s.eng := rfl
@[simp] theorem replaceByte_mem (s : State) (a : Nat) (v : Byte) : (replaceByte s a v).mem = memWrite s.mem a v := rfl
@[simp] theorem replaceByte_stale (s : State) (a : Nat) (v : Byte) : (replaceByte s a v).stale = if s.busy then (a, memRead s.mem a) :: s.stale else s.stale := rfl
@[simp] theorem replaceByte_hostStores (s : State) (a : Nat) (v : Byte) : (replaceByte s a v).hostStores = s.hostStores := rfl
@[simp] theorem replaceByte_uncleaned (s : State) (a : Nat) (v : Byte) : (replaceByte s a v).uncleaned = s.uncleaned := rfl
@[simp] theorem replaceByte_platform (s : State) (a : Nat) (v : Byte) : (replaceByte s a v).platform = s.platform := rfl
@[simp] theorem replaceByte_readData (s : State) (a : Nat) (v : Byte) : (replaceByte s a v).readData = s.readData := rfl
@[simp] theorem replaceByte_inputs (s : State) (a : Nat) (v : Byte) : (replaceByte s a v).inputs = s.inputs := rfl
@[simp] theorem replaceByte_draws (s : State) (a : Nat) (v : Byte) : (replaceByte s a v).draws = s.draws := rfl

/-! ## The engine -/

@[simp] theorem startEngine_eng_op (op : EngOp) (mode : Mode) (nb : Word) (s : State) :
    (startEngine op mode nb s).eng.op = op := rfl
@[simp] theorem startEngine_eng_mode (op : EngOp) (mode : Mode) (nb : Word) (s : State) :
    (startEngine op mode nb s).eng.mode = mode := rfl
@[simp] theorem startEngine_eng_nb (op : EngOp) (mode : Mode) (nb : Word) (s : State) :
    (startEngine op mode nb s).eng.nb = nb := rfl
@[simp] theorem startEngine_eng_wbase (op : EngOp) (mode : Mode) (nb : Word) (s : State) :
    (startEngine op mode nb s).eng.wbase = s.waddr := rfl
@[simp] theorem startEngine_eng_abase (op : EngOp) (mode : Mode) (nb : Word) (s : State) :
    (startEngine op mode nb s).eng.abase = s.aaddr := rfl
@[simp] theorem startEngine_eng_pending (op : EngOp) (mode : Mode) (nb : Word) (s : State) :
    (startEngine op mode nb s).eng.pending = inputAddresses s.waddr.toNat s.aaddr.toNat nb.toNat := rfl
@[simp] theorem startEngine_eng_bytes (op : EngOp) (mode : Mode) (nb : Word) (s : State) :
    (startEngine op mode nb s).eng.bytes = [] := rfl
@[simp] theorem startEngine_eng_berr (op : EngOp) (mode : Mode) (nb : Word) (s : State) :
    (startEngine op mode nb s).eng.berr = false := rfl
@[simp] theorem engineIdle_op (e : Engine) : (engineIdle e).op = .none := rfl
@[simp] theorem engineIdle_mode (e : Engine) : (engineIdle e).mode = e.mode := rfl
@[simp] theorem engineIdle_nb (e : Engine) : (engineIdle e).nb = e.nb := rfl
@[simp] theorem engineIdle_wbase (e : Engine) : (engineIdle e).wbase = e.wbase := rfl
@[simp] theorem engineIdle_abase (e : Engine) : (engineIdle e).abase = e.abase := rfl
@[simp] theorem engineIdle_pending (e : Engine) : (engineIdle e).pending = [] := rfl
@[simp] theorem engineIdle_bytes (e : Engine) : (engineIdle e).bytes = [] := rfl
@[simp] theorem engineIdle_berr (e : Engine) : (engineIdle e).berr = false := rfl
@[simp] theorem engineReset_op : Engine.reset.op = .none := rfl
@[simp] theorem engineReset_mode : Engine.reset.mode = .pair2 := rfl
@[simp] theorem engineReset_nb : Engine.reset.nb = 0 := rfl
@[simp] theorem engineReset_wbase : Engine.reset.wbase = 0 := rfl
@[simp] theorem engineReset_abase : Engine.reset.abase = 0 := rfl
@[simp] theorem engineReset_pending : Engine.reset.pending = [] := rfl
@[simp] theorem engineReset_bytes : Engine.reset.bytes = [] := rfl
@[simp] theorem engineReset_berr : Engine.reset.berr = false := rfl

end Sys2Proof.Machine
end

