-- ==== Sys2Proof/Laws/Ops.lean ====
section
/-! SUPPORT. One lemma per shared operation that says once everything it can answer. -/

namespace Sys2Proof.Machine

/-! ## The outcomes -/

@[simp] theorem next_eq_next {s t : State} : (Host.Outcome.next s : Host.Outcome State Fault Refusal) = .next t ↔ s = t :=
  ⟨fun h => by injection h, fun h => by rw [h]⟩

@[simp] theorem fault_ne_next {f : Fault} {t : State} : (Host.Outcome.fault f : Host.Outcome State Fault Refusal) ≠ .next t := nofun

@[simp] theorem refused_ne_next {r : Refusal} {t : State} :
    (Host.Outcome.refused r : Host.Outcome State Fault Refusal) ≠ .next t := nofun

/-! ## Acceptance -/

theorem commandWrite_next {body : State → Host.Outcome State Fault Refusal} {s t : State} :
    commandWrite body s = .next t ↔
      (s.busy = true ∧ t = setIgnored s) ∨ (s.busy = false ∧ body (clearOutcome s) = .next t) := by
  unfold commandWrite
  cases s.busy <;> simp [eq_comm]

theorem commandWrite_busy {body : State → Host.Outcome State Fault Refusal} {s : State} (h : s.busy = true) :
    commandWrite body s = .next (setIgnored s) := by simp [commandWrite, h]

theorem commandWrite_idle {body : State → Host.Outcome State Fault Refusal} {s : State} (h : s.busy = false) :
    commandWrite body s = body (clearOutcome s) := by simp [commandWrite, h]

theorem launch_next {op : EngOp} {mode : Mode} {nb : Word} {s t : State} :
    launch op mode nb s = .next t ↔
      (rangesFit s nb.toNat = false ∧ t = raiseError .range s) ∨
      (rangesFit s nb.toNat = true ∧ touchesSideEffects s nb.toNat = false ∧ t = startEngine op mode nb s) := by
  unfold launch
  cases rangesFit s nb.toNat <;> cases touchesSideEffects s nb.toNat <;> simp [eq_comm]

theorem startDot_next {mode : Mode} {s t : State} :
    startDot mode s = .next t ↔
      (lengthLegal s.n = false ∧ t = raiseError .badLength s) ∨
      (lengthLegal s.n = true ∧ launch .dot mode (blockCount s.n) s = .next t) := by
  unfold startDot
  cases lengthLegal s.n <;> simp [eq_comm]

@[simp] theorem touchesSideEffects_clearOutcome (s : State) (nb : Nat) :
    touchesSideEffects (clearOutcome s) nb = touchesSideEffects s nb := rfl

@[simp] theorem rangesFit_clearOutcome (s : State) (nb : Nat) : rangesFit (clearOutcome s) nb = rangesFit s nb := rfl

/-! ## The meanings over the shared operations -/

theorem exec_nop (s : State) : exec .nop s = commandWrite (fun s => .next (complete s.result s)) s := rfl

theorem exec_clr (s : State) : exec .clr s = commandWrite (fun s => .next (complete 0 { s with ign := false })) s := rfl

theorem exec_cvth (h : Half) (s : State) :
    exec (.cvth h) s = commandWrite (fun s => .next (complete (decodeScale h) s)) s := rfl

theorem exec_nibd (b : Byte) (s : State) :
    exec (.nibd b) s = commandWrite (fun s => .next (complete (nibbleWord b) s)) s := rfl

theorem exec_isum (s : State) : exec .isum s = commandWrite (fun s => launch .isum s.eng.mode 1 s) s := rfl

theorem exec_dot {c : Instr × Mode} (hc : c ∈ dotCommands) (s : State) : exec c.1 s = commandWrite (startDot c.2) s := by
  simp only [dotCommands, List.mem_cons, List.not_mem_nil, or_false] at hc
  rcases hc with rfl | rfl | rfl <;> rfl

/-- Everything a legal command can answer with a next state: ignored, completed at once, ended in error at once, or the
engine started. -/
inductive CommandOutcome (s : State) : State → Prop where
  | ignored (busy : s.busy = true) : CommandOutcome s (setIgnored s)
  | completed (idle : s.busy = false) (v : Word) (g : Bool) : CommandOutcome s (complete v { clearOutcome s with ign := g })
  | failed (idle : s.busy = false) (c : ErrCode) (code : c = .badLength ∨ c = .range) :
      CommandOutcome s (raiseError c (clearOutcome s))
  | started (idle : s.busy = false) (op : EngOp) (mode : Mode) (nb : Word) (hop : op = .dot ∨ op = .isum)
      (fit : rangesFit s nb.toNat = true) (dot : op = .dot → lengthLegal s.n = true ∧ nb = blockCount s.n)
      (isum : op = .isum → nb = 1) : CommandOutcome s (startEngine op mode nb (clearOutcome s))

theorem startDot_outcome {mode : Mode} {s t : State} (h : commandWrite (startDot mode) s = .next t) :
    CommandOutcome s t := by
  rcases commandWrite_next.1 h with ⟨hb, rfl⟩ | ⟨hb, h⟩
  · exact .ignored hb
  rcases startDot_next.1 h with ⟨_, rfl⟩ | ⟨hn, h⟩
  · exact .failed hb _ (.inl rfl)
  rcases launch_next.1 h with ⟨_, rfl⟩ | ⟨hr, _, rfl⟩
  · exact .failed hb _ (.inr rfl)
  · exact .started hb .dot mode _ (.inl rfl) hr (fun _ => ⟨hn, rfl⟩) nofun

theorem completing_outcome {f : State → Word} {g : State → Bool} {s t : State}
    (h : commandWrite (fun s => .next (complete (f s) { s with ign := g s })) s = .next t) : CommandOutcome s t := by
  rcases commandWrite_next.1 h with ⟨hb, rfl⟩ | ⟨hb, h⟩
  · exact .ignored hb
  · rw [← next_eq_next.1 h]
    exact .completed hb _ _

theorem exec_outcome {i : Instr} {s t : State} (h : exec i s = .next t) : CommandOutcome s t := by
  cases i with
  | nop => exact completing_outcome (f := fun s => s.result) (g := fun s => s.ign) h
  | clr => exact completing_outcome (f := fun _ => 0) (g := fun _ => false) h
  | cvth b => exact completing_outcome (f := fun _ => decodeScale b) (g := fun s => s.ign) h
  | nibd b => exact completing_outcome (f := fun _ => nibbleWord b) (g := fun s => s.ign) h
  | dotPair2 => exact startDot_outcome (mode := .pair2) h
  | dotQuad4 => exact startDot_outcome (mode := .quad4) h
  | dotSeq => exact startDot_outcome (mode := .seq) h
  | isum =>
    rcases commandWrite_next.1 h with ⟨hb, rfl⟩ | ⟨hb, h⟩
    · exact .ignored hb
    rcases launch_next.1 h with ⟨_, rfl⟩ | ⟨hr, _, rfl⟩
    · exact .failed hb _ (.inr rfl)
    · exact .started hb .isum _ 1 (.inr rfl) hr nofun (fun _ => rfl)

/-! ## The totals of a reduction -/

@[simp] theorem strideTotal_zero (c : Nat → Word) (step j : Nat) : strideTotal c step j 0 = 0x00000000 := rfl

/-- One more contribution is added last. -/
theorem strideTotal_succ (c : Nat → Word) (step j count : Nat) :
    strideTotal c step j (count + 1) = fadd32 (strideTotal c step j count) (c (step * count + j)) := by
  simp [strideTotal, List.range_succ]

/-! ## Accesses -/

theorem accessAdmitted_iff {bits offset : Nat} :
    accessAdmitted bits offset = true ↔ bits = 32 ∧ offset % 4 = 0 ∧ offset ≤ 0x3C := by
  simp [accessAdmitted, and_assoc]

theorem writeOperand_cases (store : State → State) (s : State) :
    (s.busy = true ∧ writeOperand store s = setIgnored s) ∨ (s.busy = false ∧ writeOperand store s = store s) := by
  unfold writeOperand
  cases s.busy <;> simp

/-- Everything a write of the register window other than CMD can do. -/
inductive WriteOutcome (offset : Nat) (v : Word) (s : State) : State → Prop where
  | nothing : WriteOutcome offset v s s
  | ctrl (h : offset = 0x08) : WriteOutcome offset v s (writeCtrl v s)
  | status (h : offset = 0x0C) : WriteOutcome offset v s (writeStatus v s)
  | ignored (busy : s.busy = true) (h : offset = 0x14 ∨ offset = 0x18 ∨ offset = 0x1C) :
      WriteOutcome offset v s (setIgnored s)
  | n (idle : s.busy = false) (h : offset = 0x14) : WriteOutcome offset v s { s with n := v }
  | waddr (idle : s.busy = false) (h : offset = 0x18) : WriteOutcome offset v s { s with waddr := v }
  | aaddr (idle : s.busy = false) (h : offset = 0x1C) : WriteOutcome offset v s { s with aaddr := v }

theorem writeReg_outcome (offset : Nat) (v : Word) (s : State) : WriteOutcome offset v s (writeReg offset v s) := by
  unfold writeReg
  split
  · exact .ctrl ‹_›
  split
  · exact .status ‹_›
  split
  · rcases writeOperand_cases (fun s => { s with n := v }) s with ⟨hb, h⟩ | ⟨hb, h⟩ <;> rw [h]
    · exact .ignored hb (.inl ‹_›)
    · exact .n hb ‹_›
  split
  · rcases writeOperand_cases (fun s => { s with waddr := v }) s with ⟨hb, h⟩ | ⟨hb, h⟩ <;> rw [h]
    · exact .ignored hb (.inr (.inl ‹_›))
    · exact .waddr hb ‹_›
  split
  · rcases writeOperand_cases (fun s => { s with aaddr := v }) s with ⟨hb, h⟩ | ⟨hb, h⟩ <;> rw [h]
    · exact .ignored hb (.inr (.inr ‹_›))
    · exact .aaddr hb ‹_›
  · exact .nothing

theorem writeCmd_next {v : Word} {s t : State} :
    writeCmd v s = .next t ↔
      (∃ i, decode v = .ok i ∧ exec i s = .next t) ∨
      (∃ e, decode v = .error e ∧
        ((s.busy = true ∧ t = setIgnored s) ∨ (s.busy = false ∧ t = raiseError .illegalCmd (clearOutcome s)))) := by
  unfold writeCmd
  cases decode v with
  | ok i => simp
  | error e => simp [acceptIllegal, commandWrite_next, eq_comm (a := raiseError _ _)]

theorem hostWrite_next {bits offset : Nat} {v : Word} {s t : State} :
    hostWrite bits offset v s = .next t ↔
      accessAdmitted bits offset = true ∧
      ((offset = 0x10 ∧ writeCmd v s = .next t) ∨ (offset ≠ 0x10 ∧ t = writeReg offset v s)) := by
  unfold hostWrite
  cases accessAdmitted bits offset <;> by_cases h : offset = 0x10 <;> simp [h, eq_comm]

theorem hostRead_next {bits offset : Nat} {s t : State} :
    hostRead bits offset s = .next t ↔
      accessAdmitted bits offset = true ∧ t = { s with readData := some (readReg offset s) } := by
  unfold hostRead
  cases accessAdmitted bits offset <;> simp [eq_comm]

theorem hostStore_next {a : Nat} {v : Byte} {s t : State} :
    hostStore a v s = .next t ↔ inWindow s.platform a = false ∧ t = storeByte s a v := by
  unfold hostStore
  cases inWindow s.platform a <;> simp [eq_comm]

theorem storeByte_cases (s : State) (a : Nat) (v : Byte) :
    (s.platform.coherent = true ∧ storeByte s a v = replaceByte s a v) ∨
    (s.platform.coherent = false ∧
      storeByte s a v = { s with hostStores := (a, v) :: s.hostStores, uncleaned := s.uncleaned.insert a }) := by
  unfold storeByte
  cases s.platform.coherent <;> simp

/-- A clean of a byte with an uncleaned store. -/
theorem cleanByte_newest {s : State} {a : Nat} {v : Byte} {olds : List Byte} (ha : a ∈ s.uncleaned)
    (hv : valuesAt a s.hostStores = v :: olds) :
    cleanByte s a = { replaceByte s a v with
      stale := (if s.busy then (v :: olds).map (fun o => (a, o)) else []) ++ (replaceByte s a v).stale
      uncleaned := s.uncleaned.filter (· != a) } := by
  simp only [cleanByte, List.contains_eq_mem, ha, decide_true, if_true, hv]

/-- Everything a clean can do: nothing, only the mark removed, or the newest store brought to memory. -/
theorem cleanByte_cases (s : State) (a : Nat) :
    cleanByte s a = s ∨ cleanByte s a = { s with uncleaned := s.uncleaned.filter (· != a) } ∨
    ∃ v st, valuesAt a s.hostStores ≠ [] ∧ (s.busy = false → st = s.stale) ∧
      cleanByte s a = { s with mem := memWrite s.mem a v, stale := st, uncleaned := s.uncleaned.filter (· != a) } := by
  unfold cleanByte
  split
  · split
    · exact .inr (.inl rfl)
    · rename_i v olds hv
      refine .inr (.inr ⟨v, _, by simp [hv], ?_, rfl⟩)
      intro hb
      simp [replaceByte, hb]
  · exact .inl rfl

/-! ## The engine -/

theorem pickedAddress_mem {e : Engine} (h : e.pending ≠ []) (pick : Nat) : pickedAddress e pick ∈ e.pending := by
  have hl : pick % e.pending.length < e.pending.length := Nat.mod_lt _ (List.length_pos_iff.2 h)
  simp only [pickedAddress, List.getD_eq_getElem?_getD, List.getElem?_eq_getElem hl, Option.getD_some]
  exact List.getElem_mem hl

theorem readCandidates_ne_nil (s : State) (a : Nat) : readCandidates s a ≠ [] := by simp [readCandidates]

theorem deviceByte_mem (s : State) (a draw : Nat) : deviceByte s a draw ∈ readCandidates s a := by
  have hl : draw % (readCandidates s a).length < (readCandidates s a).length :=
    Nat.mod_lt _ (List.length_pos_iff.2 (readCandidates_ne_nil s a))
  simp only [deviceByte, List.getD_eq_getElem?_getD, List.getElem?_eq_getElem hl, Option.getD_some]
  exact List.getElem_mem hl

theorem engineRead_cases (pick draw : Nat) (s : State) :
    (memAdmit s.platform (pickedAddress s.eng pick) = true ∧
      engineRead pick draw s = { s with eng := { s.eng with
        bytes := insertCell (pickedAddress s.eng pick) (deviceByte s (pickedAddress s.eng pick) draw) s.eng.bytes
        pending := s.eng.pending.erase (pickedAddress s.eng pick) } }) ∨
    (memAdmit s.platform (pickedAddress s.eng pick) = false ∧
      engineRead pick draw s = { s with eng := { s.eng with berr := true } }) := by
  unfold engineRead
  cases h : memAdmit s.platform (pickedAddress s.eng pick)
  · exact .inr ⟨rfl, if_neg (by simp [h])⟩
  · exact .inl ⟨rfl, if_pos h⟩

theorem engineComplete_next {s t : State} :
    engineComplete s = .next t ↔
      (s.eng.berr = true ∧ t = raiseError .busError s) ∨
      (s.eng.berr = false ∧ s.eng.op = .isum ∧
        t = complete (isumResult (engineByte s.eng) s.eng.wbase.toNat s.eng.abase.toNat) s) ∨
      (s.eng.berr = false ∧ s.eng.op = .dot ∧
        t = complete (dotResult s.eng.mode s.eng.nb.toNat (engineByte s.eng) s.eng.wbase.toNat s.eng.abase.toNat) s) := by
  unfold engineComplete
  cases s.eng.berr <;> cases s.eng.op <;> simp [eq_comm]

/-- Everything an engine turn can answer with a next state. -/
theorem engineStep_next {pick draw : Nat} {s t : State} :
    engineStep pick draw s = .next t ↔
      (s.busy = false ∧ t = s) ∨
      (s.busy = true ∧ (s.eng.berr = true ∨ s.eng.pending = []) ∧ engineComplete s = .next t) ∨
      (s.busy = true ∧ s.eng.berr = false ∧ s.eng.pending ≠ [] ∧ t = engineRead pick draw s) := by
  unfold engineStep
  cases s.busy <;> cases s.eng.berr <;> cases s.eng.pending <;> simp [eq_comm]

theorem unscheduledStep_next {s t : State} :
    unscheduledStep s = .next t ↔
      (s.busy = false ∧ t = s) ∨
      (s.busy = true ∧
        engineStep (Config.readPick s.draws) (Config.readDraw s.draws) { s with draws := s.draws + 1 } = .next t) := by
  unfold unscheduledStep
  cases s.busy <;> simp [eq_comm]

/-! ## The step -/

theorem step_nil {s : State} (h : s.inputs = []) : step s = unscheduledStep s := by simp [step, h]

theorem step_cons {s : State} {e : Event} {rest : List Event} (h : s.inputs = e :: rest) :
    step s = runEvent e { s with inputs := rest } := by simp [step, h]

/-- Everything a step can answer with a next state: an event happens, or the machine goes on without one. -/
theorem step_next {s t : State} :
    step s = .next t ↔
      (s.inputs = [] ∧ unscheduledStep s = .next t) ∨
      (∃ e rest, s.inputs = e :: rest ∧ runEvent e { s with inputs := rest } = .next t) := by
  cases h : s.inputs with
  | nil => simp [step_nil h]
  | cons e rest => simp [step_cons h]

end Sys2Proof.Machine
end

