-- ==== Sys2Proof/Laws/Acceptance.lean ====
section
/-! SUPPORT. The checks at acceptance and the engine's inputs in the terms of Safety.lean. -/

namespace Sys2Proof.Machine

theorem legalCount_spec {s : State} {nb : Nat} (h : LegalCount s nb) :
    lengthLegal s.n = true ∧ (blockCount s.n).toNat = nb := by
  obtain ⟨h1, h2⟩ := h
  constructor
  · simp only [lengthLegal, Bool.and_eq_true, decide_eq_true_eq]
    constructor
    · intro h; simp [h] at h1; omega
    · apply BitVec.eq_of_toNat_eq; simp [BitVec.extractLsb'_toNat]; omega
  · simp [blockCount, Nat.shiftRight_eq_div_pow]; omega

theorem lengthLegal_false {s : State} (h : s.n.toNat = 0 ∨ s.n.toNat % 32 ≠ 0) :
    lengthLegal s.n = false := by
  rw [Bool.eq_false_iff]
  simp only [lengthLegal, Bool.and_eq_true, decide_eq_true_eq, ne_eq]
  rintro ⟨h1, h2⟩
  have := congrArg BitVec.toNat h2
  simp [BitVec.extractLsb'_toNat] at this
  have : s.n.toNat ≠ 0 := fun h => h1 (BitVec.eq_of_toNat_eq (by simpa using h))
  omega

theorem rangesFit_iff {s : State} {nb : Nat} : rangesFit s nb = true ↔ RangesInSpace s nb := by
  simp [rangesFit, RangesInSpace]

theorem touchesSideEffects_iff {s : State} {nb : Nat} : touchesSideEffects s nb = false ↔ NoSideEffectInput s nb := by
  simp only [touchesSideEffects, List.any_eq_false, Bool.or_eq_true, rangeMeets, decide_eq_true_eq,
    NoSideEffectInput, InInputRanges]
  refine forall₂_congr fun r hr => ⟨fun h a ha => ?_, fun h => ?_⟩
  · omega
  · rintro (h1 | h1)
    · exact h (max s.waddr.toNat r.base) (by omega) (by omega)
    · exact h (max s.aaddr.toNat r.base) (by omega) (by omega)

theorem mem_addressRun {b l a : Nat} : a ∈ addressRun b l ↔ b ≤ a ∧ a < b + l := by
  simp only [addressRun, List.mem_map, List.mem_range]
  exact ⟨fun ⟨x, h, e⟩ => by omega, fun h => ⟨a - b, by omega, by omega⟩⟩

theorem addressRun_nodup (b l : Nat) : (addressRun b l).Nodup := by
  unfold addressRun
  exact List.Nodup.map (fun x y h => by simpa using h) List.nodup_range

theorem mem_inputAddresses {wb ab nb a : Nat} : a ∈ inputAddresses wb ab nb ↔ InInputRanges wb ab nb a := by
  simp only [inputAddresses, List.mem_append, List.mem_filter, mem_addressRun, InInputRanges,
    Bool.not_eq_true', Bool.and_eq_false_iff,
    decide_eq_false_iff_not]
  omega

theorem inputAddresses_nodup (wb ab nb : Nat) : (inputAddresses wb ab nb).Nodup := by
  unfold inputAddresses
  rw [List.nodup_append]
  refine ⟨addressRun_nodup _ _, (addressRun_nodup _ _).filter _, ?_⟩
  intro a ha b hb e
  subst e
  simp [mem_addressRun] at ha hb
  omega

theorem launch_starts {op : EngOp} {mode : Mode} {nb : Word} {s : State} (h1 : RangesInSpace s nb.toNat)
    (h2 : NoSideEffectInput s nb.toNat) : launch op mode nb s = .next (startEngine op mode nb s) := by
  simp [launch, rangesFit_iff.2 h1, touchesSideEffects_iff.2 h2]

end Sys2Proof.Machine
end

