-- ==== Sys2Proof/Laws/Encoding.lean ====
section
/-! SUPPORT. A command word as its two halves, so that its fields are read from the halves. -/

namespace Sys2Proof

theorem word_halves (v : Word) : v = v.extractLsb' 16 16 ++ v.extractLsb' 0 16 := by
  apply BitVec.eq_of_getLsbD_eq
  intro k hk
  rw [BitVec.getLsbD_append]
  split
  · rw [BitVec.getLsbD_extractLsb', Nat.zero_add]
    simp
    omega
  · rw [BitVec.getLsbD_extractLsb', show 16 + (k - 16) = k by omega]
    simp
    omega

theorem cmdOp_append (h l : Half) : cmdOp (h ++ l) = l.extractLsb' 0 4 := by
  ext j hj
  simp only [cmdOp, BitVec.getElem_extractLsb', BitVec.getLsbD_append]
  rw [if_pos (by omega)]

theorem cmdMode_append (h l : Half) : cmdMode (h ++ l) = l.extractLsb' 4 2 := by
  ext j hj
  simp only [cmdMode, BitVec.getElem_extractLsb', BitVec.getLsbD_append]
  rw [if_pos (by omega)]

theorem cmdRsv_append (h l : Half) : cmdRsv (h ++ l) = l.extractLsb' 6 10 := by
  ext j hj
  simp only [cmdRsv, BitVec.getElem_extractLsb', BitVec.getLsbD_append]
  rw [if_pos (by omega)]

theorem cmdImm_append (h l : Half) : cmdImm (h ++ l) = h := by
  ext j hj
  simp only [cmdImm, BitVec.getElem_extractLsb', BitVec.getLsbD_append]
  rw [if_neg (by omega), show 16 + j - 16 = j by omega]
  simp [hj]

end Sys2Proof
end

