-- ==== Sys2Proof/Laws/PerInstr.lean ====
section
/-! SUPPORT. Statements about every instruction as syntax, one lemma per constructor. -/

namespace Sys2Proof.Laws.EncodesItsRow

/-- The word of a command matches a row of the opcode table that has the command's mnemonic (R105, R112). -/
def Statement (i : Instr) : Prop := ∃ r ∈ opcodeTable, r.mnemonic = mnemonicOf i ∧ r.matchesWord (encode i) = true

theorem nop : Statement .nop := by unfold Statement; decide

theorem dotPair2 : Statement .dotPair2 := by unfold Statement; decide

theorem dotQuad4 : Statement .dotQuad4 := by unfold Statement; decide

theorem dotSeq : Statement .dotSeq := by unfold Statement; decide

theorem isum : Statement .isum := by unfold Statement; decide

theorem cvth (h : Half) : Statement (.cvth h) := by
  refine ⟨⟨"cvth", 0x00000003, 0x0000FFFF⟩, by decide, rfl, ?_⟩
  simp only [OpcodeRow.matchesWord, encode, beq_iff_eq]
  ext k hk
  simp only [BitVec.getElem_and, BitVec.getElem_append]
  split
  · interval_cases k <;> simp
  · have : 16 ≤ k := by omega
    interval_cases k <;> simp

theorem nibd (b : Byte) : Statement (.nibd b) := by
  refine ⟨⟨"nibd", 0x00000004, 0xFF00FFFF⟩, by decide, rfl, ?_⟩
  simp only [OpcodeRow.matchesWord, encode, beq_iff_eq]
  ext k hk
  simp only [BitVec.getElem_and, BitVec.getElem_append]
  split
  · interval_cases k <;> simp
  · have : 16 ≤ k := by omega
    interval_cases k <;> simp

theorem clr : Statement .clr := by unfold Statement; decide

end Sys2Proof.Laws.EncodesItsRow
end

