-- ==== Sys2Proof/Laws/Step.lean ====
section
/-! SUPPORT. Everything an engine turn and a step can answer with a next state, as one case analysis each. -/

namespace Sys2Proof.Machine

/-- The next states of an engine turn. -/
inductive EngineOutcome (s : State) : State → Prop where
  | idle (hb : s.busy = false) : EngineOutcome s s
  | busError (hb : s.busy = true) (he : s.eng.berr = true) : EngineOutcome s (raiseError .busError s)
  | done (hb : s.busy = true) (he : s.eng.berr = false) (hp : s.eng.pending = []) (v : Word) : EngineOutcome s (complete v s)
  | read (hb : s.busy = true) (he : s.eng.berr = false) (hp : s.eng.pending ≠ []) (a : Nat) (ha : a ∈ s.eng.pending)
      (hm : memAdmit s.platform a = true) (v : Byte) (hv : v ∈ readCandidates s a) :
      EngineOutcome s { s with eng := { s.eng with
        bytes := insertCell a v s.eng.bytes, pending := s.eng.pending.erase a } }
  | readFails (hb : s.busy = true) (he : s.eng.berr = false) (hp : s.eng.pending ≠ []) (a : Nat) (ha : a ∈ s.eng.pending)
      (hm : memAdmit s.platform a = false) : EngineOutcome s { s with eng := { s.eng with berr := true } }

theorem engineStep_outcome {pick draw : Nat} {s t : State} (h : engineStep pick draw s = .next t) : EngineOutcome s t := by
  rcases engineStep_next.1 h with ⟨hb, rfl⟩ | ⟨hb, hc, h⟩ | ⟨hb, he, hp, rfl⟩
  · exact .idle hb
  · rcases engineComplete_next.1 h with ⟨he, rfl⟩ | ⟨he, _, rfl⟩ | ⟨he, _, rfl⟩
    · exact .busError hb he
    · exact .done hb he (by simpa [he] using hc) _
    · exact .done hb he (by simpa [he] using hc) _
  · rcases engineRead_cases pick draw s with ⟨hm, h⟩ | ⟨hm, h⟩ <;> rw [h]
    · exact .read hb he hp _ (pickedAddress_mem hp pick) hm _ (deviceByte_mem _ _ _)
    · exact .readFails hb he hp _ (pickedAddress_mem hp pick) hm

/-- The next states of a step, by what happened. -/
inductive StepOutcome (s : State) : State → Prop where
  | rest (h : s.inputs = []) (hb : s.busy = false) : StepOutcome s s
  | engine (h : s.inputs = [] ∨ ∃ pick draw rest, s.inputs = .engine pick draw :: rest) (es : List Event) (k pick draw : Nat)
      {t : State} (ht : engineStep pick draw { s with inputs := es, draws := k } = .next t) : StepOutcome s t
  | read {rest : List Event} {bits offset : Nat} (h : s.inputs = .hostRead bits offset :: rest) (w : Option Word) :
      StepOutcome s { s with inputs := rest, readData := w }
  | command {rest : List Event} {v : Word} (h : s.inputs = .hostWrite 32 0x10 v :: rest) {i : Instr} (hd : decode v = .ok i)
      {t : State} (ht : exec i { s with inputs := rest } = .next t) : StepOutcome s t
  | illegalIgnored {rest : List Event} {v : Word} (h : s.inputs = .hostWrite 32 0x10 v :: rest) {e : Illegal}
      (hd : decode v = .error e) (hb : s.busy = true) : StepOutcome s (setIgnored { s with inputs := rest })
  | illegal {rest : List Event} {v : Word} (h : s.inputs = .hostWrite 32 0x10 v :: rest) {e : Illegal}
      (hd : decode v = .error e) (hb : s.busy = false) :
      StepOutcome s (raiseError .illegalCmd (clearOutcome { s with inputs := rest }))
  | register {rest : List Event} {offset : Nat} {v : Word} (h : s.inputs = .hostWrite 32 offset v :: rest) {t : State}
      (ht : WriteOutcome offset v { s with inputs := rest } t) : StepOutcome s t
  | store {rest : List Event} {a : Word} {v : Byte} (h : s.inputs = .hostStore a v :: rest) :
      StepOutcome s (storeByte { s with inputs := rest } a.toNat v)
  | clean {rest : List Event} {a : Word} (h : s.inputs = .hostClean a :: rest) :
      StepOutcome s (cleanByte { s with inputs := rest } a.toNat)
  | reset {rest : List Event} (h : s.inputs = .reset :: rest) : StepOutcome s (resetDevice { s with inputs := rest })

theorem step_outcome {s t : State} (h : step s = .next t) : StepOutcome s t := by
  rcases step_next.1 h with ⟨hi, h⟩ | ⟨e, rest, hi, h⟩
  · rcases unscheduledStep_next.1 h with ⟨hb, rfl⟩ | ⟨hb, h⟩
    · exact .rest hi hb
    · exact .engine (.inl hi) s.inputs _ _ _ h
  cases e with
  | hostRead bits offset =>
    obtain ⟨_, rfl⟩ := hostRead_next.1 h
    exact .read hi _
  | hostWrite bits offset v =>
    obtain ⟨ha, h⟩ := hostWrite_next.1 h
    have hb := (accessAdmitted_iff.1 ha).1
    clear * - h hi hb
    subst hb
    rcases h with ⟨rfl, h⟩ | ⟨_, rfl⟩
    · rcases writeCmd_next.1 h with ⟨i, hd, hx⟩ | ⟨e, hd, ⟨hb, rfl⟩ | ⟨hb, rfl⟩⟩
      · exact .command hi hd hx
      · exact .illegalIgnored hi hd hb
      · exact .illegal hi hd hb
    · exact .register hi (writeReg_outcome _ _ _)
  | hostStore a v =>
    obtain ⟨_, rfl⟩ := hostStore_next.1 h
    exact .store hi
  | hostClean a =>
    rw [← next_eq_next.1 h]
    exact .clean hi
  | engine pick draw => exact .engine (.inr ⟨pick, draw, rest, hi⟩) rest s.draws pick draw h
  | reset =>
    rw [← next_eq_next.1 h]
    exact .reset hi

end Sys2Proof.Machine
end

