-- ==== Sys2Proof/Tests/Slice0.lean ====
section
/-! SUPPORT. Tests. Expected values are the tables of 95_test_vectors, or hand calculation from the rule a comment names.
The theorems named `witness_...` show a concrete input that meets the hypotheses of the obligation they name. -/

namespace Sys2Proof.Tests

open Sys2Proof Sys2Proof.Machine

/-! ## WellFormed: each check refuses an ill-formed term -/

theorem test_wf_cvth_operand : AsmLine.wellFormed ⟨"cvth", some 0x10000⟩ = false ∧ AsmLine.wellFormed ⟨"cvth", some 0xFFFF⟩ = true := by
  decide

theorem test_wf_cvth_needs_operand : AsmLine.wellFormed ⟨"cvth", none⟩ = false := by decide

theorem test_wf_nibd_operand : AsmLine.wellFormed ⟨"nibd", some 256⟩ = false ∧ AsmLine.wellFormed ⟨"nibd", some 255⟩ = true := by
  decide

theorem test_wf_no_operand : AsmLine.wellFormed ⟨"nop", some 0⟩ = false ∧ AsmLine.wellFormed ⟨"dot", none⟩ = true := by decide

theorem test_wf_unknown_mnemonic : AsmLine.wellFormed ⟨"add", none⟩ = false ∧ AsmLine.wellFormed ⟨".word", some 6⟩ = false := by
  decide

theorem test_wf_instr : ([.nop, .dotPair2, .dotQuad4, .dotSeq, .isum, .cvth 0xFFFF, .nibd 0xFF, .clr] : List Instr).all Instr.wellFormed = true := by
  decide

theorem test_wf_platform_base : Platform.wellFormed { Platform.reset with qdpaBase := 0x40000002 } = false ∧
    Platform.wellFormed Platform.reset = true := by decide

theorem test_wf_platform_region : Platform.wellFormed { Platform.reset with admitted := [⟨1, 2 ^ 32⟩] } = false ∧
    Platform.wellFormed { Platform.reset with sideEffects := [⟨2 ^ 32, 1⟩] } = false := by decide

theorem test_wf_access : accessAdmitted 8 0x0C = false ∧ accessAdmitted 32 0x02 = false ∧ accessAdmitted 32 0x40 = false ∧
    accessAdmitted 32 0x3C = true := by decide

/-! ## Decoding: words written out from 30_encoding (95_test_vectors 2.6) -/

theorem test_decode_nop : decode 0b00000000000000000000000000000000 = .ok .nop := rfl
theorem test_decode_dotPair2 : decode 0b00000000000000000000000000000001 = .ok .dotPair2 := rfl
theorem test_decode_dotQuad4 : decode 0b00000000000000000000000000010001 = .ok .dotQuad4 := rfl
theorem test_decode_dotSeq : decode 0b00000000000000000000000000100001 = .ok .dotSeq := rfl
theorem test_decode_isum : decode 0b00000000000000000000000000000010 = .ok .isum := rfl
theorem test_decode_cvth : decode 0b00111100000000000000000000000011 = .ok (.cvth 0x3C00) := rfl
theorem test_decode_nibd : decode 0b00000000100111110000000000000100 = .ok (.nibd 0x9F) := rfl
theorem test_decode_clr : decode 0b00000000000000000000000000000101 = .ok .clr := rfl

theorem test_decode_illegal : decode 0x00000031 = .error .reservedMode ∧ decode 0x00000012 = .error .modeOutsideDot ∧
    decode 0x019F0004 = .error .immediateBits ∧ decode 0x00000006 = .error .reservedOp ∧ decode 0x0000000F = .error .reservedOp ∧
    decode 0x00000040 = .error .reservedBits ∧ decode 0x00008001 = .error .reservedBits ∧
    decode 0x00010000 = .error .immediateBits ∧ decode 0x00010001 = .error .immediateBits ∧
    decode 0x3C000013 = .error .modeOutsideDot := ⟨rfl, rfl, rfl, rfl, rfl, rfl, rfl, rfl, rfl, rfl⟩

theorem test_decodeTableWord : decodeTableWord 32 0xFFFF0003 = some (.cvth 0xFFFF) ∧ decodeTableWord 32 0x31 = none := ⟨rfl, rfl⟩

theorem test_assembler : assemble ⟨"nibd", some 0x9F⟩ = some 0x009F0004 ∧ assemble ⟨"dot", none⟩ = some 0x00000001 ∧
    disassemble 0x00000006 = ⟨".word", some 6⟩ := ⟨rfl, rfl, rfl⟩

/-! ## Small inputs -/

/-- The bytes of `l` from address 0, zero beyond. -/
def bytesOf (l : List Byte) (a : Nat) : Byte := l.getD a 0

/-- A Q4 block: the scale's bytes, then `q0` and fifteen zero-point bytes. -/
def weightBytes (scale : Half) (q0 : Byte) : List Byte :=
  [scale.setWidth 8, (scale >>> 8).setWidth 8, q0] ++ List.replicate 15 0x88

/-- A Q8 block: the scale's bytes, then `a0` and 31 zeros. -/
def activationBytes (scale : Half) (a0 : Byte) : List Byte :=
  [scale.setWidth 8, (scale >>> 8).setWidth 8, a0] ++ List.replicate 31 0x00

/-- One block pair, the weight block at 0 and the activation block at 18. -/
def onePair (ws : Half) (q0 : Byte) (as : Half) (a0 : Byte) : Nat → Byte := bytesOf (weightBytes ws q0 ++ activationBytes as a0)

/-- Two block pairs, the weight blocks at 0 and the activation blocks at 36. -/
def twoPairs (ws ws' : Half) : Nat → Byte :=
  bytesOf (weightBytes ws 0x89 ++ weightBytes ws' 0x89 ++ activationBytes 0x3C00 1 ++ activationBytes 0x3C00 1)

/-- An idle device after reset with N, WADDR and AADDR set. -/
def ready (n w a : Word) : State := { State.reset with n := n, waddr := w, aaddr := a, result := 0x00010007 }

/-- An outcome is a next state that passes a check. -/
def nextWith (check : State → Bool) : Host.Outcome State Fault Refusal → Bool
  | .next t => check t
  | .fault _ => false
  | .refused _ => false

/-- The first CMD write of 95_test_vectors P1 has been accepted. -/
def started : State := startEngine .dot .pair2 1 (ready 32 0x1000 0x2000)

/-- The engine has read all there is to read. -/
def allRead : State := { started with eng := { started.eng with pending := [] } }

/-- The engine of an ISUM has read all there is to read. -/
def allReadIsum : State := { allRead with eng := { allRead.eng with op := .isum } }

/-- An engine read has failed. -/
def readFailed : State := { started with eng := { started.eng with berr := true } }

/-! ## One small test or two of each instruction (95_test_vectors 2) -/

theorem test_nop : nextWith (fun t => t.result = 0x00010007 && statusWord t = 0x00000002) (exec .nop (ready 0 0 0)) = true := by decide

theorem test_clr : nextWith (fun t => t.result = 0 && statusWord t = 0x00000002) (exec .clr { ready 0 0 0 with ign := true }) = true := by decide

theorem test_clr_busy : nextWith (fun t => t.result = 0x00010007 && t.ign && t.busy) (exec .clr { started with result := 0x00010007 }) = true := by
  decide +kernel

theorem test_cvth_subnormal : nextWith (fun t => t.result = 0x387FC000) (exec (.cvth 0x03FF) State.reset) = true := by decide +kernel

theorem test_cvth_nan : nextWith (fun t => t.result = 0xFFC02000) (exec (.cvth 0xFE01) State.reset) = true := by decide +kernel

theorem test_nibd : nextWith (fun t => t.result = 0xFFFF0007) (exec (.nibd 0x7F) State.reset) = true := by decide +kernel

theorem test_nibd_ends : nextWith (fun t => t.result = 0xFFF80007) (exec (.nibd 0x0F) State.reset) = true := by decide +kernel

theorem test_dotPair2_bad_length :
    nextWith (fun t => statusWord t = 0x00000204 && t.result = 0x00010007) (exec .dotPair2 (ready 48 0x1000 0x2000)) = true := by decide +kernel

theorem test_dotPair2_m5 : pair2Reduce [0x4B800000, 0x3F800000, 0x40400000, 0xCB800000, 0xCB800000] = 0xCB7FFFFB := by decide +kernel

theorem test_dotQuad4_range :
    nextWith (fun t => statusWord t = 0x00000304) (exec .dotQuad4 (ready 32 0xFFFFFFF0 0x2000)) = true := by decide +kernel

theorem test_dotSeq_accepted :
    nextWith (fun t => statusWord t = 0x00000001 && t.eng.mode = .seq && t.eng.pending.length = 52) (exec .dotSeq (ready 32 0x1000 0x2000)) = true := by
  decide +kernel

/-- A group of four and a remainder of three: the pair in two fresh totals, the single block last (M7). -/
theorem test_dotQuad4_m7 :
    quad4Reduce [0x4B800000, 0x4B800000, 0x3F800000, 0xBF800000, 0xCB800000, 0xBF800000, 0xCB800000] = 0x00000000 := by decide +kernel

theorem test_dotSeq_m8 :
    seqReduce [0x4B800000, 0x4B800000, 0x4B800000, 0xCB800000, 0xCB800000, 0xBF800000, 0x40400000, 0xCB800000] = 0x40000000 := by
  decide +kernel

theorem test_isum_range : nextWith (fun t => statusWord t = 0x00000304) (exec .isum (ready 0 0x1000 0xFFFFFFDF)) = true := by decide +kernel

/-- I7: the high nibble of byte 0 pairs with element 16. -/
theorem test_isum_pairing :
    isumResult (bytesOf (weightBytes 0x3C00 0xF8 ++ activationBytes 0x3C00 5)) 0 18 = 0x00000000 ∧
    isumResult (fun a => if a = 36 then 3 else onePair 0x3C00 0xF8 0x3C00 5 a) 0 18 = 0x00000015 := by decide +kernel

/-- B2: the contribution is rounded once. -/
theorem test_contribution_rounding :
    blockContribution (fun a => if a = 36 then 3 else onePair 0x3BFF 0xF8 0x3BFF 5 a) 0 18 = 0x41A7D603 := by decide +kernel

theorem test_illegal : nextWith (fun t => statusWord t = 0x00000104 && t.result = 0x00010007) (hostWrite 32 0x10 0x31 (ready 0 0 0)) = true := by decide +kernel

theorem test_status_w1c : nextWith (fun t => statusWord t = 0x00000104)
    (hostWrite 32 0x0C 0x2 { State.reset with err := true, errcode := 1 }) = true := by decide

theorem test_ctrl_reserved : nextWith (fun t => ctrlWord t = 1) (hostWrite 32 0x08 0xFFFFFFFF State.reset) = true := by decide

theorem test_step_runs_word : nextWith (fun t => t.result = 0x3F7FE000) (step (State.reset.withFetchWord 32 0x3BFF0003)) = true := by
  decide +kernel

theorem test_engine_read_order : pickedAddress started.eng 0 = 0x1000 ∧ pickedAddress started.eng 51 = 0x2021 := by decide +kernel

theorem test_bus_error : nextWith (fun t => statusWord t = 0x00000404) (engineStep 0 0 readFailed) = true := by decide +kernel

/-! ## Witnesses: encoding and arithmetic -/

theorem witness_IllegalWordsEndAtOnce : decode 0x00000006 = .error .reservedOp ∧ decode 0x00000031 = .error .reservedMode ∧
    decode 0x00000040 = .error .reservedBits ∧ decode 0x00000010 = .error .modeOutsideDot ∧
    decode 0x00010002 = .error .immediateBits ∧ decode 0x01000004 = .error .immediateBits ∧ State.reset.busy = false ∧
    decode 0 = .ok .nop := ⟨rfl, rfl, rfl, rfl, rfl, rfl, rfl, rfl⟩

theorem witness_LegalWordsAreTheTableWords : decode 0x00FF0004 = .ok (.nibd 0xFF) ∧
    ⟨"nibd", 0x00000004, 0xFF00FFFF⟩ ∈ opcodeTable ∧ (0x00FF0004 : Word) &&& 0xFF00FFFF = 0x00000004 := by
  refine ⟨rfl, ?_, ?_⟩ <;> decide

theorem witness_AssemblerRoundTrip : assemble ⟨"cvth", some 0xFFFF⟩ = some 0xFFFF0003 ∧ assemble ⟨"dot", none⟩ = some 1 ∧
    decode 0x00000006 = .error .reservedOp := ⟨rfl, rfl, rfl⟩

theorem witness_WideningIsExact : f16Val 0xFBFF = .fin true (65504 * 2 ^ 24) ∧ f16Val 0x0001 = .fin false 1 ∧
    f16Val 0xFC00 = .inf true := by decide +kernel

/-- Just below the overflow threshold, at it, and a tie between two neighbours. -/
theorem witness_RoundingIsNearestEven : 0 < (2 ^ 128 - 2 ^ 103) * 2 ^ 149 - 1 ∧
    (2 ^ 128 - 2 ^ 103) * 2 ^ 149 - 1 < (2 ^ 128 - 2 ^ 103) * 2 ^ (149 + 0) ∧
    (2 ^ 128 - 2 ^ 103) * 2 ^ (149 + 0) ≤ (2 ^ 128 - 2 ^ 103) * 2 ^ 149 ∧
    f32Val (roundRne32 false (2 ^ 24 + 1) 0) = .fin false (2 ^ 24) ∧ f32Val 0x01000001 = .fin false (2 ^ 24 + 2) ∧
    |((2 ^ 24 + 1 : Nat) : Int) - (2 ^ 24 : Nat) * 2 ^ 0| = |((2 ^ 24 + 1 : Nat) : Int) - (2 ^ 24 + 2 : Nat) * 2 ^ 0| := by
  decide +kernel

theorem witness_IntegerToFloatIsExact : (-(2 ^ 24) : Int).natAbs ≤ 2 ^ 24 := by decide

theorem witness_FloatOperationCases : f32Val 0x7F800001 = .nan ∧ f32Val 0xFF800000 = .inf true ∧ f32Val 0x7F800000 = .inf false ∧
    f32Val 0x80000000 = .fin true 0 ∧ f32Val 0x3F800000 = .fin false (2 ^ 149) ∧ f32Val 0xBF800000 = .fin true (2 ^ 149) ∧
    signedUnits false (2 ^ 149) + signedUnits true (2 ^ 149) = 0 ∧ signedUnits false (2 ^ 149) + signedUnits true 0 ≠ 0 ∧
    2 ^ 149 * 0 = 0 ∧ 2 ^ 149 * 2 ^ 149 ≠ 0 := by decide +kernel

theorem witness_IntegerSumRange :
    (∀ j < 16, (fun a => if a < 18 then (0x00 : Byte) else 0x80) (0 + 2 + j) = 0x00) ∧
    (∀ i < 32, (fun a => if a < 18 then (0x00 : Byte) else 0x80) (18 + 2 + i) = 0x80) ∧
    (∀ i < 32, (fun a => if a < 18 then (0x00 : Byte) else 0x7F) (18 + 2 + i) = 0x7F) ∧
    (∅ : Finset Nat) ⊆ Finset.range 32 := by
  refine ⟨?_, ?_, ?_, ?_⟩ <;> decide

/-- Finite scales, a NaN, an infinity with a zero, an infinity with a nonzero value, and each with a nonzero and a zero sum. -/
theorem witness_BlockContributionExactness :
    f16Val (blockScale (onePair 0x3C00 0x89 0x3800 1) 0) = .fin false (2 ^ 24) ∧
    f16Val (blockScale (onePair 0x3C00 0x89 0x3800 1) 18) = .fin false (2 ^ 23) ∧
    blockSum (onePair 0x3C00 0x89 0x3800 1) 0 18 = 1 ∧
    f16Val (blockScale (onePair 0x7E00 0x89 0x3800 1) 0) = .nan ∧
    f16Val (blockScale (onePair 0x7C00 0x89 0x8000 1) 0) = .inf false ∧
    f16Val (blockScale (onePair 0x7C00 0x89 0x8000 1) 18) = .fin true 0 ∧
    f16Val (blockScale (onePair 0x3800 0x89 0xFC00 1) 18) = .inf true ∧ blockSum (onePair 0x3800 0x89 0xFC00 1) 0 18 ≠ 0 ∧
    f16Val (blockScale (onePair 0x3800 0x88 0xFC00 1) 18) = .inf true ∧ blockSum (onePair 0x3800 0x88 0xFC00 1) 0 18 = 0 := by
  decide +kernel

/-- Contributions with a NaN, with both infinities, with one infinity, and all finite. -/
theorem witness_NonFiniteDotResults :
    contributions (twoPairs 0x7E00 0x3C00) 0 36 2 = [0x7FC00000, 0x3F800000] ∧
    contributions (twoPairs 0x7C00 0xFC00) 0 36 2 = [0x7F800000, 0xFF800000] ∧
    contributions (twoPairs 0x3C00 0xFC00) 0 36 2 = [0x3F800000, 0xFF800000] ∧
    contributions (twoPairs 0x3C00 0xBC00) 0 36 2 = [0x3F800000, 0xBF800000] := by decide +kernel

/-- Totals that are not -0, added to contributions that are. -/
theorem witness_DotResultIsNeverNegativeZero : (0x00000000 : Word) ≠ 0x80000000 ∧
    pairLoop 0 0 [0x80000000, 0x80000000] = (0, 0, []) := by decide +kernel

theorem witness_ZeroInputsGiveZero :
    (∀ k < 1, ∀ j < 16, onePair 0xBC00 0x88 0x7BFF 1 (0 + 18 * k + 2 + j) = 0x88) ∧
    (∀ k < 1, ∀ i < 32, onePair 0xBC00 0x89 0x7BFF 0 (18 + 34 * k + 2 + i) = 0x00) ∧
    FiniteHalf (blockScale (onePair 0xBC00 0x88 0x7BFF 1) 0) ∧ FiniteHalf (blockScale (onePair 0xBC00 0x88 0x7BFF 1) 18) ∧
    ¬ FiniteHalf (blockScale (onePair 0x7C00 0x88 0x7BFF 1) 0) ∧ ¬ FiniteHalf (blockScale (onePair 0xBC00 0x88 0x7C01 1) 18) := by
  refine ⟨by decide +kernel, by decide +kernel, ⟨true, 2 ^ 24, by decide +kernel⟩, ⟨false, 65504 * 2 ^ 24, by decide +kernel⟩, ?_, ?_⟩
  · rw [show blockScale (onePair 0x7C00 0x88 0x7BFF 1) 0 = 0x7C00 by decide +kernel]
    rintro ⟨neg, units, h⟩
    simp [f16Val] at h
  · rw [show blockScale (onePair 0xBC00 0x88 0x7C01 1) 18 = 0x7C01 by decide +kernel]
    rintro ⟨neg, units, h⟩
    simp [f16Val] at h

/-- At the largest unit and the largest sum; a zero contribution may have either sign. -/
theorem witness_ExactSumsAgreeInEveryMode : (252 : Nat) ≤ 252 ∧ (([2 ^ 23, -(2 ^ 23), 0] : List Int).map Int.natAbs).sum ≤ 2 ^ 24 ∧
    List.Forall₂ (fun c i => ∃ neg, f32Val c = .fin neg (i.natAbs * 2 ^ 252) ∧ (i ≠ 0 → neg = decide (i < 0)))
      [0x7E800000, 0xFE800000, 0x80000000] ([2 ^ 23, -(2 ^ 23), 0] : List Int) := by
  refine ⟨le_refl _, by decide, .cons ⟨false, by decide +kernel, by decide⟩ (.cons ⟨true, by decide +kernel, by decide⟩
    (.cons ⟨true, by decide +kernel, by decide⟩ .nil))⟩

theorem witness_ResultsReadOnlyTheirRanges : (∀ a, InInputRanges 0 18 1 a → (fun _ : Nat => (0 : Byte)) a = (fun a => if a < 52 then 0 else 1) a) ∧
    (0 : Nat) < 1 := by
  refine ⟨fun a h => ?_, by decide⟩
  have : a < 52 := by
    rcases h with ⟨_, h⟩ | ⟨_, h⟩ <;> omega
  simp [this]

/-! ## Witnesses: commands -/

/-- NopCompletes, ClrCompletes, CvthCompletes, NibdCompletes, OperandWritesStoreUnchecked, IdleEngineTakesNoStep. -/
theorem witness_idle : State.reset.busy = false ∧ State.reset.inputs = [] ∧ f16Val 0xFC01 = .nan := by decide +kernel

/-- A platform whose side-effect region starts right after the last input byte of block pairs at 0xFFFFFFDC and 0x1000. -/
def beside (s : State) (r : Region) : State := { s with platform := { s.platform with sideEffects := [r] } }

/-- 95_test_vectors I11 and I13: the last legal weight and activation addresses of one block. -/
theorem witness_IsumStartsTheEngine : (ready 0 0xFFFFFFEE 0xFFFFFFDE).busy = false ∧ RangesInSpace (ready 0 0xFFFFFFEE 0xFFFFFFDE) 1 ∧
    NoSideEffectInput (beside (ready 0 0xFFFFFFEE 0xFFFFFFDE) ⟨0xFFFFFF00, 0xDE⟩) 1 :=
  ⟨rfl, ⟨by decide, by decide⟩, touchesSideEffects_iff.1 (by decide +kernel)⟩

/-- 95_test_vectors E7: the greatest block count two ranges from 0 fit. -/
theorem witness_DotStartsTheEngine : LegalCount (ready 0xF0F0F0E0 0 0) 126322567 ∧ RangesInSpace (ready 0xF0F0F0E0 0 0) 126322567 ∧
    NoSideEffectInput (ready 0xF0F0F0E0 0 0) 126322567 ∧ (ready 0xF0F0F0E0 0 0).busy = false ∧ (Instr.dotPair2, Mode.pair2) ∈ dotCommands :=
  ⟨⟨by decide, by decide⟩, ⟨by decide, by decide⟩, nofun, rfl, by decide⟩

theorem witness_DotBadLength : (ready 0 0 0).n.toNat = 0 ∧ (ready 0xFFFFFFFF 0 0).n.toNat % 32 ≠ 0 ∧
    exec .isum (ready 0 0 0xFFFFFFFF) = .next (raiseError .range (clearOutcome (ready 0 0 0xFFFFFFFF))) ∧ (ready 0 0 0).busy = false :=
  ⟨by decide, by decide, rfl, rfl⟩

/-- 95_test_vectors E8 and E5. -/
theorem witness_RangeError : LegalCount (ready 0xF0F0F100 0 0) 126322568 ∧ ¬ RangesInSpace (ready 0xF0F0F100 0 0) 126322568 ∧
    LegalCount (ready 32 0xFFFFFFF0 0) 1 ∧ ¬ RangesInSpace (ready 32 0xFFFFFFEF 0) 1 ∧ ¬ RangesInSpace (ready 0 0 0xFFFFFFDF) 1 ∧
    (ready 32 0 0).busy = false :=
  ⟨⟨by decide, by decide⟩, fun h => absurd h.2 (by decide), ⟨by decide, by decide⟩, fun h => absurd h.1 (by decide),
    fun h => absurd h.2 (by decide), rfl⟩

/-- A side-effect region that starts at the last byte of the activation range. -/
theorem witness_SideEffectInputsAreRefused : ¬ NoSideEffectInput (beside (ready 32 0x1000 0x2000) ⟨0x2021, 4⟩) 1 ∧
    LegalCount (beside (ready 32 0x1000 0x2000) ⟨0x2021, 4⟩) 1 ∧ RangesInSpace (beside (ready 32 0x1000 0x2000) ⟨0x2021, 4⟩) 1 := by
  refine ⟨fun h => h ⟨0x2021, 4⟩ (by simp [beside]) 0x2021 (.inr ⟨by decide, by decide⟩) ⟨by decide, by decide⟩, ⟨by decide, by decide⟩,
    ⟨by decide, by decide⟩⟩

theorem witness_WritesWhileBusyAreIgnored : started.busy = true ∧ 0x1C ∈ [0x10, 0x14, 0x18, 0x1C] := ⟨rfl, by decide⟩

/-- A word that completes at once, and one that starts the engine. -/
theorem witness_CommandOutcomeWithinTheWrite : State.reset.busy = false ∧
    hostWrite 32 0x10 0x0 State.reset = .next (complete 0 (clearOutcome State.reset)) ∧
    hostWrite 32 0x10 0x1 (ready 32 0x1000 0x2000) = .next started := ⟨rfl, rfl, rfl⟩

theorem witness_CommandFrame : exec .isum started = .next (setIgnored started) ∧
    exec .dotPair2 (ready 32 0x1000 0x2000) = .next started ∧ exec .nop State.reset = .next (complete 0 (clearOutcome State.reset)) ∧
    State.reset.busy = false := ⟨rfl, rfl, rfl, rfl⟩

/-! ## Witnesses: the register window -/

theorem witness_RegisterReads : 0x00 % 4 = 0 ∧ 0x00 ≤ 0x3C ∧ 0x3C % 4 = 0 ∧ 0x3C ≤ 0x3C ∧ 0x24 ≤ 0x3C := by decide

theorem witness_StatusWriteOneToClear : (0xE : Word).getLsbD 1 = true ∧ (0xE : Word).getLsbD 2 = true ∧ (0xE : Word).getLsbD 3 = true ∧
    (0xFFFFFFF1 : Word).getLsbD 1 = false ∧ (0xFFFFFFF1 : Word).getLsbD 2 = false ∧ (0xFFFFFFF1 : Word).getLsbD 3 = false := by decide

theorem witness_ReadOnlyOffsetsIgnoreWrites : 0x20 % 4 = 0 ∧ 0x20 ≤ 0x20 ∧ 0x3C % 4 = 0 ∧ 0x20 ≤ 0x3C ∧ 0x24 ≤ 0x3C := by decide

theorem witness_UnadmittedAccessesFault : ¬ (8 = 32 ∧ 0x0C % 4 = 0 ∧ 0x0C ≤ 0x3C) ∧ ¬ (32 = 32 ∧ 2 % 4 = 0 ∧ 2 ≤ 0x3C) ∧
    ¬ (32 = 32 ∧ 0x40 % 4 = 0 ∧ 0x40 ≤ 0x3C) := by decide

theorem witness_InterruptOutput : (0x6 : Word).getLsbD 1 = true ∧ (0x6 : Word).getLsbD 2 = true ∧ (0xFFFFFFFE : Word).getLsbD 0 = false := by
  decide

/-! ## Witnesses: the engine and the step -/

/-- One with the last byte admitted and one with it not admitted. -/
theorem witness_EngineReadsOnePendingByte : started.busy = true ∧ started.eng.berr = false ∧ 0x2021 ∈ started.eng.pending ∧
    memAdmit started.platform 0x2021 = true ∧ memAdmit { Platform.reset with admitted := [⟨0, 0x2021⟩] } 0x2021 = false ∧
    memAdmit Platform.reset 0x40000000 = false ∧ memAdmit Platform.reset 0x4000003F = false ∧
    memAdmit Platform.reset 0x40000040 = true ∧ (0 : Byte) ∈ readCandidates started 0x2021 := by
  decide +kernel

theorem status_of_busy {s : State} (h1 : s.done = false) (h2 : s.err = false) (h3 : s.errcode = 0) : StatusInv s := by
  constructor <;> simp [h1, h2, h3]

theorem witness_EngineCompletionEndsTheCommand : StatusInv readFailed ∧ readFailed.busy = true ∧ readFailed.eng.berr = true ∧
    StatusInv allRead ∧ allRead.eng.berr = false ∧ allRead.eng.pending = [] ∧ allRead.eng.op = .dot ∧
    StatusInv allReadIsum ∧ allReadIsum.busy = true ∧ allReadIsum.eng.op = .isum :=
  ⟨status_of_busy rfl rfl rfl, rfl, rfl, status_of_busy rfl rfl rfl, rfl, rfl, rfl, status_of_busy rfl rfl rfl, rfl, rfl⟩

/-- A platform without coherence on which the host has stored 7, then 9, to 0x1000 and cleaned neither. -/
def uncleanedStores (s : State) : State :=
  { s with platform := { s.platform with coherent := false }, hostStores := [(0x1000, 9), (0x1000, 7)], uncleaned := [0x1000] }

/-- Stores with BUSY 1, with BUSY 0 and without coherence, the last address before the register window, and cleans with
nothing to do, with BUSY 0 and with BUSY 1. -/
theorem witness_RacingReadsReturnHeldValues : 0x1000 ∉ State.reset.uncleaned ∧ started.platform.coherent = true ∧
    started.busy = true ∧ Memory.rising started.mem ∧ State.reset.platform.coherent = true ∧ State.reset.busy = false ∧
    Memory.rising State.reset.mem ∧ (uncleanedStores started).platform.coherent = false ∧
    inWindow Platform.reset 0x3FFFFFFF = false ∧ inWindow Platform.reset 0x40000000 = true ∧
    0x1000 ∈ (uncleanedStores started).uncleaned ∧ valuesAt 0x1000 (uncleanedStores started).hostStores = 9 :: [7] ∧
    (uncleanedStores started).busy = true ∧ Memory.rising (uncleanedStores started).mem ∧
    (uncleanedStores State.reset).busy = false := by
  decide +kernel

/-- A store, then an uncleaned one and its clean, with the values a device read may return (hand calculation from R86, U18). -/
theorem test_store_and_clean : memRead (storeByte State.reset 0x1000 7).mem 0x1000 = 7 ∧
    readCandidates (storeByte started 0x1000 7) 0x1000 = [7, 0] ∧
    readCandidates (uncleanedStores State.reset) 0x1000 = [0, 9, 7] ∧
    readCandidates (cleanByte (uncleanedStores State.reset) 0x1000) 0x1000 = [9] ∧
    memRead (cleanByte (uncleanedStores State.reset) 0x1000).mem 0x1000 = 9 := by decide +kernel

/-- The state with one event, then a reset, to come. -/
def facing (e : Event) : State := { State.reset with inputs := [e, .reset] }

theorem witness_StepRunsTheDecodedCommand : (facing (.hostWrite 32 0x10 0x009F0004)).inputs = .hostWrite 32 0x10 0x009F0004 :: [.reset] ∧
    decode 0x009F0004 = .ok (.nibd 0x9F) ∧ (facing (.hostWrite 32 0x10 0x31)).inputs = .hostWrite 32 0x10 0x31 :: [.reset] ∧
    decode 0x31 = .error .reservedMode ∧ (facing (.hostRead 32 0x3C)).inputs = .hostRead 32 0x3C :: [.reset] ∧
    (facing (.hostWrite 32 0x3C 1)).inputs = .hostWrite 32 0x3C 1 :: [.reset] ∧
    (facing (.hostStore 0xFFFFFFFF 1)).inputs = .hostStore 0xFFFFFFFF 1 :: [.reset] ∧
    (facing (.hostClean 0)).inputs = .hostClean 0 :: [.reset] ∧ (facing (.engine 5 0)).inputs = .engine 5 0 :: [.reset] ∧
    (facing .reset).inputs = .reset :: [.reset] ∧ started.inputs = [] ∧ started.busy = true ∧ State.reset.inputs = [] ∧
    State.reset.busy = false := ⟨rfl, rfl, rfl, rfl, rfl, rfl, rfl, rfl, rfl, rfl, rfl, rfl, rfl, rfl⟩

/-! ## Witnesses: the invariants and the runs -/

theorem started_engineInv : EngineInv started where
  busyHasOp := by decide +kernel
  restWhenIdle := nofun
  bases := fun _ => ⟨rfl, rfl⟩
  dotCount := fun _ => ⟨by decide +kernel, by decide +kernel⟩
  isumCount := nofun
  rangesFit := fun _ => by decide +kernel
  pendingOnce := inputAddresses_nodup _ _ _
  bytesRising := by decide +kernel
  pendingOrRead := fun _ a => by
    have h : a ∈ started.eng.pending ↔ InInputRanges started.waddr.toNat started.aaddr.toNat started.eng.nb.toNat a := mem_inputAddresses
    rw [h]
    exact ⟨.inl, fun h => h.resolve_right nofun⟩
  notBoth := fun _ _ => rfl

/-- StatusInvariantIsKept, EngineInvariantIsKept, MemoryFormIsKept, EngineNeverLacksItsCommand, on a state with a command in
progress and an event to come. -/
theorem witness_Invariants : RunInv started ∧ step (queueCommand 0x5 started) = .next (setIgnored started) :=
  ⟨⟨status_of_busy rfl rfl rfl, started_engineInv, reset_memory_wf⟩, rfl⟩

/-- BusyChangesOnlyAtStartAndEnd: a step that sets BUSY and one that clears it. -/
theorem witness_BusyChangesOnlyAtStartAndEnd : step (queueCommand 0x1 (ready 32 0x1000 0x2000)) = .next started ∧
    (queueCommand 0x1 (ready 32 0x1000 0x2000)).busy = false ∧ started.busy = true ∧
    step { readFailed with inputs := [.engine 0 0] } = .next (raiseError .busError readFailed) ∧
    step { started with inputs := [.reset] } = .next (resetDevice started) := ⟨rfl, rfl, rfl, rfl, rfl⟩

/-- IgnIsSticky: the three ways IGN is cleared. -/
theorem witness_IgnIsSticky :
    nextWith (fun t => !t.ign) (step { State.reset with ign := true, inputs := [.hostWrite 32 0x0C 0x8] }) = true ∧
    nextWith (fun t => !t.ign) (step { State.reset with ign := true, inputs := [.hostWrite 32 0x10 0x5] }) = true ∧
    nextWith (fun t => !t.ign) (step { State.reset with ign := true, inputs := [.reset] }) = true := by decide +kernel

/-- ResultChangesOnlyAtCompletion: RESULT changes at reset, at a command's acceptance and at a completion step. -/
theorem witness_ResultChangesOnlyAtCompletion :
    nextWith (fun t => t.result ≠ 0x00010007) (step { ready 0 0 0 with inputs := [.reset] }) = true ∧
    nextWith (fun t => t.result ≠ 0x00010007) (step { ready 0 0 0 with inputs := [.hostWrite 32 0x10 0x5] }) = true ∧
    step { allReadIsum with inputs := [.engine 0 0] } =
      .next (complete (isumResult (engineByte allReadIsum.eng) 0x1000 0x2000) allReadIsum) := ⟨by decide +kernel, by decide +kernel, rfl⟩

/-- DeviceNeverWritesMemory: a step that is neither a host store nor a clean, with memory to keep. -/
theorem witness_DeviceNeverWritesMemory :
    nextWith (fun t => memRead t.mem 0x1000 = 7) (step { started with mem := [(0x1000, 7)], inputs := [.engine 0 0] }) = true := by
  decide +kernel

theorem witness_EveryCommandEnds : RunInv started ∧ started.busy = true ∧ OnlyEngineTurns { started with inputs := [.engine 5 0] } ∧
    started.eng.pending.length < 53 :=
  ⟨witness_Invariants.1, rfl, fun e he => ⟨5, 0, by simpa using he⟩, by decide +kernel⟩

/-- One block just below the register window, the bytes up to it admitted. -/
theorem witness_DotComputesTheReduction : LegalCount (ready 32 0x3FFFFFEE 0x3FFFFFDE) 1 ∧ RangesInSpace (ready 32 0x3FFFFFEE 0x3FFFFFDE) 1 ∧
    NoSideEffectInput (ready 32 0x3FFFFFEE 0x3FFFFFDE) 1 ∧ InputAdmitted (ready 32 0x3FFFFFEE 0x3FFFFFDE) 1 ∧
    StoresVisible (ready 32 0x3FFFFFEE 0x3FFFFFDE) 1 ∧ OnlyEngineTurns (ready 32 0x3FFFFFEE 0x3FFFFFDE) ∧
    (Instr.dotSeq, Mode.seq) ∈ dotCommands := by
  refine ⟨⟨by decide, by decide⟩, ⟨by decide, by decide⟩, nofun, fun a ha => ?_, fun _ _ => nofun, nofun, by decide⟩
  have h : 0x3FFFFFDE ≤ a ∧ a < 0x40000000 := by
    rcases ha with ⟨h1, h2⟩ | ⟨h1, h2⟩ <;> simp [ready] at h1 h2 <;> omega
  have h1 : a < 4294967296 := by omega
  have h2 : ¬ 0x40000000 ≤ a := by omega
  simp [memAdmit, inWindow, inRegion, ready, State.reset, Platform.reset, h1, h2]

/-- The same block for ISUM, whose N may be 0. -/
theorem witness_IsumComputesTheSum : (ready 0 0x3FFFFFEE 0x3FFFFFDE).busy = false ∧ RangesInSpace (ready 0 0x3FFFFFEE 0x3FFFFFDE) 1 ∧
    NoSideEffectInput (ready 0 0x3FFFFFEE 0x3FFFFFDE) 1 ∧ InputAdmitted (ready 0 0x3FFFFFEE 0x3FFFFFDE) 1 ∧
    StoresVisible (ready 0 0x3FFFFFEE 0x3FFFFFDE) 1 ∧ OnlyEngineTurns (ready 0 0x3FFFFFEE 0x3FFFFFDE) :=
  ⟨rfl, ⟨by decide, by decide⟩, nofun, witness_DotComputesTheReduction.2.2.2.1, fun _ _ => nofun, nofun⟩

/-- The activation range reaches one byte into the register window. -/
theorem witness_UnadmittedInputEndsInBusError : LegalCount (ready 32 0x1000 0x3FFFFFDF) 1 ∧ RangesInSpace (ready 32 0x1000 0x3FFFFFDF) 1 ∧
    NoSideEffectInput (ready 32 0x1000 0x3FFFFFDF) 1 ∧ ¬ InputAdmitted (ready 32 0x1000 0x3FFFFFDF) 1 ∧
    OnlyEngineTurns (ready 32 0x1000 0x3FFFFFDF) := by
  refine ⟨⟨by decide, by decide⟩, ⟨by decide, by decide⟩, nofun, fun h => ?_, nofun⟩
  exact absurd (h 0x40000000 (.inr ⟨by decide, by decide⟩)) (by decide)

end Sys2Proof.Tests
end

/-! # Proofs: binary32 arithmetic (00_scope R10 to R13) and what one step does (R15, R89) -/

namespace Sys2Proof.Machine

/-! ## binary32: patterns and the magnitudes they denote (R10) -/

/-- The magnitude, in units of 2^-149, of the exponent and fraction bits `b` of a finite pattern. -/
def magnitude (b : Nat) : Nat := (b - (b / 2 ^ 23 - 1) * 2 ^ 23) * 2 ^ (b / 2 ^ 23 - 1)

theorem f32Val_eq_fin_iff {x : Word} {neg : Bool} {units : Nat} :
    f32Val x = .fin neg units ↔
      x.toNat % 2 ^ 31 < 0x7F800000 ∧ x.msb = neg ∧ magnitude (x.toNat % 2 ^ 31) = units := by
  have hexp : (x.extractLsb' 23 8).toNat = x.toNat % 2 ^ 31 / 2 ^ 23 := by
    simp [BitVec.extractLsb'_toNat, Nat.shiftRight_eq_div_pow]; omega
  have hfrac : (x.extractLsb' 0 23).toNat = x.toNat % 2 ^ 31 % 2 ^ 23 := by
    simp [BitVec.extractLsb'_toNat]
  simp only [f32Val, hexp, hfrac]
  generalize hb : x.toNat % 2 ^ 31 = b
  have hlt : b < 2 ^ 31 := hb ▸ Nat.mod_lt _ (by decide)
  by_cases hmax : b / 2 ^ 23 = 255
  · have : ¬ b < 0x7F800000 := by omega
    rw [if_pos hmax]
    split <;> simp [this]
  · have hfin : b < 0x7F800000 := by omega
    have hmag : magnitude b = if b / 2 ^ 23 = 0 then b % 2 ^ 23 else (2 ^ 23 + b % 2 ^ 23) * 2 ^ (b / 2 ^ 23 - 1) := by
      unfold magnitude
      split
      · rw [show b / 2 ^ 23 - 1 = 0 by omega, show b - 0 * 2 ^ 23 = b % 2 ^ 23 by omega, Nat.pow_zero, Nat.mul_one]
      · rw [show b - (b / 2 ^ 23 - 1) * 2 ^ 23 = 2 ^ 23 + b % 2 ^ 23 by omega]
    simp only [if_neg hmax, hfin, hmag, FloatVal.fin.injEq, true_and]

/-- The bits `e * 2^23 + n` that rounding builds denote `n` units of `2^e`, also where `n` has carried to 2^24. -/
theorem magnitude_of_scaled {e n : Nat} (hn : n ≤ 2 ^ 24) (he : e = 0 ∨ 2 ^ 23 ≤ n) :
    magnitude (e * 2 ^ 23 + n) = n * 2 ^ e := by
  unfold magnitude
  obtain rfl | hlt := hn.eq_or_lt
  · rw [show (e * 2 ^ 23 + 2 ^ 24) / 2 ^ 23 - 1 = e + 1 by omega,
      show e * 2 ^ 23 + 2 ^ 24 - (e + 1) * 2 ^ 23 = 2 ^ 23 by omega, Nat.pow_succ]
    omega
  · rw [show (e * 2 ^ 23 + n) / 2 ^ 23 - 1 = e by omega, Nat.add_sub_cancel_left]

/-- Every magnitude below `2^23 * 2^e` aside, the finite magnitudes are multiples of `2^e`, the spacing of that binade. -/
theorem magnitude_lt_or_dvd (b e : Nat) : magnitude b < 2 ^ 23 * 2 ^ e ∨ 2 ^ e ∣ magnitude b := by
  unfold magnitude
  generalize hc : b / 2 ^ 23 - 1 = c
  obtain h | h := lt_or_ge c e
  · left
    calc (b - c * 2 ^ 23) * 2 ^ c
      _ < 2 ^ 24 * 2 ^ c := Nat.mul_lt_mul_of_pos_right (by omega) (by positivity)
      _ = 2 ^ 23 * 2 ^ (c + 1) := by ring
      _ ≤ 2 ^ 23 * 2 ^ e := Nat.mul_le_mul_left _ (Nat.pow_le_pow_right (by decide) h)
  · exact .inr ((Nat.pow_dvd_pow 2 h).mul_left _)

theorem signed_toNat_mod (neg : Bool) (b : BitVec 31) : (BitVec.ofBool neg ++ b : Word).toNat % 2 ^ 31 = b.toNat := by
  rw [← BitVec.toNat_setWidth, BitVec.setWidth_append_eq_right]

theorem signed_msb (neg : Bool) (b : BitVec 31) : (BitVec.ofBool neg ++ b : Word).msb = neg :=
  (BitVec.msb_append (x := BitVec.ofBool neg) (y := b)).trans (by simp)

theorem signed_getLsbD_zero (neg : Bool) (b : BitVec 31) : (BitVec.ofBool neg ++ b : Word).getLsbD 0 = b.getLsbD 0 :=
  BitVec.getLsbD_append.trans (if_pos (by decide))

/-! ## Rounding to an integer, ties to even -/

/-- The quotient is within half a unit, and even where it is exactly half a unit off. -/
theorem divPow2Even_spec (num d : Nat) :
    2 * |(num : Int) - divPow2Even num d * 2 ^ d| ≤ 2 ^ d ∧
      (2 * |(num : Int) - divPow2Even num d * 2 ^ d| = 2 ^ d → divPow2Even num d % 2 = 0) := by
  have hr : num % 2 ^ d < 2 ^ d := Nat.mod_lt _ (by positivity)
  have hnum : (num : Int) = (num / 2 ^ d : Nat) * 2 ^ d + (num % 2 ^ d : Nat) := by
    exact_mod_cast (Nat.div_add_mod' num (2 ^ d)).symm
  have hunit : (2 : Int) ^ d = (2 ^ d : Nat) := by simp
  simp only [divPow2Even]
  split
  case isTrue h =>
    have hdist : (num : Int) - (num / 2 ^ d + 1 : Nat) * 2 ^ d = -((2 ^ d - num % 2 ^ d : Nat) : Int) := by
      rw [hnum]; push_cast [hr.le]; ring
    rw [hdist, abs_neg, Nat.abs_cast, hunit]
    omega
  case isFalse h =>
    have hdist : (num : Int) - (num / 2 ^ d : Nat) * 2 ^ d = (num % 2 ^ d : Nat) := by
      rw [hnum]; ring
    rw [hdist, Nat.abs_cast, hunit]
    omega

theorem divPow2Even_bounds (num d : Nat) :
    num / 2 ^ d ≤ divPow2Even num d ∧ divPow2Even num d ≤ num / 2 ^ d + 1 := by
  simp only [divPow2Even]
  split <;> omega

theorem divPow2Even_of_dvd {num d : Nat} (h : 2 ^ d ∣ num) : divPow2Even num d = num / 2 ^ d := by
  simp [divPow2Even, Nat.mod_eq_zero_of_dvd h, (Nat.two_pow_pos d).ne]

/-- No multiple of `2^d` is nearer, and another is as near only where the quotient is even. -/
theorem divPow2Even_nearest (num d m : Nat) :
    |(num : Int) - divPow2Even num d * 2 ^ d| ≤ |(num : Int) - m * 2 ^ d| ∧
      (m ≠ divPow2Even num d → |(num : Int) - divPow2Even num d * 2 ^ d| = |(num : Int) - m * 2 ^ d| →
        divPow2Even num d % 2 = 0) := by
  obtain ⟨hhalf, htie⟩ := divPow2Even_spec num d
  generalize divPow2Even num d = n at *
  by_cases hm : m = n
  · simp [hm]
  have hgap : (2 : Int) ^ d ≤ |(n : Int) * 2 ^ d - m * 2 ^ d| := by
    rw [← sub_mul, abs_mul, abs_of_pos (a := (2 : Int) ^ d) (by positivity)]
    exact le_mul_of_one_le_left (by positivity) (Int.one_le_abs (by omega))
  have htriangle := abs_sub_le ((n : Int) * 2 ^ d) num (m * 2 ^ d)
  rw [abs_sub_comm _ (num : Int)] at htriangle
  exact ⟨by omega, fun _ heq => htie (by omega)⟩

/-- Rounding carries to 2^24 from half a unit below it on: there the quotient is 2^24 - 1, odd, so the tie goes up. -/
theorem divPow2Even_carries_iff (num d : Nat) : 2 ^ 24 ≤ divPow2Even num d ↔ 2 ^ 25 * 2 ^ d ≤ 2 * num + 2 ^ d := by
  have hsplit := Nat.div_add_mod' num (2 ^ d)
  have hr : num % 2 ^ d < 2 ^ d := Nat.mod_lt _ (by positivity)
  simp only [divPow2Even]
  obtain hq | hq | hq : num / 2 ^ d ≤ 16777214 ∨ num / 2 ^ d = 16777215 ∨ 16777216 ≤ num / 2 ^ d := by omega
  · have := Nat.mul_le_mul_right (2 ^ d) hq
    split <;> omega
  · have htie : 2 ^ 25 * 2 ^ d ≤ 2 * num + 2 ^ d ↔ 2 ^ d ≤ 2 * (num % 2 ^ d) := by
      rw [hq] at hsplit
      constructor <;> intro <;> linarith
    rw [htie]
    split <;> omega
  · have := Nat.mul_le_mul_right (2 ^ d) hq
    split <;> omega

/-! ## `round_rne32` -/

/-- The integer that rounding keeps of `num`: `n` in the comment of `roundedBits`. -/
def keptInteger (num k : Nat) : Nat := divPow2Even num (droppedBits num k)

theorem roundedBits_eq (num k : Nat) : roundedBits num k = (droppedBits num k - k) * 2 ^ 23 + keptInteger num k := rfl

theorem le_droppedBits (num k : Nat) : k ≤ droppedBits num k := le_max_left _ _

theorem pow_droppedBits_sub_mul (num k : Nat) : 2 ^ (droppedBits num k - k) * 2 ^ k = 2 ^ droppedBits num k := by
  rw [← Nat.pow_add, Nat.sub_add_cancel (le_droppedBits num k)]

/-- The magnitude that rounding gives below the overflow threshold, in units of 2^-149. -/
def roundedUnits (num k : Nat) : Nat := keptInteger num k * 2 ^ (droppedBits num k - k)

theorem roundedUnits_mul (num k : Nat) : roundedUnits num k * 2 ^ k = keptInteger num k * 2 ^ droppedBits num k := by
  rw [roundedUnits, Nat.mul_assoc, pow_droppedBits_sub_mul]

theorem lt_pow_droppedBits (num k : Nat) : num < 2 ^ 24 * 2 ^ droppedBits num k := by
  calc num
    _ < 2 ^ (num.log2 + 1) := Nat.lt_log2_self
    _ ≤ 2 ^ (24 + droppedBits num k) := Nat.pow_le_pow_right (by decide) (by unfold droppedBits; omega)
    _ = 2 ^ 24 * 2 ^ droppedBits num k := Nat.pow_add ..

theorem pow_droppedBits_le {num k : Nat} (h : k < droppedBits num k) : 2 ^ 23 * 2 ^ droppedBits num k ≤ num := by
  have hlog : 23 + droppedBits num k = num.log2 := by unfold droppedBits at *; omega
  rw [← Nat.pow_add, hlog]
  exact Nat.log2_self_le (by rintro rfl; simp at hlog)

theorem keptInteger_le (num k : Nat) : keptInteger num k ≤ 2 ^ 24 := by
  have hq := (Nat.div_lt_iff_lt_mul (by positivity)).2 (lt_pow_droppedBits num k)
  have : keptInteger num k ≤ _ := (divPow2Even_bounds num (droppedBits num k)).2
  omega

theorem le_keptInteger {num k : Nat} (h : k < droppedBits num k) : 2 ^ 23 ≤ keptInteger num k :=
  ((Nat.le_div_iff_mul_le (by positivity)).2 (pow_droppedBits_le h)).trans (divPow2Even_bounds _ _).1

theorem magnitude_roundedBits (num k : Nat) :
    magnitude (roundedBits num k) = roundedUnits num k := by
  refine magnitude_of_scaled (keptInteger_le num k) ?_
  obtain h | h := (le_droppedBits num k).eq_or_lt
  · exact .inl (by omega)
  · exact .inr (le_keptInteger h)

/-- The overflow threshold of R13. -/
theorem roundedBits_lt_iff (num k : Nat) :
    roundedBits num k < 0x7F800000 ↔ num < (2 ^ 128 - 2 ^ 103) * 2 ^ (149 + k) := by
  have hle := keptInteger_le num k
  have hT : (2 ^ 128 - 2 ^ 103) * 2 ^ (149 + k) + 2 ^ (252 + k) = 2 ^ 25 * 2 ^ (252 + k) := by
    rw [show 252 + k = 103 + (149 + k) by omega, Nat.pow_add 2 103]; ring
  have hcarry := divPow2Even_carries_iff num (droppedBits num k)
  rw [← keptInteger] at hcarry
  have hlt := lt_pow_droppedBits num k
  have hk := le_droppedBits num k
  generalize (2 ^ 128 - 2 ^ 103) * 2 ^ (149 + k) = T at *
  rw [roundedBits_eq]
  -- Below exponent field 254 the fraction may carry, at 254 only a carry overflows, above it everything does.
  obtain h | h | h := lt_trichotomy (droppedBits num k) (253 + k)
  · have := Nat.pow_le_pow_right (n := 2) (by decide) (show droppedBits num k ≤ 252 + k by omega)
    omega
  · have : 2 ^ droppedBits num k = 2 * 2 ^ (252 + k) := by rw [h, ← Nat.pow_succ']; congr 1; omega
    have := le_keptInteger (num := num) (k := k) (by omega)
    omega
  · have := Nat.pow_le_pow_right (n := 2) (by decide) (show 2 + (252 + k) ≤ droppedBits num k by omega)
    have := pow_droppedBits_le (num := num) (k := k) (by omega)
    have := le_keptInteger (num := num) (k := k) (by omega)
    have : 2 ^ (2 + (252 + k)) = 4 * 2 ^ (252 + k) := Nat.pow_add 2 2 (252 + k)
    omega

theorem roundRne32_overflow (neg : Bool) {num k : Nat} (h : (2 ^ 128 - 2 ^ 103) * 2 ^ (149 + k) ≤ num) :
    roundRne32 neg num k = infinity neg :=
  if_neg fun hb => absurd ((roundedBits_lt_iff num k).1 hb) h.not_gt

theorem roundRne32_below (neg : Bool) {num k : Nat} (h : num < (2 ^ 128 - 2 ^ 103) * 2 ^ (149 + k)) :
    roundRne32 neg num k = BitVec.ofBool neg ++ BitVec.ofNat 31 (roundedBits num k) :=
  if_pos ((roundedBits_lt_iff num k).2 h)

theorem f32Val_roundRne32 (neg : Bool) {num k : Nat} (h : num < (2 ^ 128 - 2 ^ 103) * 2 ^ (149 + k)) :
    f32Val (roundRne32 neg num k) = .fin neg (roundedUnits num k) := by
  have hb := (roundedBits_lt_iff num k).2 h
  rw [roundRne32_below neg h, f32Val_eq_fin_iff, signed_toNat_mod, signed_msb, BitVec.toNat_ofNat,
    Nat.mod_eq_of_lt (hb.trans (by decide))]
  exact ⟨hb, rfl, magnitude_roundedBits num k⟩

theorem roundRne32_even_fraction (neg : Bool) {num k : Nat} (h : num < (2 ^ 128 - 2 ^ 103) * 2 ^ (149 + k))
    (heven : keptInteger num k % 2 = 0) : (roundRne32 neg num k).getLsbD 0 = false := by
  have : roundedBits num k % 2 = 0 := by rw [roundedBits_eq]; omega
  rw [roundRne32_below neg h, signed_getLsbD_zero, BitVec.getLsbD_ofNat, Nat.testBit_zero, this]
  rfl

/-- A finite magnitude, at the scale of `num`, is a multiple of the last bit kept, or lies below the binade of `num`. -/
theorem magnitude_scaled_cases (b num k : Nat) :
    (∃ m, magnitude b * 2 ^ k = m * 2 ^ droppedBits num k) ∨
      (magnitude b * 2 ^ k < 2 ^ 23 * 2 ^ droppedBits num k ∧ 2 ^ 23 * 2 ^ droppedBits num k ≤ num) := by
  obtain hk | hk := (le_droppedBits num k).eq_or_lt
  · exact .inl ⟨magnitude b, by rw [← hk]⟩
  obtain hlt | ⟨m, hm⟩ := magnitude_lt_or_dvd b (droppedBits num k - k)
  · refine .inr ⟨?_, pow_droppedBits_le hk⟩
    rw [← pow_droppedBits_sub_mul, ← Nat.mul_assoc]
    exact Nat.mul_lt_mul_of_pos_right hlt (by positivity)
  · exact .inl ⟨m, by rw [← pow_droppedBits_sub_mul, hm]; ring⟩

/-- Among the finite magnitudes the rounded one is nearest to `num`, ties to even. A magnitude that is no multiple of the
last bit kept is farther than the least value in the binade of `num`. -/
theorem roundedUnits_nearest (b num k : Nat) :
    |(num : Int) - roundedUnits num k * 2 ^ k| ≤ |(num : Int) - magnitude b * 2 ^ k| ∧
      (magnitude b ≠ roundedUnits num k →
        |(num : Int) - roundedUnits num k * 2 ^ k| = |(num : Int) - magnitude b * 2 ^ k| → keptInteger num k % 2 = 0) := by
  have hrounded : (roundedUnits num k : Int) * 2 ^ k = keptInteger num k * 2 ^ droppedBits num k :=
    mod_cast roundedUnits_mul num k
  rw [hrounded]
  obtain ⟨m, hm⟩ | ⟨hlt, hle⟩ := magnitude_scaled_cases b num k
  · obtain ⟨hnear, htie⟩ := divPow2Even_nearest num (droppedBits num k) m
    rw [show (magnitude b : Int) * 2 ^ k = m * 2 ^ droppedBits num k from mod_cast hm]
    refine ⟨hnear, fun hne => htie fun h => hne ?_⟩
    refine Nat.eq_of_mul_eq_mul_right (Nat.two_pow_pos k) ?_
    rw [hm, roundedUnits_mul, h, keptInteger]
  · have hnear := (divPow2Even_nearest num (droppedBits num k) (2 ^ 23)).1
    have hfarther : |(num : Int) - (2 ^ 23 : Nat) * 2 ^ droppedBits num k| < |(num : Int) - magnitude b * 2 ^ k| := by
      zify at hlt hle
      push_cast
      rw [abs_of_nonneg (by linarith), abs_of_nonneg (by linarith)]
      linarith
    exact ⟨(hnear.trans_lt hfarther).le, fun _ heq => absurd heq (hnear.trans_lt hfarther).ne⟩

/-- Settles O8: the threshold is where the bits pass the largest finite pattern, and below it `roundedUnits` is the value. -/
theorem roundingIsNearestEven : Obligations.RoundingIsNearestEven := by
  intro neg num k _
  refine ⟨roundRne32_overflow neg, fun h => ⟨_, f32Val_roundRne32 neg h, fun x neg' other hx => ?_⟩⟩
  obtain ⟨-, -, rfl⟩ := f32Val_eq_fin_iff.1 hx
  obtain ⟨hnear, htie⟩ := roundedUnits_nearest (x.toNat % 2 ^ 31) num k
  exact ⟨hnear, fun hne heq => roundRne32_even_fraction neg h (htie hne heq)⟩

/-! ## Exact integers -/

/-- A real of at most 24 significant bits, none of them below the least subnormal, is not changed by rounding. -/
theorem roundRne32_exact (neg : Bool) {m t k : Nat} (hm : m ≤ 2 ^ 24) (ht : k ≤ t)
    (h : m * 2 ^ t < (2 ^ 128 - 2 ^ 103) * 2 ^ (149 + k)) :
    f32Val (roundRne32 neg (m * 2 ^ t) k) = .fin neg (m * 2 ^ (t - k)) := by
  have hdvd : 2 ^ droppedBits (m * 2 ^ t) k ∣ m * 2 ^ t := by
    obtain rfl | hlt := hm.eq_or_lt
    · rw [← Nat.pow_add, droppedBits, Nat.log2_two_pow]
      exact Nat.pow_dvd_pow 2 (by omega)
    · obtain rfl | hpos := Nat.eq_zero_or_pos m
      · simp
      have hlog : (m * 2 ^ t).log2 < 24 + t := by
        rw [Nat.log2_lt (by positivity), Nat.pow_add]
        exact Nat.mul_lt_mul_of_pos_right hlt (by positivity)
      exact (Nat.pow_dvd_pow 2 (by unfold droppedBits; omega)).mul_left m
  rw [f32Val_roundRne32 neg h]
  congr 1
  refine Nat.eq_of_mul_eq_mul_right (Nat.two_pow_pos k) ?_
  rw [roundedUnits_mul, keptInteger, divPow2Even_of_dvd hdvd, Nat.div_mul_cancel hdvd, Nat.mul_assoc, ← Nat.pow_add,
    Nat.sub_add_cancel ht]

theorem f32Val_i2f {i : Int} (h : i.natAbs ≤ 2 ^ 24) : f32Val (i2f i) = .fin (decide (i < 0)) (i.natAbs * 2 ^ 149) :=
  roundRne32_exact _ h (Nat.zero_le _) (Nat.mul_lt_mul_of_pos_right (by omega) (by positivity))

theorem i2f_zero : i2f 0 = 0x00000000 := by decide

/-! ## The range of an integer partial sum -/

theorem decodeNibblePair_range (b : Byte) :
    (-8 ≤ (decodeNibblePair b).1 ∧ (decodeNibblePair b).1 ≤ 7) ∧
      -8 ≤ (decodeNibblePair b).2 ∧ (decodeNibblePair b).2 ≤ 7 := by
  simp only [decodeNibblePair]
  omega

theorem weightElem_range (B : Nat → Byte) (w i : Nat) : -8 ≤ weightElem B w i ∧ weightElem B w i ≤ 7 := by
  unfold weightElem
  split
  · exact (decodeNibblePair_range _).1
  · exact (decodeNibblePair_range _).2

theorem activationElem_range (B : Nat → Byte) (a i : Nat) :
    -128 ≤ activationElem B a i ∧ activationElem B a i ≤ 127 := by
  unfold activationElem
  exact ⟨BitVec.le_toInt _, by have := BitVec.toInt_lt (x := B (a + 2 + i)); omega⟩

theorem abs_weightElem_mul_activationElem_le (B : Nat → Byte) (w a i j : Nat) :
    |weightElem B w i * activationElem B a j| ≤ 1024 := by
  have hw := weightElem_range B w i
  have ha := activationElem_range B a j
  rw [abs_mul]
  exact mul_le_mul (abs_le.2 ⟨hw.1, by omega⟩) (abs_le.2 ⟨ha.1, by omega⟩) (abs_nonneg _) (by decide) (b := 8) (d := 128)

theorem abs_pairProducts_le (B : Nat → Byte) (w a j : Nat) : |pairProducts B w a j| ≤ 2048 :=
  (abs_add_le _ _).trans (add_le_add (abs_weightElem_mul_activationElem_le ..) (abs_weightElem_mul_activationElem_le ..))

theorem blockSum_eq_sum (B : Nat → Byte) (w a : Nat) : blockSum B w a = ∑ j ∈ Finset.range 16, pairProducts B w a j := rfl

theorem natAbs_blockSum_le (B : Nat → Byte) (w a : Nat) : (blockSum B w a).natAbs ≤ 32768 := by
  have habs : |blockSum B w a| ≤ 32768 := by
    calc |blockSum B w a|
      _ = |∑ j ∈ Finset.range 16, pairProducts B w a j| := by rw [blockSum_eq_sum]
      _ ≤ ∑ j ∈ Finset.range 16, |pairProducts B w a j| := Finset.abs_sum_le_sum_abs _ _
      _ ≤ (Finset.range 16).card • 2048 := Finset.sum_le_card_nsmul _ _ _ fun j _ => abs_pairProducts_le B w a j
      _ = 32768 := by simp
  rw [Int.abs_eq_natAbs] at habs
  omega

/-- Settles O9: a small integer has 24 significant bits, so its rounding is exact, and a block has 16 pairs of products. -/
theorem integerToFloatIsExact : Obligations.IntegerToFloatIsExact :=
  ⟨fun _ => f32Val_i2f, i2f_zero, natAbs_blockSum_le⟩

/-! ## binary32: the case table of the two operations (R13) -/

theorem fmul32_of_nan {a b : Word} (h : f32Val a = .nan ∨ f32Val b = .nan) : fmul32 a b = canonNan := by
  rcases h with h | h
  · simp [fmul32, h]
  · cases ha : f32Val a <;> simp [fmul32, ha, h]

theorem fmul32_inf_inf {a b : Word} {s t : Bool} (ha : f32Val a = .inf s) (hb : f32Val b = .inf t) :
    fmul32 a b = infinity (s ^^ t) := by simp [fmul32, ha, hb]

theorem fmul32_inf_fin {a b : Word} {s t : Bool} {y : Nat} (ha : f32Val a = .inf s) (hb : f32Val b = .fin t y) :
    fmul32 a b = if y = 0 then canonNan else infinity (s ^^ t) := by simp [fmul32, ha, hb]

theorem fmul32_fin_inf {a b : Word} {s t : Bool} {x : Nat} (ha : f32Val a = .fin s x) (hb : f32Val b = .inf t) :
    fmul32 a b = if x = 0 then canonNan else infinity (s ^^ t) := by simp [fmul32, ha, hb]

theorem fmul32_fin_fin {a b : Word} {s t : Bool} {x y : Nat} (ha : f32Val a = .fin s x) (hb : f32Val b = .fin t y) :
    fmul32 a b = if x * y = 0 then signedZero (s ^^ t) else roundRne32 (s ^^ t) (x * y) 149 := by
  simp [fmul32, ha, hb]

theorem fadd32_of_nan {a b : Word} (h : f32Val a = .nan ∨ f32Val b = .nan) : fadd32 a b = canonNan := by
  rcases h with h | h
  · simp [fadd32, h]
  · cases ha : f32Val a <;> simp [fadd32, ha, h]

theorem fadd32_inf_inf {a b : Word} {s t : Bool} (ha : f32Val a = .inf s) (hb : f32Val b = .inf t) :
    fadd32 a b = if s = t then a else canonNan := by simp [fadd32, ha, hb]

theorem fadd32_inf_fin {a b : Word} {s t : Bool} {y : Nat} (ha : f32Val a = .inf s) (hb : f32Val b = .fin t y) :
    fadd32 a b = a := by simp [fadd32, ha, hb]

theorem fadd32_fin_inf {a b : Word} {s t : Bool} {x : Nat} (ha : f32Val a = .fin s x) (hb : f32Val b = .inf t) :
    fadd32 a b = b := by simp [fadd32, ha, hb]

theorem fadd32_fin_fin_zero {a b : Word} {s t : Bool} {x y : Nat} (ha : f32Val a = .fin s x) (hb : f32Val b = .fin t y)
    (h : signedUnits s x + signedUnits t y = 0) :
    fadd32 a b = if a = signedZero true ∧ b = signedZero true then signedZero true else signedZero false := by
  simp [fadd32, ha, hb, h]

theorem fadd32_fin_fin_nonzero {a b : Word} {s t : Bool} {x y : Nat} (ha : f32Val a = .fin s x)
    (hb : f32Val b = .fin t y) (h : signedUnits s x + signedUnits t y ≠ 0) :
    fadd32 a b = roundRne32 (decide (signedUnits s x + signedUnits t y < 0))
      (signedUnits s x + signedUnits t y).natAbs 0 := by
  simp [fadd32, ha, hb, h]

/-- Settles O10, from the one equation of `fmul32` and `fadd32` for each pair of kinds of operand. -/
theorem floatOperationCases : Obligations.FloatOperationCases := by
  refine ⟨fun a b h => ⟨fmul32_of_nan h, fadd32_of_nan h⟩,
    fun a b s t ha hb => ⟨fmul32_inf_inf ha hb, fadd32_inf_inf ha hb⟩,
    fun a b s t y ha hb => ⟨fmul32_inf_fin ha hb, fmul32_fin_inf hb ha, fadd32_inf_fin ha hb, fadd32_fin_inf hb ha⟩,
    fun a b s t x y ha hb => ⟨fun h => ?_, fun h => ?_, fadd32_fin_fin_zero ha hb, fadd32_fin_fin_nonzero ha hb⟩⟩
  · rw [fmul32_fin_fin ha hb, if_pos h]
  · rw [fmul32_fin_fin ha hb, if_neg h]

end Sys2Proof.Machine

/-! ## The decoder on the command's own word (R106, R112) -/

namespace Sys2Proof

theorem decode_of_op_cvth {v : Word} (hrsv : cmdRsv v = 0) (hop : cmdOp v = 0x3) :
    decode v = decodeCvth (cmdMode v) (cmdImm v) := by simp [decode, hrsv, hop]

theorem decode_of_op_nibd {v : Word} (hrsv : cmdRsv v = 0) (hop : cmdOp v = 0x4) :
    decode v = decodeNibd (cmdMode v) (cmdImm v) := by simp [decode, hrsv, hop]

theorem decodeNibd_byte (b : Byte) : decodeNibd 0 (0x00#8 ++ b) = .ok (.nibd b) := by
  have hhigh : (0x00#8 ++ b : Half).extractLsb' 8 8 = 0 := BitVec.extractLsb'_append_eq_left
  have hlow : (0x00#8 ++ b : Half).extractLsb' 0 8 = b := BitVec.extractLsb'_append_eq_right
  simp [decodeNibd, hhigh, hlow]

theorem decode_encode (i : Instr) : decode (encode i) = .ok i := by
  cases i with
  | nop | dotPair2 | dotQuad4 | dotSeq | isum | clr => rfl
  | cvth h =>
    rw [encode, decode_of_op_cvth (cmdRsv_append h _) (cmdOp_append h _), cmdMode_append, cmdImm_append]
    rfl
  | nibd b =>
    rw [encode, decode_of_op_nibd (cmdRsv_append _ _) (cmdOp_append _ _), cmdMode_append, cmdImm_append]
    exact decodeNibd_byte b

end Sys2Proof

namespace Sys2Proof.Machine

/-! ## One step is one event -/

theorem writeCmd_ok {v : Word} {i : Instr} (h : decode v = .ok i) (s : State) : writeCmd v s = exec i s := by
  simp [writeCmd, h]

theorem writeCmd_error {v : Word} {e : Illegal} (h : decode v = .error e) (s : State) :
    writeCmd v s = .next (if s.busy then setIgnored s else raiseError .illegalCmd (clearOutcome s)) := by
  simp only [writeCmd, h, acceptIllegal, commandWrite]
  split <;> rfl

theorem step_cmd {s : State} {v : Word} {rest : List Event} (h : s.inputs = .hostWrite 32 0x10 v :: rest) :
    step s = writeCmd v { s with inputs := rest } := step_cons h

theorem step_withFetchWord_encode (s : State) (i : Instr) : step (s.withFetchWord 32 (encode i).toNat) = exec i s := by
  have hword : BitVec.ofNat 32 ((encode i).toNat % 2 ^ 32) = encode i := by
    rw [Nat.mod_eq_of_lt (encode i).isLt, BitVec.ofNat_toNat, BitVec.setWidth_eq]
  calc step (s.withFetchWord 32 (encode i).toNat)
    _ = writeCmd (BitVec.ofNat 32 ((encode i).toNat % 2 ^ 32)) s := step_cmd rfl
    _ = writeCmd (encode i) s := by rw [hword]
    _ = exec i s := writeCmd_ok (decode_encode i) s

theorem unscheduledStep_busy {s : State} (h : s.busy = true) : unscheduledStep s =
    engineStep (Config.readPick s.draws) (Config.readDraw s.draws) { s with draws := s.draws + 1 } := if_pos h

theorem unscheduledStep_idle {s : State} (h : s.busy = false) : unscheduledStep s = .next s := by
  simp [unscheduledStep, h]

/-- Settles O47: `step_cons`, `step_cmd` and `step_nil` give the operation, and `decode_encode` the command of a word queued. -/
theorem stepRunsTheDecodedCommand : Obligations.StepRunsTheDecodedCommand := by
  refine ⟨fun s v rest i hi hd => ?_, fun s v rest e hi hd => ?_, fun s rest => ?_, fun s hi => ?_,
    step_withFetchWord_encode⟩
  · exact (step_cmd hi).trans (writeCmd_ok hd _)
  · exact (step_cmd hi).trans (writeCmd_error hd _)
  · exact ⟨fun _ _ => step_cons, fun _ _ _ => step_cons, fun _ _ => step_cons, fun _ => step_cons, fun _ _ => step_cons,
      step_cons⟩
  · exact ⟨fun hb => (step_nil hi).trans (unscheduledStep_busy hb), fun hb => (step_nil hi).trans (unscheduledStep_idle hb)⟩

end Sys2Proof.Machine

/-! # Proofs: the device's state, its registers and the invariants of a run (10_state) -/

namespace Sys2Proof.Machine

/-! ## Writes and reads of the register window (R36, R37, R48) -/

theorem hostWrite_register {offset : Nat} (hadm : offset % 4 = 0 ∧ offset ≤ 0x3C) (hcmd : offset ≠ 0x10) (v : Word)
    (s : State) : hostWrite 32 offset v s = .next (writeReg offset v s) :=
  hostWrite_next.2 ⟨accessAdmitted_iff.2 ⟨rfl, hadm⟩, .inr ⟨hcmd, rfl⟩⟩

theorem writeReg_readOnly {offset : Nat} (h : offset = 0x00 ∨ offset = 0x04 ∨ 0x20 ≤ offset) (v : Word) (s : State) :
    writeReg offset v s = s := by
  rcases h with rfl | rfl | h
  · rfl
  · rfl
  · simp [writeReg, show offset ≠ 0x08 by omega, show offset ≠ 0x0C by omega, show offset ≠ 0x14 by omega,
      show offset ≠ 0x18 by omega, show offset ≠ 0x1C by omega]

theorem readReg_reserved {offset : Nat} (h : 0x24 ≤ offset) (s : State) : readReg offset s = 0 := by
  simp [readReg, show offset ≠ 0x00 by omega, show offset ≠ 0x04 by omega, show offset ≠ 0x08 by omega,
    show offset ≠ 0x0C by omega, show offset ≠ 0x14 by omega, show offset ≠ 0x18 by omega, show offset ≠ 0x1C by omega,
    show offset ≠ 0x20 by omega]

/-- Settles O36: the write is `writeStatus`, whose four fields its `@[simp]` lemmas give. -/
theorem statusWriteOneToClear : Obligations.StatusWriteOneToClear := by
  intro s v
  refine ⟨writeStatus v s, hostWrite_register (by decide) (by decide) v s, rfl, fun h => ?_, fun h => ?_, fun h => ?_,
    fun h => ?_, fun h => ?_, fun h => ?_⟩ <;> simp [-BitVec.getLsbD_eq_getElem, h]

theorem ctrlWord_writeCtrl (v : Word) (s : State) : ctrlWord (writeCtrl v s) = v &&& 1 :=
  BitVec.and_one_eq_setWidth_ofBool_getLsbD.symm

/-- Settles O37: the write is `writeCtrl`, and `ctrlWord_writeCtrl` is what is read back. -/
theorem ctrlWriteStoresIe : Obligations.CtrlWriteStoresIe :=
  ⟨fun s v => ⟨hostWrite_register (by decide) (by decide) v s, ctrlWord_writeCtrl v s⟩, fun _ => rfl, rfl⟩

/-- Settles O38: at these offsets no branch of `writeReg` applies, and from 0x24 on none of `readReg`. -/
theorem readOnlyOffsetsIgnoreWrites : Obligations.ReadOnlyOffsetsIgnoreWrites := by
  refine ⟨fun s offset v halign hle hro => ?_, fun s _ hge _ => readReg_reserved hge s⟩
  rw [hostWrite_register ⟨halign, hle⟩ (by omega), writeReg_readOnly hro]

/-! ## The interrupt output (R49) -/

theorem irq_iff {s : State} : irq s = true ↔ s.ie = true ∧ (s.done = true ∨ s.err = true) := by simp [irq]

theorem irq_of_no_outcome {s : State} (hd : s.done = false) (he : s.err = false) : irq s = false := by simp [irq, hd, he]

theorem irq_of_masked {s : State} (h : s.ie = false) : irq s = false := by simp [irq, h]

/-- The host's acknowledgement of an outcome, bits 1 and 2 of STATUS, lowers IRQ (R37, R250). -/
theorem irq_writeStatus_acknowledged {v : Word} (hd : v.getLsbD 1 = true) (he : v.getLsbD 2 = true) (s : State) :
    irq (writeStatus v s) = false :=
  irq_of_no_outcome (by rw [writeStatus_done, hd, Bool.not_true, Bool.and_false])
    (by rw [writeStatus_err, he, Bool.not_true, Bool.and_false])

theorem hostLine_iff {s : State} {line : Nat} : hostLine s line = true ↔ line = s.platform.irqLine ∧ irq s = true := by
  simp [hostLine]

/-- Settles O40: each way to lower IRQ clears DONE and ERR, or IE. -/
theorem interruptOutput : Obligations.InterruptOutput :=
  ⟨irq_of_masked rfl, fun s => ⟨irq_iff, fun _ hd he => irq_writeStatus_acknowledged hd he s,
    fun _ h => ⟨irq_of_masked h, rfl, rfl⟩, irq_of_no_outcome rfl rfl, irq_of_masked rfl, rfl, fun _ => hostLine_iff⟩⟩

/-! ## What one command keeps -/

/-- A field that neither acceptance nor the command's own effect touches is kept by the write of the command. -/
theorem commandWrite_keeps {α : Type} (f : State → α) (hign : ∀ s, f (setIgnored s) = f s)
    (hclear : ∀ s, f (clearOutcome s) = f s) {body : State → Host.Outcome State Fault Refusal} {s t : State}
    (hbody : ∀ s t, s.busy = false → body s = .next t → f t = f s) (h : commandWrite body s = .next t) : f t = f s := by
  rcases commandWrite_next.1 h with ⟨-, rfl⟩ | ⟨hb, h⟩
  · exact hign s
  · exact (hbody (clearOutcome s) t hb h).trans (hclear s)

theorem launch_result {op : EngOp} {mode : Mode} {nb : Word} {s t : State} (h : launch op mode nb s = .next t) :
    t.result = s.result := by
  rcases launch_next.1 h with ⟨-, rfl⟩ | ⟨-, -, rfl⟩ <;> rfl

theorem startDot_result {mode : Mode} {s t : State} (h : startDot mode s = .next t) : t.result = s.result := by
  rcases startDot_next.1 h with ⟨-, rfl⟩ | ⟨-, h⟩
  · rfl
  · exact launch_result h

/-- NOP completes with the RESULT it finds, and DOT and ISUM write RESULT only at the engine's completion. -/
theorem exec_result {i : Instr} (hi : i ∈ [Instr.nop, .dotPair2, .dotQuad4, .dotSeq, .isum]) {s t : State}
    (h : exec i s = .next t) : t.result = s.result := by
  have keeps {body} (hbody : ∀ s t : State, s.busy = false → body s = .next t → t.result = s.result)
      (h : commandWrite body s = .next t) : t.result = s.result :=
    commandWrite_keeps State.result (fun _ => rfl) (fun _ => rfl) hbody h
  cases i with
  | nop =>
    rw [exec_nop] at h
    exact keeps (fun s t _ h => by rw [← next_eq_next.1 h]; rfl) h
  | dotPair2 | dotQuad4 | dotSeq => exact keeps (fun _ _ _ => startDot_result) h
  | isum => exact keeps (fun _ _ _ => launch_result) h
  | cvth | nibd | clr => simp at hi

theorem completing_busy {f : State → Word} {g : State → Bool} {s t : State}
    (h : commandWrite (fun s => .next (complete (f s) { s with ign := g s })) s = .next t) : t.busy = s.busy :=
  commandWrite_keeps State.busy (fun _ => rfl) (fun _ => rfl) (fun s t hb h => by rw [← next_eq_next.1 h, hb]; rfl) h

/-- A command that completes in its own write leaves BUSY as it is. -/
theorem exec_busy {i : Instr} (hi : i ∉ [Instr.dotPair2, .dotQuad4, .dotSeq, .isum]) {s t : State}
    (h : exec i s = .next t) : t.busy = s.busy := by
  cases i with
  | nop => exact completing_busy (f := fun s => s.result) (g := fun s => s.ign) h
  | cvth b => exact completing_busy (f := fun _ => decodeScale b) (g := fun s => s.ign) h
  | nibd b => exact completing_busy (f := fun _ => nibbleWord b) (g := fun s => s.ign) h
  | clr => exact completing_busy (f := fun _ => 0) (g := fun _ => false) h
  | dotPair2 | dotQuad4 | dotSeq | isum => simp at hi

/-! ## When a step answers a fault -/

theorem commandWrite_ne_fault {body : State → Host.Outcome State Fault Refusal} {f : Fault} {s : State}
    (hbody : ∀ s, body s ≠ .fault f) : commandWrite body s ≠ .fault f := by
  unfold commandWrite
  split
  · nofun
  · exact hbody _

theorem launch_ne_fault {op : EngOp} {mode : Mode} {nb : Word} {f : Fault} {s : State} :
    launch op mode nb s ≠ .fault f := by
  unfold launch
  split
  · nofun
  · split <;> nofun

theorem startDot_ne_fault {mode : Mode} {f : Fault} {s : State} : startDot mode s ≠ .fault f := by
  unfold startDot
  split
  · exact launch_ne_fault
  · nofun

theorem exec_ne_fault {i : Instr} {f : Fault} {s : State} : exec i s ≠ .fault f := by
  cases i with
  | nop => rw [exec_nop]; exact commandWrite_ne_fault (fun _ => nofun)
  | cvth h => rw [exec_cvth]; exact commandWrite_ne_fault (fun _ => nofun)
  | nibd b => rw [exec_nibd]; exact commandWrite_ne_fault (fun _ => nofun)
  | clr => rw [exec_clr]; exact commandWrite_ne_fault (fun _ => nofun)
  | dotPair2 | dotQuad4 | dotSeq => exact commandWrite_ne_fault (fun _ => startDot_ne_fault)
  | isum => exact commandWrite_ne_fault (fun _ => launch_ne_fault)

theorem writeCmd_ne_fault {v : Word} {f : Fault} {s : State} : writeCmd v s ≠ .fault f := by
  unfold writeCmd
  split
  · exact exec_ne_fault
  · exact commandWrite_ne_fault (fun _ => nofun)

theorem hostWrite_fault {bits offset : Nat} {v : Word} {f : Fault} {s : State} (h : hostWrite bits offset v s = .fault f) :
    f = .hostBusError := by
  unfold hostWrite at h
  split at h
  · injection h with h
    exact h.symm
  · split at h
    · exact absurd h writeCmd_ne_fault
    · nomatch h

theorem hostRead_fault {bits offset : Nat} {f : Fault} {s : State} (h : hostRead bits offset s = .fault f) :
    f = .hostBusError := by
  unfold hostRead at h
  split at h
  · nomatch h
  · injection h with h
    exact h.symm

theorem hostStore_fault {a : Nat} {v : Byte} {f : Fault} {s : State} (h : hostStore a v s = .fault f) :
    f = .hostBusError := by
  unfold hostStore at h
  split at h
  · injection h with h
    exact h.symm
  · nomatch h

theorem engineComplete_fault {f : Fault} {s : State} (h : engineComplete s = .fault f) : s.eng.op = .none := by
  unfold engineComplete at h
  split at h
  · nomatch h
  · split at h
    · nomatch h
    · nomatch h
    · assumption

theorem engineStep_fault {pick draw : Nat} {f : Fault} {s : State} (h : engineStep pick draw s = .fault f) :
    s.busy = true ∧ s.eng.op = .none := by
  unfold engineStep at h
  split at h
  case isTrue => nomatch h
  case isFalse hb =>
    split at h
    · exact ⟨by simpa using hb, engineComplete_fault h⟩
    · nomatch h

theorem unscheduledStep_fault {f : Fault} {s : State} (h : unscheduledStep s = .fault f) :
    s.busy = true ∧ s.eng.op = .none := by
  cases hb : s.busy with
  | true =>
    rw [unscheduledStep_busy hb] at h
    exact ⟨rfl, (engineStep_fault h).2⟩
  | false =>
    rw [unscheduledStep_idle hb] at h
    nomatch h

/-- A step faults at a host access that is not admitted, or at an engine turn with BUSY 1 and no command. -/
theorem step_fault {f : Fault} {s : State} (h : step s = .fault f) :
    f = .hostBusError ∨ (s.busy = true ∧ s.eng.op = .none) := by
  cases hi : s.inputs with
  | nil => exact .inr (unscheduledStep_fault (step_nil hi ▸ h))
  | cons e rest =>
    rw [step_cons hi] at h
    cases e with
    | hostRead => exact .inl (hostRead_fault h)
    | hostWrite => exact .inl (hostWrite_fault h)
    | hostStore => exact .inl (hostStore_fault h)
    | hostClean => nomatch h
    | engine => exact .inr (engineStep_fault h :)
    | reset => nomatch h

/-- Settles O52: the fault needs BUSY 1 with no command, which `EngineInv.busyHasOp` excludes. -/
theorem engineNeverLacksItsCommand : Obligations.EngineNeverLacksItsCommand := by
  intro s hinv h
  rcases step_fault h with h | ⟨hb, hop⟩
  · nomatch h
  · exact hinv.busyHasOp.1 hb hop

/-! ## What the other agents' events keep of the device -/

/-- A host store or a clean acts on memory and on the host's side: the device's registers and engine stay, and so do the
values of a race where no command is in progress. -/
structure DeviceKept (s t : State) : Prop where
  busy : t.busy = s.busy
  done : t.done = s.done
  err : t.err = s.err
  errcode : t.errcode = s.errcode
  n : t.n = s.n
  waddr : t.waddr = s.waddr
  aaddr : t.aaddr = s.aaddr
  result : t.result = s.result
  eng : t.eng = s.eng
  stale : s.busy = false → t.stale = s.stale

theorem storeByte_keeps_device (s : State) (a : Nat) (v : Byte) : DeviceKept s (storeByte s a v) := by
  rcases storeByte_cases s a v with ⟨-, h⟩ | ⟨-, h⟩ <;> rw [h]
  · exact ⟨rfl, rfl, rfl, rfl, rfl, rfl, rfl, rfl, rfl, fun hb => by simp [hb]⟩
  · exact ⟨rfl, rfl, rfl, rfl, rfl, rfl, rfl, rfl, rfl, fun _ => rfl⟩

theorem cleanByte_keeps_device (s : State) (a : Nat) : DeviceKept s (cleanByte s a) := by
  rcases cleanByte_cases s a with h | h | ⟨v, st, -, hst, h⟩ <;> rw [h]
  · exact ⟨rfl, rfl, rfl, rfl, rfl, rfl, rfl, rfl, rfl, fun _ => rfl⟩
  · exact ⟨rfl, rfl, rfl, rfl, rfl, rfl, rfl, rfl, rfl, fun _ => rfl⟩
  · exact ⟨rfl, rfl, rfl, rfl, rfl, rfl, rfl, rfl, rfl, hst⟩

theorem writeOutcome_busy {offset : Nat} {v : Word} {s t : State} (h : WriteOutcome offset v s t) : t.busy = s.busy := by
  cases h <;> rfl

theorem writeOutcome_result {offset : Nat} {v : Word} {s t : State} (h : WriteOutcome offset v s t) :
    t.result = s.result := by
  cases h <;> rfl

/-! ## The status invariant (R38, R39, R42, R139) -/

/-- The invariant speaks of four fields only. -/
theorem StatusInv.of_eq {s t : State} (h : StatusInv s) (hb : t.busy = s.busy) (hd : t.done = s.done) (he : t.err = s.err)
    (hc : t.errcode = s.errcode) : StatusInv t where
  oneOutcome := by rw [hd, he]; exact h.oneOutcome
  codeExactlyOnError := by rw [hc, he]; exact h.codeExactlyOnError
  codeProduced := by rw [hc]; exact h.codeProduced
  noOutcomeWhileBusy := by rw [hb, hd, he]; exact h.noOutcomeWhileBusy

theorem StatusInv.of_no_outcome {s : State} (hd : s.done = false) (he : s.err = false) (hc : s.errcode = 0) :
    StatusInv s := by
  constructor <;> simp [hd, he, hc]

theorem StatusInv.errcode_eq_zero {s : State} (h : StatusInv s) (he : s.err = false) : s.errcode = 0 := by
  by_contra hc
  simp [h.codeExactlyOnError.1 hc] at he

theorem complete_statusInv {v : Word} {s : State} (he : s.err = false) (hc : s.errcode = 0) : StatusInv (complete v s) := by
  constructor <;> simp [he, hc]

theorem raiseError_statusInv {c : ErrCode} {s : State} (hc : c ≠ .none) (hd : s.done = false) :
    StatusInv (raiseError c s) := by
  have hcode : errCodeBits c ≠ 0#4 ∧ (errCodeBits c).toNat ≤ 4 := by cases c <;> simp_all [errCodeBits]
  constructor <;> simp [hd, hcode]

theorem writeStatus_statusInv {s : State} (h : StatusInv s) (v : Word) : StatusInv (writeStatus v s) := by
  obtain ⟨hone, hcode, hle, hbusy⟩ := h
  constructor
  · simp only [writeStatus_done, writeStatus_err, Bool.and_eq_true]
    exact fun ⟨⟨hd, _⟩, ⟨he, _⟩⟩ => hone ⟨hd, he⟩
  · rw [writeStatus_errcode, writeStatus_err]
    cases v.getLsbD 2 with
    | true => simp
    | false => simpa using hcode
  · rw [writeStatus_errcode]
    cases v.getLsbD 2 with
    | true => exact Nat.zero_le 4
    | false => exact hle
  · intro hb
    simp [hbusy hb]

theorem commandOutcome_statusInv {s t : State} (h : StatusInv s) (ht : CommandOutcome s t) : StatusInv t := by
  cases ht with
  | ignored => exact h.of_eq rfl rfl rfl rfl
  | completed => exact complete_statusInv rfl rfl
  | failed _ c hc => exact raiseError_statusInv (by rcases hc with rfl | rfl <;> nofun) rfl
  | started => exact .of_no_outcome rfl rfl rfl

theorem engineOutcome_statusInv {s t : State} (h : StatusInv s) (ht : EngineOutcome s t) : StatusInv t := by
  cases ht with
  | idle => exact h
  | busError hb => exact raiseError_statusInv nofun (h.noOutcomeWhileBusy hb).1
  | done hb =>
    have he := (h.noOutcomeWhileBusy hb).2
    exact complete_statusInv he (h.errcode_eq_zero he)
  | read | readFails => exact h.of_eq rfl rfl rfl rfl

theorem writeOutcome_statusInv {offset : Nat} {v : Word} {s t : State} (h : StatusInv s) (ht : WriteOutcome offset v s t) :
    StatusInv t := by
  cases ht with
  | status => exact writeStatus_statusInv h v
  | nothing | ctrl | ignored | n | waddr | aaddr => exact h.of_eq rfl rfl rfl rfl

/-- Settles O48, by the cases of a step: acceptance clears the outcome, and only a state without one gets a new one. -/
theorem statusInvariantIsKept : Obligations.StatusInvariantIsKept := by
  intro s t h hstep
  have hframe (es : List Event) (k : Nat) : StatusInv { s with inputs := es, draws := k } := h.of_eq rfl rfl rfl rfl
  cases step_outcome hstep with
  | rest => exact h
  | engine _ es k pick draw ht => exact engineOutcome_statusInv (hframe es k) (engineStep_outcome ht)
  | read | illegalIgnored => exact h.of_eq rfl rfl rfl rfl
  | command _ _ ht => exact commandOutcome_statusInv (hframe _ s.draws) (exec_outcome ht)
  | illegal => exact raiseError_statusInv nofun rfl
  | register _ ht => exact writeOutcome_statusInv (hframe _ s.draws) ht
  | @store rest a v =>
    have hk := storeByte_keeps_device { s with inputs := rest } a.toNat v
    exact h.of_eq hk.busy hk.done hk.err hk.errcode
  | @clean rest a =>
    have hk := cleanByte_keeps_device { s with inputs := rest } a.toNat
    exact h.of_eq hk.busy hk.done hk.err hk.errcode
  | reset => exact .of_no_outcome rfl rfl rfl

/-! ## The engine's invariant (R50, R140, R141) -/

/-- The invariant speaks of BUSY, N, WADDR, AADDR and the engine, and of `stale` only in an idle state. -/
theorem EngineInv.of_eq {s t : State} (h : EngineInv s) (hb : t.busy = s.busy) (hn : t.n = s.n) (hw : t.waddr = s.waddr)
    (ha : t.aaddr = s.aaddr) (he : t.eng = s.eng) (hs : s.busy = false → t.stale = s.stale) : EngineInv t where
  busyHasOp := by rw [hb, he]; exact h.busyHasOp
  restWhenIdle hidle := by
    have hidle : s.busy = false := hb ▸ hidle
    rw [he, hs hidle]
    exact h.restWhenIdle hidle
  bases := by rw [hb, he, hw, ha]; exact h.bases
  dotCount := by rw [he, hn]; exact h.dotCount
  isumCount := by rw [he]; exact h.isumCount
  rangesFit := by rw [hb, he, hw, ha]; exact h.rangesFit
  pendingOnce := by rw [he]; exact h.pendingOnce
  bytesRising := by rw [he]; exact h.bytesRising
  pendingOrRead := by rw [hb, he, hw, ha]; exact h.pendingOrRead
  notBoth := by rw [he]; exact h.notBoth

theorem EngineInv.of_rest {s : State} (hb : s.busy = false) (he : EngineAtRest s.eng) (hs : s.stale = []) :
    EngineInv s := by
  obtain ⟨hop, hpending, hbytes, -⟩ := id he
  constructor <;> simp [hb, he, hs, hop, hpending, hbytes, rising_nil]

theorem engineIdle_atRest (e : Engine) : EngineAtRest (engineIdle e) := ⟨rfl, rfl, rfl, rfl⟩

theorem engineReset_atRest : EngineAtRest Engine.reset := ⟨rfl, rfl, rfl, rfl⟩

theorem complete_engineInv (v : Word) (s : State) : EngineInv (complete v s) := .of_rest rfl (engineIdle_atRest _) rfl

theorem raiseError_engineInv (c : ErrCode) (s : State) : EngineInv (raiseError c s) := .of_rest rfl (engineIdle_atRest _) rfl

theorem startEngine_engineInv {op : EngOp} {mode : Mode} {nb : Word} {s : State} (hop : op ≠ .none)
    (hfit : RangesInSpace s nb.toNat) (hdot : op = .dot → lengthLegal s.n = true ∧ nb = blockCount s.n)
    (hisum : op = .isum → nb = 1) : EngineInv (startEngine op mode nb s) where
  busyHasOp := by simpa using hop
  restWhenIdle := nofun
  bases _ := ⟨rfl, rfl⟩
  dotCount := hdot
  isumCount := hisum
  rangesFit _ := hfit
  pendingOnce := inputAddresses_nodup _ _ _
  bytesRising := rising_nil
  pendingOrRead _ a := by simp [mem_inputAddresses]
  notBoth _ _ := rfl

/-- The byte read moves from the pending ones to the ones read. -/
theorem engineRead_engineInv {s : State} (h : EngineInv s) (hb : s.busy = true) {a : Nat} (ha : a ∈ s.eng.pending) (v : Byte) :
    EngineInv { s with eng := { s.eng with bytes := insertCell a v s.eng.bytes, pending := s.eng.pending.erase a } } where
  busyHasOp := h.busyHasOp
  restWhenIdle hidle := absurd (hb.symm.trans hidle) nofun
  bases := h.bases
  dotCount := h.dotCount
  isumCount := h.isumCount
  rangesFit := h.rangesFit
  pendingOnce := h.pendingOnce.erase a
  bytesRising := insertCell_rising a v _ h.bytesRising
  pendingOrRead _ b := by
    rw [h.pendingOrRead hb b]
    simp only [lookupCell_insertCell, h.pendingOnce.mem_erase_iff]
    by_cases hab : b = a
    · simp [hab, ha]
    · simp [hab]
  notBoth b hmem := by
    obtain ⟨hab, hmem⟩ := h.pendingOnce.mem_erase_iff.1 hmem
    rw [lookupCell_insertCell, if_neg hab]
    exact h.notBoth b hmem

theorem engineReadFails_engineInv {s : State} (h : EngineInv s) (hb : s.busy = true) :
    EngineInv { s with eng := { s.eng with berr := true } } where
  busyHasOp := h.busyHasOp
  restWhenIdle hidle := absurd (hb.symm.trans hidle) nofun
  bases := h.bases
  dotCount := h.dotCount
  isumCount := h.isumCount
  rangesFit := h.rangesFit
  pendingOnce := h.pendingOnce
  bytesRising := h.bytesRising
  pendingOrRead := h.pendingOrRead
  notBoth := h.notBoth

theorem commandOutcome_engineInv {s t : State} (h : EngineInv s) (ht : CommandOutcome s t) : EngineInv t := by
  cases ht with
  | ignored => exact h.of_eq rfl rfl rfl rfl rfl fun _ => rfl
  | completed => exact complete_engineInv _ _
  | failed => exact raiseError_engineInv _ _
  | started _ op mode nb hop hfit hdot hisum =>
    exact startEngine_engineInv (by rcases hop with rfl | rfl <;> nofun) (rangesFit_iff.1 hfit) hdot hisum

theorem engineOutcome_engineInv {s t : State} (h : EngineInv s) (ht : EngineOutcome s t) : EngineInv t := by
  cases ht with
  | idle => exact h
  | busError => exact raiseError_engineInv _ _
  | done => exact complete_engineInv _ _
  | read hb _ _ a ha _ v => exact engineRead_engineInv h hb ha v
  | readFails hb => exact engineReadFails_engineInv h hb

/-- The operands are written only while the engine is at rest. -/
theorem writeOutcome_engineInv {offset : Nat} {v : Word} {s t : State} (h : EngineInv s) (ht : WriteOutcome offset v s t) :
    EngineInv t := by
  cases ht with
  | nothing | ctrl | status | ignored => exact h.of_eq rfl rfl rfl rfl rfl fun _ => rfl
  | n hb | waddr hb | aaddr hb =>
    obtain ⟨he, hs⟩ := h.restWhenIdle hb
    exact .of_rest hb he hs

/-- Settles O49, by the cases of a step: a command starts or ends with the engine's fields set as a whole, and between them
only an engine read moves a byte. -/
theorem engineInvariantIsKept : Obligations.EngineInvariantIsKept := by
  intro s t h hstep
  have hframe (es : List Event) (k : Nat) : EngineInv { s with inputs := es, draws := k } :=
    h.of_eq rfl rfl rfl rfl rfl fun _ => rfl
  cases step_outcome hstep with
  | rest => exact h
  | engine _ es k pick draw ht => exact engineOutcome_engineInv (hframe es k) (engineStep_outcome ht)
  | read | illegalIgnored => exact h.of_eq rfl rfl rfl rfl rfl fun _ => rfl
  | command _ _ ht => exact commandOutcome_engineInv (hframe _ s.draws) (exec_outcome ht)
  | illegal => exact raiseError_engineInv _ _
  | register _ ht => exact writeOutcome_engineInv (hframe _ s.draws) ht
  | @store rest a v =>
    have hk := storeByte_keeps_device { s with inputs := rest } a.toNat v
    exact h.of_eq hk.busy hk.n hk.waddr hk.aaddr hk.eng hk.stale
  | @clean rest a =>
    have hk := cleanByte_keeps_device { s with inputs := rest } a.toNat
    exact h.of_eq hk.busy hk.n hk.waddr hk.aaddr hk.eng hk.stale
  | reset => exact .of_rest rfl engineReset_atRest rfl

/-! ## The reset state (R53) -/

/-- Settles O46: each value is read off the definition of the reset state (R53). -/
theorem resetStateValues : Obligations.ResetStateValues :=
  ⟨rfl, rfl, rfl, rfl, rfl, rfl, rfl, rfl, rfl, engineReset_atRest, irq_of_masked rfl⟩

/-- Settles O51: the base case of O48 to O50. -/
theorem resetMeetsTheInvariants : Obligations.ResetMeetsTheInvariants where
  status := .of_no_outcome rfl rfl rfl
  engine := .of_rest rfl engineReset_atRest rfl
  memory := reset_memory_wf

/-! ## When BUSY and RESULT change (R38, R47) -/

theorem commandOutcome_stays_busy {s t : State} (h : CommandOutcome s t) (hb : s.busy = true) : t.busy = true := by
  cases h with
  | ignored => exact hb
  | completed idle | failed idle => simp [hb] at idle
  | started => rfl

theorem engineOutcome_stays_idle {s t : State} (h : EngineOutcome s t) (hb : s.busy = false) : t.busy = false := by
  cases h with
  | idle => exact hb
  | busError hbusy | done hbusy | read hbusy | readFails hbusy => simp [hb] at hbusy

/-- An engine turn ends a command only when a read has failed or nothing is left to read. -/
theorem engineOutcome_ends {s t : State} (h : EngineOutcome s t) (hs : s.busy = true) (ht : t.busy = false) :
    (s.eng.berr = true ∨ s.eng.pending = []) ∧ (t.done = true ∨ t.err = true) := by
  cases h with
  | idle hb => simp [hs] at hb
  | busError _ he => exact ⟨.inl he, .inr rfl⟩
  | done _ _ hp => exact ⟨.inr hp, .inl rfl⟩
  | read | readFails => simp [hs] at ht

theorem engineOutcome_changes_result {s t : State} (h : EngineOutcome s t) (hr : t.result ≠ s.result) :
    s.busy = true ∧ t.busy = false ∧ t.done = true ∧ s.eng.berr = false ∧ s.eng.pending = [] := by
  cases h with
  | done hb he hp => exact ⟨hb, rfl, rfl, he, hp⟩
  | idle | busError | read | readFails => exact absurd rfl hr

theorem commandOutcome_changes_result {s t : State} (h : CommandOutcome s t) (hr : t.result ≠ s.result) :
    s.busy = false ∧ t.busy = false ∧ t.done = true := by
  cases h with
  | completed idle => exact ⟨idle, rfl, rfl⟩
  | ignored | failed | started => exact absurd rfl hr

/-- The step that sets BUSY is the acceptance of a DOT or ISUM word. -/
theorem step_sets_busy {s t : State} (h : StepOutcome s t) (hs : s.busy = false) (ht : t.busy = true) :
    ∃ v rest i, s.inputs = .hostWrite 32 0x10 v :: rest ∧ decode v = .ok i ∧
      i ∈ [Instr.dotPair2, .dotQuad4, .dotSeq, .isum] := by
  have hkept (h : t.busy = s.busy) : False := by simp [h, hs] at ht
  cases h with
  | command hi hd hx => exact ⟨_, _, _, hi, hd, by_contra fun hmem => hkept (exec_busy hmem hx :)⟩
  | engine _ _ _ _ _ hx => exact (hkept ((engineOutcome_stays_idle (engineStep_outcome hx) hs).trans hs.symm)).elim
  | register _ hx => exact (hkept (writeOutcome_busy hx :)).elim
  | store => exact (hkept (storeByte_keeps_device _ _ _).busy).elim
  | clean => exact (hkept (cleanByte_keeps_device _ _).busy).elim
  | rest | read | illegalIgnored => exact (hkept rfl).elim
  | illegal | reset => nomatch ht

/-- The step that clears BUSY is the reset event or the engine's completion. -/
theorem step_clears_busy {s t : State} (h : StepOutcome s t) (hs : s.busy = true) (ht : t.busy = false) :
    (∃ rest, s.inputs = .reset :: rest) ∨
      ((s.inputs = [] ∨ ∃ pick draw rest, s.inputs = .engine pick draw :: rest) ∧
        (s.eng.berr = true ∨ s.eng.pending = []) ∧ (t.done = true ∨ t.err = true)) := by
  have hkept (h : t.busy = s.busy) : False := by simp [h, hs] at ht
  cases h with
  | reset hi => exact .inl ⟨_, hi⟩
  | engine hi _ _ _ _ hx => exact .inr ⟨hi, (engineOutcome_ends (engineStep_outcome hx) hs ht :)⟩
  | command _ _ hx => exact (hkept ((commandOutcome_stays_busy (exec_outcome hx) hs).trans hs.symm)).elim
  | register _ hx => exact (hkept (writeOutcome_busy hx :)).elim
  | store => exact (hkept (storeByte_keeps_device _ _ _).busy).elim
  | clean => exact (hkept (cleanByte_keeps_device _ _).busy).elim
  | rest | read | illegalIgnored => exact (hkept rfl).elim
  | illegal _ _ hb => simp [hs] at hb

/-- Settles O54, from the two directions `step_sets_busy` and `step_clears_busy`. -/
theorem busyChangesOnlyAtStartAndEnd : Obligations.BusyChangesOnlyAtStartAndEnd :=
  fun _ _ hstep => ⟨step_sets_busy (step_outcome hstep), step_clears_busy (step_outcome hstep)⟩

/-- Settles O56: of the commands only CVTH, NIBD and CLR write RESULT in their own write, and of the engine's turns only a
completion without a failed read. -/
theorem resultChangesOnlyAtCompletion : Obligations.ResultChangesOnlyAtCompletion := by
  intro s t hstep hr
  cases step_outcome hstep with
  | reset hi => exact .inl ⟨_, hi⟩
  | command hi hd hx =>
    obtain ⟨hs, ht, hdone⟩ := commandOutcome_changes_result (exec_outcome hx) hr
    exact .inr (.inl ⟨hs, ht, hdone, _, _, _, hi, hd, fun hmem => hr (exec_result hmem hx :)⟩)
  | engine hi _ _ _ _ hx => exact .inr (.inr ⟨hi, (engineOutcome_changes_result (engineStep_outcome hx) hr :)⟩)
  | register _ hx => exact absurd (writeOutcome_result hx :) hr
  | store => exact absurd (storeByte_keeps_device _ _ _).result hr
  | clean => exact absurd (cleanByte_keeps_device _ _).result hr
  | rest | read | illegalIgnored | illegal => exact absurd rfl hr

end Sys2Proof.Machine

/-! # Proofs: the memory, its byte order, and what a racing read may return (20_memory) -/

namespace Sys2Proof.Machine

/-! ## Multi-byte reads (R80, R75) -/

theorem leBytes_eq_sum (B : Nat → Byte) (a n : Nat) :
    leBytes B a n = ∑ i ∈ Finset.range n, (B (a + i)).toNat * 2 ^ (8 * i) := by
  induction n generalizing a with
  | zero => rfl
  | succ n ih =>
    have hstep (i : Nat) : 2 ^ 8 * ((B (a + 1 + i)).toNat * 2 ^ (8 * i)) = (B (a + (i + 1))).toNat * 2 ^ (8 * (i + 1)) := by
      rw [show a + 1 + i = a + (i + 1) by omega]
      ring
    rw [Finset.sum_range_succ', leBytes, ih, Finset.mul_sum, Finset.sum_congr rfl fun i _ => hstep i]
    simp [add_comm]

theorem toNat_append_bytes (hi lo : Byte) : (hi ++ lo : Half).toNat = lo.toNat + 2 ^ 8 * hi.toNat := by
  rw [BitVec.toNat_append, ← Nat.shiftLeft_add_eq_or_of_lt lo.isLt, Nat.shiftLeft_eq]
  ring

theorem blockScale_toNat (B : Nat → Byte) (b : Nat) : (blockScale B b).toNat = leBytes B b 2 :=
  toNat_append_bytes _ _

/-- Settles O12: the sum by induction on the length, its first byte the least significant. -/
theorem deviceReadsAreLittleEndian : Obligations.DeviceReadsAreLittleEndian :=
  ⟨leBytes_eq_sum, blockScale_toNat⟩

/-! ## The launch premise of R83 -/

theorem launch_refuses {op : EngOp} {mode : Mode} {nb : Word} {s : State} (hfit : RangesInSpace s nb.toNat)
    (hside : ¬ NoSideEffectInput s nb.toNat) : launch op mode nb s = .refused .readSideEffects := by
  have htouch : touchesSideEffects s nb.toNat = true := by
    rwa [← touchesSideEffects_iff, Bool.not_eq_false] at hside
  simp [launch, rangesFit_iff.2 hfit, htouch]

theorem startDot_of_lengthLegal {mode : Mode} {s : State} (h : lengthLegal s.n = true) :
    startDot mode s = launch .dot mode (blockCount s.n) s := if_pos h

/-- Settles O30: both commands reach `launch` with the block count of the premises, and `launch_refuses` answers. -/
theorem sideEffectInputsAreRefused : Obligations.SideEffectInputsAreRefused := by
  refine ⟨fun s nb hb hlegal hfit hside c hc => ?_, fun s hb hfit hside => ?_⟩
  · obtain ⟨hlen, rfl⟩ := legalCount_spec hlegal
    calc exec c.1 s
      _ = startDot c.2 (clearOutcome s) := (exec_dot hc s).trans (commandWrite_idle hb)
      _ = launch .dot c.2 (blockCount s.n) (clearOutcome s) := startDot_of_lengthLegal hlen
      _ = .refused .readSideEffects := launch_refuses hfit hside
  · calc exec .isum s
      _ = launch .isum s.eng.mode 1 (clearOutcome s) := (exec_isum s).trans (commandWrite_idle hb)
      _ = .refused .readSideEffects := launch_refuses hfit hside

/-! ## The values a device read may return (R86, U5, R85, U18) -/

theorem mem_readCandidates {s : State} {a : Nat} {x : Byte} : x ∈ readCandidates s a ↔
    x = memRead s.mem a ∨ x ∈ valuesAt a s.stale ∨ (a ∈ s.uncleaned ∧ x ∈ valuesAt a s.hostStores) := by
  by_cases h : a ∈ s.uncleaned <;> simp [readCandidates, h]

theorem readCandidates_of_cleaned {s : State} {a : Nat} (h : a ∉ s.uncleaned) :
    readCandidates s a = memRead s.mem a :: valuesAt a s.stale := by
  simp [readCandidates, h]

/-- The candidates of a byte depend on that byte alone. -/
theorem readCandidates_congr {s t : State} {a : Nat} (hmem : memRead t.mem a = memRead s.mem a)
    (hstale : valuesAt a t.stale = valuesAt a s.stale) (hstores : valuesAt a t.hostStores = valuesAt a s.hostStores)
    (hmarks : a ∈ t.uncleaned ↔ a ∈ s.uncleaned) : readCandidates t a = readCandidates s a := by
  simp [readCandidates, hmem, hstale, hstores, hmarks]

theorem exists_draw_of_mem {s : State} {a : Nat} {x : Byte} (h : x ∈ readCandidates s a) :
    ∃ draw, deviceByte s a draw = x := by
  obtain ⟨i, hi, rfl⟩ := List.getElem_of_mem h
  exact ⟨i, by simp [deviceByte, Nat.mod_eq_of_lt hi, hi]⟩

/-- Acceptance starts the race with the memory value alone. -/
theorem readCandidates_startEngine {s : State} {a : Nat} (h : a ∉ s.uncleaned) (op : EngOp) (mode : Mode) (nb : Word) :
    readCandidates (startEngine op mode nb s) a = [memRead s.mem a] :=
  readCandidates_of_cleaned (s := startEngine op mode nb s) h

/-! ## A memory value replaced -/

theorem memRead_replaceByte {s : State} (h : Memory.rising s.mem) (a b : Nat) (v : Byte) :
    memRead (replaceByte s a v).mem b = if b = a then v else memRead s.mem b := memRead_memWrite s.mem h a b v

theorem valuesAt_replaceByte_stale (s : State) (a b : Nat) (v : Byte) : valuesAt b (replaceByte s a v).stale =
    if s.busy = true ∧ b = a then memRead s.mem a :: valuesAt a s.stale else valuesAt b s.stale := by
  rw [replaceByte_stale]
  by_cases hb : s.busy = true
  · by_cases hba : b = a <;> simp [hb, hba, valuesAt_cons]
  · simp [hb]

theorem readCandidates_replaceByte_other {s : State} (h : Memory.rising s.mem) {a b : Nat} (hba : b ≠ a) (v : Byte) :
    readCandidates (replaceByte s a v) b = readCandidates s b :=
  readCandidates_congr (by rw [memRead_replaceByte h, if_neg hba])
    (by rw [valuesAt_replaceByte_stale, if_neg fun hb => hba hb.2]) rfl Iff.rfl

/-- While BUSY is 1 the value replaced stays a candidate (R86). -/
theorem mem_readCandidates_replaceByte_busy {s : State} (h : Memory.rising s.mem) (hb : s.busy = true) (a : Nat)
    (v x : Byte) : x ∈ readCandidates (replaceByte s a v) a ↔ x = v ∨ x ∈ readCandidates s a := by
  rw [mem_readCandidates, mem_readCandidates, memRead_replaceByte h, valuesAt_replaceByte_stale, if_pos rfl,
    if_pos ⟨hb, rfl⟩, List.mem_cons, or_assoc]
  rfl

theorem readCandidates_replaceByte_idle {s : State} (h : Memory.rising s.mem) (hb : s.busy = false) (a : Nat) (v : Byte) :
    readCandidates (replaceByte s a v) a = v :: (readCandidates s a).tail := by
  simp [readCandidates, memRead_memWrite s.mem h, hb]

/-! ## A host store (R85, R86) -/

theorem storeByte_coherent {s : State} (h : s.platform.coherent = true) (a : Nat) (v : Byte) :
    storeByte s a v = replaceByte s a v := if_pos h

theorem storeByte_incoherent {s : State} (h : s.platform.coherent = false) (a : Nat) (v : Byte) :
    storeByte s a v = { s with hostStores := (a, v) :: s.hostStores, uncleaned := s.uncleaned.insert a } :=
  if_neg (by simp [h])

theorem mem_readCandidates_store_busy {s : State} (hc : s.platform.coherent = true) (hb : s.busy = true)
    (h : Memory.rising s.mem) (a b : Nat) (v x : Byte) :
    x ∈ readCandidates (storeByte s a v) b ↔ (b = a ∧ x = v) ∨ x ∈ readCandidates s b := by
  rw [storeByte_coherent hc]
  by_cases hba : b = a
  · subst hba
    simp [mem_readCandidates_replaceByte_busy h hb]
  · simp [readCandidates_replaceByte_other h hba, hba]

theorem readCandidates_store_idle {s : State} (hc : s.platform.coherent = true) (hb : s.busy = false)
    (h : Memory.rising s.mem) (a b : Nat) (v : Byte) :
    readCandidates (storeByte s a v) b = if b = a then v :: (readCandidates s a).tail else readCandidates s b := by
  rw [storeByte_coherent hc]
  split
  case isTrue hba => rw [hba, readCandidates_replaceByte_idle h hb]
  case isFalse hba => exact readCandidates_replaceByte_other h hba v

/-- An uncleaned store makes every value ever stored to its byte a candidate (U18). -/
theorem mem_readCandidates_store_incoherent {s : State} (hc : s.platform.coherent = false) (a b : Nat) (v x : Byte) :
    x ∈ readCandidates (storeByte s a v) b ↔
      x ∈ readCandidates s b ∨ (b = a ∧ (x = v ∨ x ∈ valuesAt a s.hostStores)) := by
  rw [storeByte_incoherent hc, mem_readCandidates, mem_readCandidates]
  by_cases hba : b = a
  · subst hba
    simp only [List.mem_insert_iff, true_or, valuesAt_cons, if_true, List.mem_cons, true_and]
    tauto
  · simp [hba, List.mem_insert_iff, valuesAt_cons]

theorem memRead_storeByte {s : State} (h : Memory.rising s.mem) (a b : Nat) (v : Byte) :
    memRead (storeByte s a v).mem b = if b = a ∧ s.platform.coherent = true then v else memRead s.mem b := by
  rcases storeByte_cases s a v with ⟨hc, hs⟩ | ⟨hc, hs⟩ <;> rw [hs]
  · simp [memRead_memWrite s.mem h, hc]
  · simp [hc]

theorem storeByte_frame (s : State) (a : Nat) (v : Byte) : storeByte s a v =
    { s with mem := (storeByte s a v).mem, stale := (storeByte s a v).stale, hostStores := (storeByte s a v).hostStores,
             uncleaned := (storeByte s a v).uncleaned } := by
  rcases storeByte_cases s a v with ⟨-, hs⟩ | ⟨-, hs⟩ <;> rw [hs]
  rfl

/-! ## A host clean (R85, R280) -/

theorem cleanByte_of_cleaned {s : State} {a : Nat} (h : a ∉ s.uncleaned) : cleanByte s a = s := by
  simp [cleanByte, h]

section CleanNewest

variable {s : State} {a : Nat} {v : Byte} {olds : List Byte} (ha : a ∈ s.uncleaned)
  (hv : valuesAt a s.hostStores = v :: olds)

include ha hv

theorem cleanByte_newest_frame : cleanByte s a =
    { s with mem := (cleanByte s a).mem, stale := (cleanByte s a).stale, uncleaned := (cleanByte s a).uncleaned } := by
  rw [cleanByte_newest ha hv]
  rfl

theorem cleanByte_newest_hostStores : (cleanByte s a).hostStores = s.hostStores := by
  rw [cleanByte_newest ha hv]
  rfl

theorem memRead_cleanByte_newest (h : Memory.rising s.mem) (b : Nat) :
    memRead (cleanByte s a).mem b = if b = a then v else memRead s.mem b := by
  rw [cleanByte_newest ha hv]
  exact memRead_replaceByte h a b v

theorem mem_cleanByte_newest_uncleaned (b : Nat) : b ∈ (cleanByte s a).uncleaned ↔ b ≠ a ∧ b ∈ s.uncleaned := by
  rw [cleanByte_newest ha hv]
  simp [and_comm]

/-- While BUSY is 1 the values the byte may have had join the race. -/
theorem valuesAt_cleanByte_newest_stale (b : Nat) : valuesAt b (cleanByte s a).stale =
    if s.busy = true ∧ b = a then v :: olds ++ memRead s.mem a :: valuesAt a s.stale else valuesAt b s.stale := by
  rw [cleanByte_newest ha hv, valuesAt_append, valuesAt_replaceByte_stale]
  by_cases hb : s.busy = true
  · by_cases hba : b = a <;> simp [hb, hba, valuesAt_map, -List.map_cons]
  · simp [hb]

theorem readCandidates_cleanByte_other (h : Memory.rising s.mem) {b : Nat} (hba : b ≠ a) :
    readCandidates (cleanByte s a) b = readCandidates s b :=
  readCandidates_congr (by rw [memRead_cleanByte_newest ha hv h, if_neg hba])
    (by rw [valuesAt_cleanByte_newest_stale ha hv, if_neg fun hb => hba hb.2])
    (by rw [cleanByte_newest_hostStores ha hv])
    (by rw [mem_cleanByte_newest_uncleaned ha hv, and_iff_right hba])

/-- The byte cleaned has no mark any more, so its candidates are its memory value and the race. -/
theorem readCandidates_cleanByte_self (h : Memory.rising s.mem) :
    readCandidates (cleanByte s a) a = v :: valuesAt a (cleanByte s a).stale := by
  have hmark : a ∉ (cleanByte s a).uncleaned := by simp [mem_cleanByte_newest_uncleaned ha hv]
  rw [readCandidates_of_cleaned hmark, memRead_cleanByte_newest ha hv h, if_pos rfl]

theorem readCandidates_cleanByte_idle (h : Memory.rising s.mem) (hb : s.busy = false) :
    readCandidates (cleanByte s a) a = v :: valuesAt a s.stale := by
  rw [readCandidates_cleanByte_self ha hv h, valuesAt_cleanByte_newest_stale ha hv, if_neg (by simp [hb])]

theorem mem_readCandidates_cleanByte_busy (h : Memory.rising s.mem) (hb : s.busy = true) (x : Byte) :
    x ∈ readCandidates (cleanByte s a) a ↔ x ∈ readCandidates s a := by
  rw [readCandidates_cleanByte_self ha hv h, valuesAt_cleanByte_newest_stale ha hv, if_pos ⟨hb, rfl⟩, mem_readCandidates, hv]
  simp only [List.mem_cons, List.mem_append, ha, true_and]
  tauto

end CleanNewest

/-- Settles O44, clause by clause: a draw picks any candidate, a coherent store replaces the memory value, one without coherence
adds a mark, and a clean makes the newest store the memory value. -/
theorem racingReadsReturnHeldValues : Obligations.RacingReadsReturnHeldValues :=
  ⟨fun s a => ⟨deviceByte_mem s a, fun _ => exists_draw_of_mem⟩,
    fun _ op mode nb _ ha => readCandidates_startEngine ha op mode nb,
    fun _ a b v x hc hb h => mem_readCandidates_store_busy hc hb h a b v x,
    fun _ a b v x hc => mem_readCandidates_store_incoherent hc a b v x,
    fun _ a b v hc hb h => readCandidates_store_idle hc hb h a b v,
    fun s a v hw h => ⟨hostStore_next.2 ⟨hw, rfl⟩, storeByte_frame s a v, fun b => memRead_storeByte h a b v⟩,
    fun _ _ => cleanByte_of_cleaned,
    fun _ _ _ _ ha hv h => ⟨cleanByte_newest_frame ha hv, memRead_cleanByte_newest ha hv h,
      mem_cleanByte_newest_uncleaned ha hv, fun _ => readCandidates_cleanByte_other ha hv h,
      readCandidates_cleanByte_idle ha hv h, mem_readCandidates_cleanByte_busy ha hv h⟩⟩

/-! ## What a step does to memory and to the platform (R81, R70) -/

/-- Memory and the platform are those of `s`. -/
structure BusKept (s t : State) : Prop where
  mem : t.mem = s.mem
  platform : t.platform = s.platform

/-- The events still to come and the count of free choices are no part of the bus. -/
theorem BusKept.of_inputs {s t : State} {es : List Event} {k : Nat} (h : BusKept { s with inputs := es, draws := k } t) :
    BusKept s t := ⟨h.mem, h.platform⟩

theorem MemoryInv.of_busKept {s t : State} (h : MemoryInv s) (hk : BusKept s t) : MemoryInv t := by
  rw [MemoryInv, hk.mem]
  exact h

theorem commandOutcome_busKept {s t : State} (h : CommandOutcome s t) : BusKept s t := by
  cases h <;> exact ⟨rfl, rfl⟩

theorem engineOutcome_busKept {s t : State} (h : EngineOutcome s t) : BusKept s t := by
  cases h <;> exact ⟨rfl, rfl⟩

theorem writeOutcome_busKept {offset : Nat} {v : Word} {s t : State} (h : WriteOutcome offset v s t) : BusKept s t := by
  cases h <;> exact ⟨rfl, rfl⟩

theorem storeByte_platform (s : State) (a : Nat) (v : Byte) : (storeByte s a v).platform = s.platform := by
  rw [storeByte_frame]

theorem cleanByte_platform (s : State) (a : Nat) : (cleanByte s a).platform = s.platform := by
  rcases cleanByte_cases s a with h | h | ⟨v, st, -, -, h⟩ <;> rw [h]

/-- A step keeps memory and the platform, or is a host store or a host clean. -/
theorem step_busKept_or_hostAccess {s t : State} (h : StepOutcome s t) : BusKept s t ∨
    (∃ a v rest, s.inputs = .hostStore a v :: rest ∧ t = storeByte { s with inputs := rest } a.toNat v) ∨
    (∃ a rest, s.inputs = .hostClean a :: rest ∧ t = cleanByte { s with inputs := rest } a.toNat) := by
  cases h with
  | store hi => exact .inr (.inl ⟨_, _, _, hi, rfl⟩)
  | clean hi => exact .inr (.inr ⟨_, _, hi, rfl⟩)
  | engine _ _ _ _ _ ht => exact .inl (engineOutcome_busKept (engineStep_outcome ht)).of_inputs
  | command _ _ ht => exact .inl (commandOutcome_busKept (exec_outcome ht)).of_inputs
  | register _ ht => exact .inl (writeOutcome_busKept ht).of_inputs
  | rest | read | illegalIgnored | illegal | reset => exact .inl ⟨rfl, rfl⟩

/-- Settles O50: only a store or a clean changes memory, and each writes one byte below 2^32 in canonical form. -/
theorem memoryFormIsKept : Obligations.MemoryFormIsKept := by
  intro s t hwf hstep
  rcases step_busKept_or_hostAccess (step_outcome hstep) with hk | ⟨a, v, rest, -, rfl⟩ | ⟨a, rest, -, rfl⟩
  · exact hwf.of_busKept hk
  · exact storeByte_memory_wf _ _ a.isLt v hwf
  · exact cleanByte_memory_wf _ _ a.isLt hwf

/-- Settles O53: the two events that change memory are the ones the premises exclude, and neither changes the platform. -/
theorem deviceNeverWritesMemory : Obligations.DeviceNeverWritesMemory := by
  intro s t hstep
  rcases step_busKept_or_hostAccess (step_outcome hstep) with hk | ⟨a, v, rest, hi, rfl⟩ | ⟨a, rest, hi, rfl⟩
  · exact ⟨hk.platform, fun _ _ a => by rw [hk.mem]⟩
  · exact ⟨storeByte_platform _ _ _, fun hstore _ => absurd hi (hstore a v rest)⟩
  · exact ⟨cleanByte_platform _ _, fun _ hclean => absurd hi (hclean a rest)⟩

end Sys2Proof.Machine

/-! # Proofs: the command words, their decoder and the assembler (30_encoding) -/

namespace Sys2Proof

/-! ## A word and its fields (R101) -/

theorem word_fields (v : Word) : v = cmdImm v ++ (cmdRsv v ++ cmdMode v ++ cmdOp v : Half) := by
  have hlow : v.extractLsb' 4 12 ++ cmdOp v = v.extractLsb' 0 16 :=
    BitVec.extractLsb'_append_extractLsb'_eq_extractLsb' rfl
  have hmid : cmdRsv v ++ cmdMode v = v.extractLsb' 4 12 := BitVec.extractLsb'_append_extractLsb'_eq_extractLsb' rfl
  rw [hmid, hlow]
  exact word_halves v

theorem word_of_fields {v : Word} {imm : Half} {rsv : BitVec 10} {mode : BitVec 2} {op : BitVec 4} (himm : cmdImm v = imm)
    (hrsv : cmdRsv v = rsv) (hmode : cmdMode v = mode) (hop : cmdOp v = op) : imm ++ (rsv ++ mode ++ op : Half) = v := by
  subst himm hrsv hmode hop
  exact (word_fields v).symm

theorem cmdImm_extractLsb'_high (v : Word) : (cmdImm v).extractLsb' 8 8 = v.extractLsb' 24 8 := by
  ext k hk
  simp only [cmdImm, BitVec.getElem_extractLsb', BitVec.getLsbD_extractLsb', ← Nat.add_assoc]
  simp only [show 8 + k < 16 by omega, decide_true, Bool.true_and, Nat.reduceAdd]

/-! ## What the decoder answers (R106, R107) -/

/-- Everything the decoder can answer on a word: the command whose word it is, or a cause of R107 the word shows. -/
inductive DecodeOutcome (v : Word) : Except Illegal Instr → Prop where
  | legal (i : Instr) (word : encode i = v) : DecodeOutcome v (.ok i)
  | reservedBits (rsv : cmdRsv v ≠ 0) : DecodeOutcome v (.error .reservedBits)
  | reservedOp (op : 6 ≤ (cmdOp v).toNat) : DecodeOutcome v (.error .reservedOp)
  | reservedMode (op : cmdOp v = 1) (mode : cmdMode v = 3) : DecodeOutcome v (.error .reservedMode)
  | modeOutsideDot (mode : cmdMode v ≠ 0) (op : cmdOp v ≠ 1) : DecodeOutcome v (.error .modeOutsideDot)
  | immediate (imm : cmdImm v ≠ 0) (cvth : cmdOp v ≠ 3) (nibd : cmdOp v ≠ 4) : DecodeOutcome v (.error .immediateBits)
  | nibdHigh (op : cmdOp v = 4) (high : v.extractLsb' 24 8 ≠ 0) : DecodeOutcome v (.error .immediateBits)

section

variable {v : Word} (hrsv : cmdRsv v = 0)
include hrsv

theorem decodePlain_outcome {i : Instr} {op : BitVec 4} (hop : cmdOp v = op) (hdot : op ≠ 1) (hcvth : op ≠ 3)
    (hnibd : op ≠ 4) (hword : encode i = 0#16 ++ (0#10 ++ 0#2 ++ op : Half)) :
    DecodeOutcome v (decodePlain i (cmdMode v) (cmdImm v)) := by
  subst hop
  simp only [decodePlain, ne_eq, ite_not]
  split_ifs with hmode himm
  · exact .legal i (hword.trans (word_of_fields himm hrsv hmode rfl))
  · exact .immediate himm hcvth hnibd
  · exact .modeOutsideDot hmode hdot

theorem decodeDot_outcome (hop : cmdOp v = 0x1) : DecodeOutcome v (decodeDot (cmdMode v) (cmdImm v)) := by
  simp only [decodeDot, ne_eq, ite_not]
  split_ifs with himm hpair hquad hseq
  · exact .legal _ (word_of_fields himm hrsv hpair hop)
  · exact .legal _ (word_of_fields himm hrsv hquad hop)
  · exact .legal _ (word_of_fields himm hrsv hseq hop)
  · exact .reservedMode hop (by bv_omega)
  · exact .immediate himm (by simp [hop]) (by simp [hop])

theorem decodeCvth_outcome (hop : cmdOp v = 0x3) : DecodeOutcome v (decodeCvth (cmdMode v) (cmdImm v)) := by
  simp only [decodeCvth, ne_eq, ite_not]
  split_ifs with hmode
  · exact .legal _ (word_of_fields rfl hrsv hmode hop)
  · exact .modeOutsideDot hmode (by simp [hop])

theorem decodeNibd_outcome (hop : cmdOp v = 0x4) : DecodeOutcome v (decodeNibd (cmdMode v) (cmdImm v)) := by
  simp only [decodeNibd, ne_eq, ite_not]
  split_ifs with hmode hhigh
  · have himm : cmdImm v = 0x00#8 ++ (cmdImm v).extractLsb' 0 8 := by
      rw [← show (cmdImm v).extractLsb' 8 8 = 0x00#8 from hhigh]
      exact (BitVec.extractLsb'_append_extractLsb' (w := 8) (len := 8)).symm
    exact .legal _ (word_of_fields himm hrsv hmode hop)
  · exact .nibdHigh hop (cmdImm_extractLsb'_high v ▸ hhigh)
  · exact .modeOutsideDot hmode (by simp [hop])

end

theorem decode_outcome (v : Word) : DecodeOutcome v (decode v) := by
  simp only [decode, ne_eq, ite_not]
  split_ifs with hrsv hnop hdot hisum hcvth hnibd hclr
  · exact decodePlain_outcome hrsv hnop (by decide) (by decide) (by decide) rfl
  · exact decodeDot_outcome hrsv hdot
  · exact decodePlain_outcome hrsv hisum (by decide) (by decide) (by decide) rfl
  · exact decodeCvth_outcome hrsv hcvth
  · exact decodeNibd_outcome hrsv hnibd
  · exact decodePlain_outcome hrsv hclr (by decide) (by decide) (by decide) rfl
  · exact .reservedOp (by bv_omega)
  · exact .reservedBits hrsv

theorem encode_of_decode {v : Word} {i : Instr} (h : decode v = .ok i) : encode i = v := by
  have hv := h ▸ decode_outcome v
  cases hv with
  | legal _ word => exact word

/-- Settles O1: `decode_outcome` gives a decoded command its word, and `decode_encode` decodes the word of a command. -/
theorem decodeExactlyInvertsEncode : Obligations.DecodeExactlyInvertsEncode :=
  fun _ i => ⟨encode_of_decode, fun h => h ▸ decode_encode i⟩

theorem encode_injective : Function.Injective encode := fun i j h =>
  Except.ok.inj <| calc Except.ok i
    _ = decode (encode i) := (decode_encode i).symm
    _ = decode (encode j) := by rw [h]
    _ = .ok j := decode_encode j

/-! ## The opcode table (R105, R108) -/

theorem encodesItsRow (i : Instr) : Laws.EncodesItsRow.Statement i := by
  cases i with
  | nop => exact Laws.EncodesItsRow.nop
  | dotPair2 => exact Laws.EncodesItsRow.dotPair2
  | dotQuad4 => exact Laws.EncodesItsRow.dotQuad4
  | dotSeq => exact Laws.EncodesItsRow.dotSeq
  | isum => exact Laws.EncodesItsRow.isum
  | cvth h => exact Laws.EncodesItsRow.cvth h
  | nibd b => exact Laws.EncodesItsRow.nibd b
  | clr => exact Laws.EncodesItsRow.clr

/-- A field that the mask covers holds the pattern's bits. -/
theorem extractLsb'_of_masked {v mask pattern : Word} (h : v &&& mask = pattern) {start len : Nat}
    (hcover : mask.extractLsb' start len = BitVec.allOnes len) :
    v.extractLsb' start len = pattern.extractLsb' start len := by
  rw [← h, BitVec.extractLsb'_and, hcover, BitVec.and_allOnes]

theorem eq_of_wholly_masked {v pattern : Word} (h : v &&& 0xFFFFFFFF = pattern) : pattern = v :=
  h.symm.trans BitVec.and_allOnes

theorem word_of_cvth_row {v : Word} (h : v &&& 0x0000FFFF = 0x00000003) : encode (.cvth (cmdImm v)) = v := by
  have hlow : v.extractLsb' 0 16 = 0x0003#16 := extractLsb'_of_masked h rfl
  rw [encode, ← hlow]
  exact (word_halves v).symm

theorem word_of_nibd_row {v : Word} (h : v &&& 0xFF00FFFF = 0x00000004) :
    encode (.nibd (v.extractLsb' 16 8)) = v := by
  have hlow : v.extractLsb' 0 16 = 0x0004#16 := extractLsb'_of_masked h rfl
  have hhigh : v.extractLsb' 24 8 = 0x00#8 := extractLsb'_of_masked h rfl
  have hmid : v.extractLsb' 24 8 ++ v.extractLsb' 16 8 = v.extractLsb' 16 16 :=
    BitVec.extractLsb'_append_extractLsb'_eq_extractLsb' rfl
  rw [encode, ← hlow, ← hhigh, hmid]
  exact (word_halves v).symm

theorem command_of_row {v : Word} {r : OpcodeRow} (hr : r ∈ opcodeTable) (h : v &&& r.mask = r.pattern) :
    ∃ i, encode i = v ∧ mnemonicOf i = r.mnemonic := by
  simp only [opcodeTable, List.mem_cons, List.not_mem_nil, or_false] at hr
  rcases hr with rfl | rfl | rfl | rfl | rfl | rfl | rfl | rfl
  · exact ⟨.nop, eq_of_wholly_masked h, rfl⟩
  · exact ⟨.dotPair2, eq_of_wholly_masked h, rfl⟩
  · exact ⟨.dotQuad4, eq_of_wholly_masked h, rfl⟩
  · exact ⟨.dotSeq, eq_of_wholly_masked h, rfl⟩
  · exact ⟨.isum, eq_of_wholly_masked h, rfl⟩
  · exact ⟨.cvth _, word_of_cvth_row h, rfl⟩
  · exact ⟨.nibd _, word_of_nibd_row h, rfl⟩
  · exact ⟨.clr, eq_of_wholly_masked h, rfl⟩

theorem row_of_command (i : Instr) :
    ∃ r ∈ opcodeTable, r.mnemonic = mnemonicOf i ∧ encode i &&& r.mask = r.pattern := by
  obtain ⟨r, hr, hname, hmatch⟩ := encodesItsRow i
  exact ⟨r, hr, hname, beq_iff_eq.1 hmatch⟩

theorem row_eq_of_mnemonic_eq :
    ∀ r ∈ opcodeTable, ∀ r' ∈ opcodeTable, r.mnemonic = r'.mnemonic → r = r' := by decide

/-- Settles O2: a matching row gives the command, which `encode_injective` makes the only one, and no two rows share a
mnemonic. -/
theorem legalWordsAreTheTableWords : Obligations.LegalWordsAreTheTableWords := by
  refine fun v => ⟨⟨fun ⟨i, hi⟩ => ?_, fun ⟨r, hr, hv⟩ => ?_⟩, fun r hr r' hr' hv hv' => ?_, fun i hi => ?_⟩
  · obtain ⟨r, hr, -, hv⟩ := row_of_command i
    exact ⟨r, hr, encode_of_decode hi ▸ hv⟩
  · obtain ⟨i, rfl, -⟩ := command_of_row hr hv
    exact ⟨i, decode_encode i⟩
  · obtain ⟨i, hi, hname⟩ := command_of_row hr hv
    obtain ⟨j, hj, hname'⟩ := command_of_row hr' hv'
    obtain rfl : i = j := encode_injective (hi.trans hj.symm)
    exact row_eq_of_mnemonic_eq r hr r' hr' (hname.symm.trans hname')
  · exact encode_of_decode hi ▸ row_of_command i

theorem legalWord_iff {v : Word} : legalWord v = true ↔ v ∈ Set.range encode := by
  simp only [legalWord, List.any_eq_true, OpcodeRow.matchesWord, beq_iff_eq, Set.mem_range]
  constructor
  · rintro ⟨r, hr, hv⟩
    obtain ⟨i, hi, -⟩ := command_of_row hr hv
    exact ⟨i, hi⟩
  · rintro ⟨i, rfl⟩
    obtain ⟨r, hr, -, hv⟩ := row_of_command i
    exact ⟨r, hr, hv⟩

/-- The commands as six without operand, CVTH with its pattern and NIBD with its byte. -/
def instrEquiv : Instr ≃ Fin 6 ⊕ Half ⊕ Byte where
  toFun
    | .nop => .inl 0
    | .dotPair2 => .inl 1
    | .dotQuad4 => .inl 2
    | .dotSeq => .inl 3
    | .isum => .inl 4
    | .clr => .inl 5
    | .cvth h => .inr (.inl h)
    | .nibd b => .inr (.inr b)
  invFun
    | .inl 0 => .nop
    | .inl 1 => .dotPair2
    | .inl 2 => .dotQuad4
    | .inl 3 => .dotSeq
    | .inl 4 => .isum
    | .inl 5 => .clr
    | .inr (.inl h) => .cvth h
    | .inr (.inr b) => .nibd b
  left_inv i := by cases i <;> rfl
  right_inv
    | .inl k => by fin_cases k <;> rfl
    | .inr (.inl _) => rfl
    | .inr (.inr _) => rfl

theorem natCard_bitVec (n : Nat) : Nat.card (BitVec n) = 2 ^ n := by
  rw [Nat.card_eq_fintype_card, ← FinEnum.card_eq_fintypeCard, FinEnum.card_bitVec]

/-- Settles O4: `encode` numbers the legal words by the commands, which `instrEquiv` counts. -/
theorem legalWordCount : Obligations.LegalWordCount :=
  calc Nat.card { v : Word // legalWord v = true }
    _ = Nat.card (Set.range encode) := Nat.card_congr (Equiv.subtypeEquivRight fun _ => legalWord_iff)
    _ = Nat.card Instr := (Nat.card_congr (.ofInjective encode encode_injective)).symm
    _ = Nat.card (Fin 6 ⊕ Half ⊕ Byte) := Nat.card_congr instrEquiv
    _ = 6 + (2 ^ 16 + 2 ^ 8) := by rw [Nat.card_sum, Nat.card_sum, Nat.card_fin, natCard_bitVec, natCard_bitVec]
    _ = 6 + 2 ^ 16 + 2 ^ 8 := (Nat.add_assoc ..).symm

/-! ## ILLEGAL words (R107) -/

/-- The six causes of R107. -/
def IllegalCause (v : Word) : Prop :=
  6 ≤ (cmdOp v).toNat ∨ (cmdOp v = 1 ∧ cmdMode v = 3) ∨ cmdRsv v ≠ 0 ∨ (cmdMode v ≠ 0 ∧ cmdOp v ≠ 1) ∨
    (cmdImm v ≠ 0 ∧ cmdOp v ≠ 3 ∧ cmdOp v ≠ 4) ∨ (cmdOp v = 4 ∧ v.extractLsb' 24 8 ≠ 0)

theorem illegalCause_of_error {v : Word} {e : Illegal} (h : decode v = .error e) : IllegalCause v := by
  have hv := h ▸ decode_outcome v
  cases hv with
  | reservedOp op => exact .inl op
  | reservedMode op mode => exact .inr (.inl ⟨op, mode⟩)
  | reservedBits rsv => exact .inr (.inr (.inl rsv))
  | modeOutsideDot mode op => exact .inr (.inr (.inr (.inl ⟨mode, op⟩)))
  | immediate imm cvth nibd => exact .inr (.inr (.inr (.inr (.inl ⟨imm, cvth, nibd⟩))))
  | nibdHigh op high => exact .inr (.inr (.inr (.inr (.inr ⟨op, high⟩))))

theorem not_illegalCause_encode (i : Instr) : ¬ IllegalCause (encode i) := by
  cases i with
  | nop | dotPair2 | dotQuad4 | dotSeq | isum | clr => unfold IllegalCause; decide
  | cvth h =>
    have hop : cmdOp (encode (.cvth h)) = 3 := cmdOp_append h _
    have hmode : cmdMode (encode (.cvth h)) = 0 := cmdMode_append h _
    have hrsv : cmdRsv (encode (.cvth h)) = 0 := cmdRsv_append h _
    simp [IllegalCause, hop, hmode, hrsv]
  | nibd b =>
    have hop : cmdOp (encode (.nibd b)) = 4 := cmdOp_append _ _
    have hmode : cmdMode (encode (.nibd b)) = 0 := cmdMode_append _ _
    have hrsv : cmdRsv (encode (.nibd b)) = 0 := cmdRsv_append _ _
    have hhigh : (encode (.nibd b)).extractLsb' 24 8 = 0 := by
      rw [← cmdImm_extractLsb'_high, encode, cmdImm_append]
      exact BitVec.extractLsb'_append_eq_left
    simp [IllegalCause, hop, hmode, hrsv, hhigh]

theorem decode_error_iff {v : Word} : (∃ e, decode v = .error e) ↔ IllegalCause v := by
  refine ⟨fun ⟨_, h⟩ => illegalCause_of_error h, fun h => ?_⟩
  cases hv : decode v with
  | error e => exact ⟨e, rfl⟩
  | ok i => exact absurd (encode_of_decode hv ▸ h) (not_illegalCause_encode i)

/-! ## The assembler and the disassembler (R110 to R112) -/

theorem disassemble_ok {v : Word} {i : Instr} (h : decode v = .ok i) : disassemble v = ⟨mnemonicOf i, operandOf i⟩ := by
  simp [disassemble, h]

theorem disassemble_error {v : Word} {e : Illegal} (h : decode v = .error e) :
    disassemble v = ⟨".word", some v.toNat⟩ := by simp [disassemble, h]

theorem assemble_cvth {k : Nat} (h : k ≤ 0xFFFF) : assemble ⟨"cvth", some k⟩ = some (encode (.cvth (.ofNat 16 k))) := by
  simp [assemble, AsmLine.wellFormed, h]

theorem assemble_nibd {k : Nat} (h : k ≤ 0xFF) : assemble ⟨"nibd", some k⟩ = some (encode (.nibd (.ofNat 8 k))) := by
  simp [assemble, AsmLine.wellFormed, h]

theorem assemble_own_spelling (i : Instr) : assemble ⟨mnemonicOf i, operandOf i⟩ = some (encode i) := by
  cases i with
  | nop | dotPair2 | dotQuad4 | dotSeq | isum | clr => rfl
  | cvth h =>
    have hbound : h.toNat ≤ 0xFFFF := Nat.le_of_lt_succ h.isLt
    rw [mnemonicOf, operandOf, assemble_cvth hbound, BitVec.ofNat_toNat, BitVec.setWidth_eq]
  | nibd b =>
    have hbound : b.toNat ≤ 0xFF := Nat.le_of_lt_succ b.isLt
    rw [mnemonicOf, operandOf, assemble_nibd hbound, BitVec.ofNat_toNat, BitVec.setWidth_eq]

/-- How a line may spell a command (R110, R111): its mnemonic and operand, or `dot` for dot.pair2. -/
def Spells (l : AsmLine) (i : Instr) : Prop :=
  l.operand = operandOf i ∧ (l.mnemonic = mnemonicOf i ∨ (l.mnemonic = "dot" ∧ i = .dotPair2))

theorem plainCommand_spells {m : String} {i : Instr} (h : plainCommand m = some i) : Spells ⟨m, none⟩ i := by
  unfold plainCommand at h
  split_ifs at h with hnop hdot hquad hseq hisum hclr <;> obtain rfl := Option.some.inj h
  · exact ⟨rfl, .inl hnop⟩
  · exact ⟨rfl, hdot.imp_right fun hd => ⟨hd, rfl⟩⟩
  · exact ⟨rfl, .inl hquad⟩
  · exact ⟨rfl, .inl hseq⟩
  · exact ⟨rfl, .inl hisum⟩
  · exact ⟨rfl, .inl hclr⟩

theorem wellFormed_operand {m : String} {k : Nat} (h : AsmLine.wellFormed ⟨m, some k⟩ = true) :
    (m = "cvth" ∧ k ≤ 0xFFFF) ∨ (m = "nibd" ∧ k ≤ 0xFF) := by
  unfold AsmLine.wellFormed at h
  split_ifs at h with hcvth hnibd
  · exact .inl ⟨hcvth, of_decide_eq_true h⟩
  · exact .inr ⟨hnibd, of_decide_eq_true h⟩
  · simp at h

theorem assemble_spells {l : AsmLine} {v : Word} (h : assemble l = some v) : ∃ i, encode i = v ∧ Spells l i := by
  obtain ⟨m, operand⟩ := l
  have hwf : AsmLine.wellFormed ⟨m, operand⟩ = true := by
    by_contra hwf
    simp [assemble, hwf] at h
  cases operand with
  | none =>
    obtain ⟨i, hi, hv⟩ := Option.map_eq_some_iff.1 ((if_pos hwf).symm.trans h)
    exact ⟨i, hv, plainCommand_spells hi⟩
  | some k =>
    obtain ⟨rfl, hk⟩ | ⟨rfl, hk⟩ := wellFormed_operand hwf
    · refine ⟨_, Option.some.inj ((assemble_cvth hk).symm.trans h), ?_, .inl rfl⟩
      rw [operandOf, BitVec.toNat_ofNat, Nat.mod_eq_of_lt (Nat.lt_succ_of_le hk)]
    · refine ⟨_, Option.some.inj ((assemble_nibd hk).symm.trans h), ?_, .inl rfl⟩
      rw [operandOf, BitVec.toNat_ofNat, Nat.mod_eq_of_lt (Nat.lt_succ_of_le hk)]

/-- Settles O6: a command's own spelling assembles to its word, and a line the assembler takes spells the command
of the word. -/
theorem assemblerRoundTrip : Obligations.AssemblerRoundTrip := by
  refine ⟨fun i => ?_, fun l v h => ?_, fun v e => disassemble_error, rfl⟩
  · rw [disassemble_ok (decode_encode i), assemble_own_spelling]
  · obtain ⟨i, rfl, hspells⟩ := assemble_spells h
    exact ⟨i, decode_encode i, hspells⟩

/-- Settles O5: each word is the word `encode` gives the command, written out. -/
theorem sampleWordsDecode : Obligations.SampleWordsDecode :=
  ⟨decode_encode .nop, decode_encode .dotPair2, decode_encode .dotQuad4, decode_encode .dotSeq, decode_encode .isum,
    decode_encode (.cvth 0x3C00), decode_encode (.nibd 0x9F), decode_encode .clr⟩

end Sys2Proof

namespace Sys2Proof.Machine

/-! ## An ILLEGAL word written to CMD (R107, R138, R243) -/

theorem hostWrite_cmd (v : Word) (s : State) : hostWrite 32 0x10 v s = writeCmd v s := rfl

theorem illegal_ends {v : Word} {e : Illegal} {s : State} (h : decode v = .error e) (hidle : s.busy = false) :
    hostWrite 32 0x10 v s = .next (raiseError .illegalCmd (clearOutcome s)) := by
  rw [hostWrite_cmd, writeCmd_error h, if_neg (by simp [hidle])]

theorem raiseError_endedInError (c : ErrCode) (s : State) :
    EndedInError (errCodeBits c) s (raiseError c (clearOutcome s)) :=
  ⟨rfl, rfl, rfl, rfl, rfl, engineIdle_atRest _⟩

theorem raiseError_operandsKept (c : ErrCode) (s : State) : OperandsKept s (raiseError c (clearOutcome s)) :=
  ⟨rfl, rfl, rfl, rfl⟩

theorem raiseError_surroundingsKept (c : ErrCode) (s : State) : SurroundingsKept s (raiseError c (clearOutcome s)) :=
  ⟨fun _ => rfl, rfl, rfl, rfl, rfl, rfl, rfl⟩

/-- Settles O3: `decode_error_iff` gives the causes, and on an idle device the write is one `raiseError`. -/
theorem illegalWordsEndAtOnce : Obligations.IllegalWordsEndAtOnce := by
  refine ⟨fun v => decode_error_iff, fun v e s h hidle => ?_, fun v h => (encode_of_decode h).symm⟩
  exact ⟨_, illegal_ends h hidle, raiseError_endedInError .illegalCmd s, rfl, raiseError_operandsKept _ s,
    raiseError_surroundingsKept _ s⟩

end Sys2Proof.Machine

/-! # Proofs: the register window and the life of a command (40_command_interface) -/

namespace Sys2Proof.Machine

/-! ## Which host accesses are admitted (R130) -/

theorem hostRead_fault_iff {bits offset : Nat} {s : State} :
    hostRead bits offset s = .fault .hostBusError ↔ accessAdmitted bits offset = false := by
  unfold hostRead
  cases accessAdmitted bits offset <;> simp

/-- An admitted write answers no fault: neither a command nor a register raises one. -/
theorem hostWrite_fault_iff {bits offset : Nat} {v : Word} {s : State} :
    hostWrite bits offset v s = .fault .hostBusError ↔ accessAdmitted bits offset = false := by
  unfold hostWrite
  cases accessAdmitted bits offset with
  | false => simp
  | true => by_cases h : offset = 0x10 <;> simp [h, writeCmd_ne_fault]

theorem accessAdmitted_false_iff {bits offset : Nat} :
    accessAdmitted bits offset = false ↔ ¬ (bits = 32 ∧ offset % 4 = 0 ∧ offset ≤ 0x3C) := by
  rw [← accessAdmitted_iff, Bool.not_eq_true]

/-- Settles O39: on both sides the fault is the failure of `accessAdmitted`. -/
theorem unadmittedAccessesFault : Obligations.UnadmittedAccessesFault :=
  fun _ _ _ _ => ⟨hostRead_fault_iff.trans accessAdmitted_false_iff, hostWrite_fault_iff.trans accessAdmitted_false_iff⟩

/-! ## What a read returns (R131, R36, R37) -/

theorem hostRead_register {offset : Nat} (hadm : offset % 4 = 0 ∧ offset ≤ 0x3C) (s : State) :
    hostRead 32 offset s = .next { s with readData := some (readReg offset s) } :=
  hostRead_next.2 ⟨accessAdmitted_iff.2 ⟨rfl, hadm⟩, rfl⟩

theorem ctrlWord_eq (s : State) : ctrlWord s = if s.ie then 1 else 0 := by
  unfold ctrlWord
  cases s.ie <;> rfl

/-- The four flags of STATUS, bit 0 last (R37). -/
def flagBits (ign err done busy : Bool) : BitVec 4 :=
  BitVec.ofBool ign ++ BitVec.ofBool err ++ BitVec.ofBool done ++ BitVec.ofBool busy

theorem flagBits_getLsbD : ∀ ign err done busy : Bool,
    (flagBits ign err done busy).getLsbD 0 = busy ∧ (flagBits ign err done busy).getLsbD 1 = done ∧
    (flagBits ign err done busy).getLsbD 2 = err ∧ (flagBits ign err done busy).getLsbD 3 = ign := by decide

/-- STATUS as its fields, the highest first (R37). -/
theorem statusWord_fields (s : State) :
    statusWord s = 0#20 ++ (s.errcode ++ (0#4 ++ flagBits s.ign s.err s.done s.busy)) := by
  simp only [statusWord, flagBits, BitVec.append_assoc, BitVec.cast_eq]

theorem statusWord_flag (s : State) {k : Nat} (hk : k < 4) :
    (statusWord s).getLsbD k = (flagBits s.ign s.err s.done s.busy).getLsbD k := by
  have happend {n m : Nat} (x : BitVec n) (y : BitVec m) (h : k < m) : (x ++ y).getLsbD k = y.getLsbD k := by
    rw [BitVec.getLsbD_append, if_pos h]
  rw [statusWord_fields]
  exact (happend _ _ (by omega)).trans ((happend _ _ (by omega)).trans (happend _ _ hk))

theorem statusWord_reserved_low (s : State) : (statusWord s).extractLsb' 4 4 = 0 := by
  rw [statusWord_fields]
  exact (BitVec.extractLsb'_append_eq_of_add_le (by decide)).trans
    ((BitVec.extractLsb'_append_eq_of_add_le (by decide)).trans BitVec.extractLsb'_append_eq_left)

theorem statusWord_errcode (s : State) : (statusWord s).extractLsb' 8 4 = s.errcode := by
  rw [statusWord_fields]
  exact (BitVec.extractLsb'_append_eq_of_add_le (by decide)).trans BitVec.extractLsb'_append_eq_left

theorem statusWord_reserved_high (s : State) : (statusWord s).extractLsb' 12 20 = 0 := by
  rw [statusWord_fields]
  exact BitVec.extractLsb'_append_eq_left

/-- Settles O34: each offset is one branch of `readReg`, and the fields of STATUS are read off its word. -/
theorem registerReads : Obligations.RegisterReads := by
  intro s offset halign hle
  refine ⟨readReg offset s, hostRead_register ⟨halign, hle⟩ s, ?_, ?_, ?ctrl, ?status, ?_, ?_, ?_, ?_, ?_,
    fun h => readReg_reserved h s⟩
  case ctrl =>
    rintro rfl
    exact ctrlWord_eq s
  case status =>
    rintro rfl
    obtain ⟨hbusy, hdone, herr, hign⟩ := flagBits_getLsbD s.ign s.err s.done s.busy
    exact ⟨(statusWord_flag s (by decide)).trans hbusy, (statusWord_flag s (by decide)).trans hdone,
      (statusWord_flag s (by decide)).trans herr, (statusWord_flag s (by decide)).trans hign, statusWord_reserved_low s,
      statusWord_errcode s, statusWord_reserved_high s⟩
  all_goals rintro rfl; rfl

/-! ## Writes of the operands and of CMD (R133, R134) -/

theorem writeOperand_idle {store : State → State} {s : State} (h : s.busy = false) : writeOperand store s = store s :=
  if_neg (by simp [h])

theorem writeOperand_busy {store : State → State} {s : State} (h : s.busy = true) : writeOperand store s = setIgnored s :=
  if_pos h

theorem writeReg_n (v : Word) (s : State) : writeReg 0x14 v s = writeOperand (fun s => { s with n := v }) s := rfl

theorem writeReg_waddr (v : Word) (s : State) : writeReg 0x18 v s = writeOperand (fun s => { s with waddr := v }) s := rfl

theorem writeReg_aaddr (v : Word) (s : State) : writeReg 0x1C v s = writeOperand (fun s => { s with aaddr := v }) s := rfl

/-- Settles O35: each of the three writes is a `writeOperand`, and the field it stores is the one read. -/
theorem operandWritesStoreUnchecked : Obligations.OperandWritesStoreUnchecked := by
  intro s v hb
  refine ⟨⟨?_, rfl⟩, ⟨?_, rfl⟩, ⟨?_, rfl⟩⟩
  · rw [hostWrite_register (by decide) (by decide), writeReg_n, writeOperand_idle hb]
  · rw [hostWrite_register (by decide) (by decide), writeReg_waddr, writeOperand_idle hb]
  · rw [hostWrite_register (by decide) (by decide), writeReg_aaddr, writeOperand_idle hb]

theorem exec_while_busy {s : State} (h : s.busy = true) (i : Instr) : exec i s = .next (setIgnored s) := by
  cases i with
  | nop => rw [exec_nop, commandWrite_busy h]
  | cvth => rw [exec_cvth, commandWrite_busy h]
  | nibd => rw [exec_nibd, commandWrite_busy h]
  | clr => rw [exec_clr, commandWrite_busy h]
  | dotPair2 | dotQuad4 | dotSeq | isum => exact commandWrite_busy h

theorem writeCmd_while_busy {s : State} (h : s.busy = true) (v : Word) : writeCmd v s = .next (setIgnored s) := by
  cases hd : decode v with
  | ok i => rw [writeCmd_ok hd, exec_while_busy h]
  | error e => rw [writeCmd_error hd, if_pos h]

theorem writeReg_operand_while_busy {s : State} (h : s.busy = true) {offset : Nat}
    (ho : offset = 0x14 ∨ offset = 0x18 ∨ offset = 0x1C) (v : Word) : writeReg offset v s = setIgnored s := by
  rcases ho with rfl | rfl | rfl
  · rw [writeReg_n, writeOperand_busy h]
  · rw [writeReg_waddr, writeOperand_busy h]
  · rw [writeReg_aaddr, writeOperand_busy h]

/-- Settles O31: both acceptance and a write of an operand test BUSY first. -/
theorem writesWhileBusyAreIgnored : Obligations.WritesWhileBusyAreIgnored := by
  refine ⟨fun s offset v hb hmem => ?_, fun s i hb => exec_while_busy hb i⟩
  simp only [List.mem_cons, List.not_mem_nil, or_false] at hmem
  rcases hmem with rfl | ho
  · exact writeCmd_while_busy hb v
  · rw [hostWrite_register (by omega) (by omega), writeReg_operand_while_busy hb ho]
    rfl

/-! ## The outcome of a CMD write (R139) -/

/-- Accepted by an idle device, a command has ended with exactly one of DONE and ERR, or its engine has started. -/
theorem commandOutcome_ended_or_started {s t : State} (h : CommandOutcome s t) (hb : s.busy = false) :
    (t.busy = false ∧ t.done = !t.err) ∨ (t.busy = true ∧ t.done = false ∧ t.err = false) := by
  cases h with
  | ignored busy => simp [hb] at busy
  | completed | failed => exact .inl ⟨rfl, rfl⟩
  | started => exact .inr ⟨rfl, rfl, rfl⟩

/-- Settles O32: an ILLEGAL word ends in ERR, and of the legal ones only a DOT or ISUM changes BUSY. -/
theorem commandOutcomeWithinTheWrite : Obligations.CommandOutcomeWithinTheWrite := by
  intro s t v hb h
  rw [hostWrite_cmd] at h
  rcases writeCmd_next.1 h with ⟨i, hd, hx⟩ | ⟨e, hd, ⟨hbusy, -⟩ | ⟨-, rfl⟩⟩
  · refine (commandOutcome_ended_or_started (exec_outcome hx) hb).imp_right fun ⟨hbt, hdone, herr⟩ =>
      ⟨hbt, hdone, herr, i, hd, by_contra fun hi => ?_⟩
    simp [exec_busy hi hx, hb] at hbt
  · simp [hb] at hbusy
  · exact .inl ⟨rfl, rfl⟩

/-! ## The engine read step (R141, R82, R86) -/

theorem engineStep_reads {s : State} (hb : s.busy = true) (he : s.eng.berr = false) (hp : s.eng.pending ≠ [])
    (pick draw : Nat) : engineStep pick draw s = .next (engineRead pick draw s) :=
  engineStep_next.2 (.inr (.inr ⟨hb, he, hp, rfl⟩))

theorem exists_pick_of_mem {e : Engine} {a : Nat} (h : a ∈ e.pending) : ∃ pick, pickedAddress e pick = a := by
  obtain ⟨i, hi, rfl⟩ := List.getElem_of_mem h
  exact ⟨i, by simp [pickedAddress, Nat.mod_eq_of_lt hi, hi]⟩

/-- Settles O41: `engineRead_cases` gives both outcomes, and the map read afterwards is `lookupCell_insertCell`. -/
theorem engineReadsOnePendingByte : Obligations.EngineReadsOnePendingByte := by
  refine fun s hb he hp => ⟨fun pick draw => ?_, fun a ha v hv => ?_⟩
  · refine ⟨pickedAddress_mem hp pick, deviceByte_mem _ _ _, _, engineStep_reads hb he hp pick draw, ?_⟩
    rcases engineRead_cases pick draw s with ⟨hm, h⟩ | ⟨hm, h⟩ <;> rw [h, hm]
    · exact ⟨fun _ => ⟨rfl, fun b => lookupCell_insertCell _ b _ _⟩, nofun⟩
    · exact ⟨nofun, fun _ => rfl⟩
  · obtain ⟨pick, hpick⟩ := exists_pick_of_mem ha
    obtain ⟨draw, hdraw⟩ := exists_draw_of_mem hv
    exact ⟨pick, draw, hpick, hdraw⟩

/-! ## The completion step (R142, R145, R244) -/

/-- What no engine turn touches: IGN, the operands and everything around the device. -/
theorem engineOutcome_frame {s t : State} (h : EngineOutcome s t) :
    t.ign = s.ign ∧ OperandsKept s t ∧ SurroundingsKept s t := by
  cases h <;> exact ⟨rfl, ⟨rfl, rfl, rfl, rfl⟩, ⟨fun _ => rfl, rfl, rfl, rfl, rfl, rfl, rfl⟩⟩

theorem engineStep_frame {pick draw : Nat} {s t : State} (h : engineStep pick draw s = .next t) :
    t.ign = s.ign ∧ OperandsKept s t ∧ SurroundingsKept s t := engineOutcome_frame (engineStep_outcome h)

theorem engineStep_completes {pick draw : Nat} {s t : State} (hb : s.busy = true)
    (hc : s.eng.berr = true ∨ s.eng.pending = []) (h : engineComplete s = .next t) : engineStep pick draw s = .next t :=
  engineStep_next.2 (.inr (.inl ⟨hb, hc, h⟩))

theorem raiseError_ends {s : State} (hd : s.done = false) (c : ErrCode) :
    EndedInError (errCodeBits c) s (raiseError c s) := ⟨rfl, rfl, hd, rfl, rfl, engineIdle_atRest _⟩

theorem complete_ends {s : State} (he : s.err = false) (hc : s.errcode = 0) (v : Word) :
    CompletedWith v (complete v s) := ⟨rfl, rfl, rfl, he, hc, engineIdle_atRest _⟩

/-- One block pair stands at the bases themselves (R76). -/
theorem isumResult_eq (B : Nat → Byte) (wb ab : Nat) : isumResult B wb ab = tc32 (blockSum B wb ab) := rfl

/-- Settles O42: the three answers of `engineComplete`; while BUSY is 1 the status invariant has DONE, ERR and ERRCODE 0. -/
theorem engineCompletionEndsTheCommand : Obligations.EngineCompletionEndsTheCommand := by
  intro s pick draw hinv hb
  obtain ⟨hdone, herr⟩ := hinv.noOutcomeWhileBusy hb
  have hcode := hinv.errcode_eq_zero herr
  refine ⟨fun he => ?_, fun he hp hop => ?_, fun he hp hop => ?_⟩
  · have h : engineStep pick draw s = .next _ :=
      engineStep_completes hb (.inl he) (engineComplete_next.2 (.inl ⟨he, rfl⟩))
    exact ⟨_, h, raiseError_ends hdone .busError, engineStep_frame h⟩
  · have h : engineStep pick draw s = .next _ :=
      engineStep_completes hb (.inr hp) (engineComplete_next.2 (.inr (.inl ⟨he, hop, rfl⟩)))
    rw [isumResult_eq] at h
    exact ⟨_, h, complete_ends herr hcode _, engineStep_frame h⟩
  · have h : engineStep pick draw s = .next _ :=
      engineStep_completes hb (.inr hp) (engineComplete_next.2 (.inr (.inr ⟨he, hop, rfl⟩)))
    exact ⟨_, h, complete_ends herr hcode _, engineStep_frame h⟩

/-! ## Runs of the engine alone (R141 to R143) -/

/-- While only the engine acts, every step is one of its turns; an idle device with no event left takes the idle turn. -/
theorem step_engine_turn {s : State} (h : OnlyEngineTurns s) : ∃ es k pick draw,
    OnlyEngineTurns { s with inputs := es, draws := k } ∧
      step s = engineStep pick draw { s with inputs := es, draws := k } := by
  cases hi : s.inputs with
  | nil =>
    rcases Bool.eq_false_or_eq_true s.busy with hb | hb
    · exact ⟨s.inputs, s.draws + 1, _, _, h, (step_nil hi).trans (unscheduledStep_busy hb)⟩
    · have hturn : engineStep 0 0 s = .next s := engineStep_next.2 (.inl ⟨hb, rfl⟩)
      exact ⟨s.inputs, s.draws, 0, 0, h, ((step_nil hi).trans (unscheduledStep_idle hb)).trans hturn.symm⟩
  | cons e rest =>
    rw [OnlyEngineTurns, hi] at h
    obtain ⟨⟨pick, draw, rfl⟩, hrest⟩ := List.forall_mem_cons.1 h
    exact ⟨rest, s.draws, pick, draw, hrest, step_cons hi⟩

/-- The turns the engine still needs at most: one a pending byte and one to complete, or the last alone after a failed
read (R141, R142). -/
def turnsLeft (s : State) : Nat :=
  if s.busy then if s.eng.berr then 1 else s.eng.pending.length + 1 else 0

theorem turnsLeft_le (s : State) : turnsLeft s ≤ s.eng.pending.length + 1 := by
  unfold turnsLeft
  split
  · split <;> omega
  · omega

theorem busy_of_turnsLeft {s : State} (h : turnsLeft s = 0) : s.busy = false := by
  unfold turnsLeft at h
  cases hb : s.busy with
  | false => rfl
  | true => rw [if_pos hb] at h; split at h <;> omega

/-- Every engine turn takes one off, until none is left. -/
theorem engineOutcome_turnsLeft {s t : State} (h : EngineOutcome s t) : turnsLeft t ≤ turnsLeft s - 1 := by
  cases h with
  | idle hb => simp [turnsLeft, hb]
  | busError | done => exact Nat.zero_le _
  | read hb he hp a ha => 
    have hpos : 0 < s.eng.pending.length := List.length_pos_of_mem ha
    simp [turnsLeft, hb, he, List.length_erase_of_mem ha]
    omega
  | readFails hb he hp => simpa [turnsLeft, hb, he, Nat.one_le_iff_ne_zero] using hp

/-- A property of the state that a run of the engine alone keeps; it has a command whenever BUSY is 1, so that no turn
faults. -/
structure KeptByEngine (P : State → Prop) : Prop where
  agenda : ∀ s es k, P s → P { s with inputs := es, draws := k }
  turn : ∀ s t pick draw, P s → engineStep pick draw s = .next t → P t
  hasOp : ∀ s, P s → s.busy = true → s.eng.op ≠ .none

theorem engineComplete_answers {s : State} (h : s.eng.op ≠ .none) : ∃ t, engineComplete s = .next t := by
  unfold engineComplete
  split
  · exact ⟨_, rfl⟩
  · cases hop : s.eng.op with
    | none => exact absurd hop h
    | dot | isum => exact ⟨_, rfl⟩

theorem engineStep_answers {s : State} (h : s.busy = true → s.eng.op ≠ .none) (pick draw : Nat) :
    ∃ t, engineStep pick draw s = .next t := by
  unfold engineStep
  split
  case isTrue => exact ⟨s, rfl⟩
  case isFalse hb =>
    split
    · exact engineComplete_answers (h (by simpa using hb))
    · exact ⟨_, rfl⟩

theorem run_succ_of_step {s t : State} (h : step s = .next t) (k : Nat) :
    Host.Core.run Sys2Proof.core (k + 1) s = Host.Core.run Sys2Proof.core k t := by
  have hcore : Sys2Proof.core.step s = .next t := h
  simp only [Host.Core.run, hcore]

/-- One step of such a run answers a next state, keeps the property and takes a turn off. -/
theorem KeptByEngine.step {P : State → Prop} (hP : KeptByEngine P) {s : State} (hs : P s) (honly : OnlyEngineTurns s) :
    ∃ t, Machine.step s = .next t ∧ P t ∧ OnlyEngineTurns t ∧ turnsLeft t ≤ turnsLeft s - 1 := by
  obtain ⟨es, k, pick, draw, honly', hstep⟩ := step_engine_turn honly
  have hs' := hP.agenda s es k hs
  obtain ⟨t, ht⟩ := engineStep_answers (hP.hasOp _ hs') pick draw
  obtain ⟨-, -, hkept⟩ := engineStep_frame ht
  refine ⟨t, hstep.trans ht, hP.turn _ t pick draw hs' ht, ?_, (engineOutcome_turnsLeft (engineStep_outcome ht) :)⟩
  rw [OnlyEngineTurns, hkept.inputs]
  exact honly'

/-- The run itself, by induction on the number of its steps: it ends with BUSY 0 once it is as long as the turns left. -/
theorem KeptByEngine.run {P : State → Prop} (hP : KeptByEngine P) (k : Nat) {s : State} (hs : P s)
    (honly : OnlyEngineTurns s) :
    ∃ t, Host.Core.run Sys2Proof.core k s = .next t ∧ P t ∧ (turnsLeft s ≤ k → t.busy = false) := by
  induction k generalizing s with
  | zero => exact ⟨s, rfl, hs, fun h => busy_of_turnsLeft (Nat.le_zero.1 h)⟩
  | succ k ih =>
    obtain ⟨t, hstep, ht, honly', hturns⟩ := hP.step hs honly
    obtain ⟨u, hrun, hu, hidle⟩ := ih ht honly'
    exact ⟨u, (run_succ_of_step hstep k).trans hrun, hu, fun h => hidle (by omega)⟩

/-! ## Every command in progress ends (R143) -/

/-- The invariants of a run, and exactly one of DONE and ERR once BUSY is 0: what a command in progress comes to (R139). -/
structure RunningOrEnded (s : State) : Prop where
  inv : RunInv s
  outcome : s.busy = false → s.done = !s.err

theorem RunInv.agenda {s : State} (h : RunInv s) (es : List Event) (k : Nat) :
    RunInv { s with inputs := es, draws := k } where
  status := h.status.of_eq rfl rfl rfl rfl
  engine := h.engine.of_eq rfl rfl rfl rfl rfl fun _ => rfl
  memory := h.memory

theorem RunInv.engineOutcome {s t : State} (h : RunInv s) (ht : EngineOutcome s t) : RunInv t where
  status := engineOutcome_statusInv h.status ht
  engine := engineOutcome_engineInv h.engine ht
  memory := h.memory.of_busKept (engineOutcome_busKept ht)

/-- The turn that clears BUSY sets one of DONE and ERR, and while BUSY was 1 both were 0. -/
theorem RunningOrEnded.engineOutcome {s t : State} (h : RunningOrEnded s) (ht : EngineOutcome s t) : RunningOrEnded t where
  inv := h.inv.engineOutcome ht
  outcome hidle := by
    cases ht with
    | idle => exact h.outcome hidle
    | busError hb => exact (h.inv.status.noOutcomeWhileBusy hb).1
    | done hb => simp [(h.inv.status.noOutcomeWhileBusy hb).2]
    | read hb | readFails hb => simp [hb] at hidle

theorem runningOrEnded_keptByEngine : KeptByEngine RunningOrEnded where
  agenda _ es k h := ⟨h.inv.agenda es k, h.outcome⟩
  turn _ _ _ _ h ht := h.engineOutcome (engineStep_outcome ht)
  hasOp _ h := h.inv.engine.busyHasOp.1

/-- Settles O57: each turn takes one off `turnsLeft`, which is at most the number of pending bytes and one. -/
theorem everyCommandEnds : Obligations.EveryCommandEnds := by
  intro s hinv hb honly k hk
  have hstart : RunningOrEnded s := ⟨hinv, fun hidle => by simp [hb] at hidle⟩
  obtain ⟨t, hrun, ht, hidle⟩ := runningOrEnded_keptByEngine.run k hstart honly
  have hbusy : t.busy = false := hidle ((turnsLeft_le s).trans hk)
  exact ⟨t, hrun, hbusy, ht.outcome hbusy⟩

end Sys2Proof.Machine

/-! # Proofs: the layout decoders, as functions and as commands (41_layout_decode) -/

namespace Sys2Proof.Machine

/-! ## `decode_nibble_pair` (R160) -/

theorem lowNibble_toNat (b : Byte) : (b.extractLsb' 0 4).toNat = b.toNat % 16 := by
  rw [BitVec.extractLsb'_toNat, Nat.shiftRight_zero]

theorem highNibble_toNat (b : Byte) : (b.extractLsb' 4 4).toNat = b.toNat / 16 := by
  rw [BitVec.extractLsb'_toNat, Nat.shiftRight_eq_div_pow]
  exact Nat.mod_eq_of_lt (by omega)

/-- Settles O11: the two fields are remainder and quotient by 16, and `decodeNibblePair_range` gives the range. -/
theorem nibblePairDecoding : Obligations.NibblePairDecoding := by
  intro b
  obtain ⟨⟨hlo, hlo'⟩, hhi, hhi'⟩ := decodeNibblePair_range b
  refine ⟨?_, hlo, hlo', hhi, hhi'⟩
  rw [decodeNibblePair, lowNibble_toNat, highNibble_toNat]

/-! ## The fields of a binary32 word (R10) -/

theorem f32Val_of_fields (sign : BitVec 1) (expo : BitVec 8) (frac : BitVec 23) :
    f32Val (sign ++ expo ++ frac) =
      if expo.toNat = 255 then (if frac.toNat = 0 then .inf sign.msb else .nan)
      else .fin sign.msb (if expo.toNat = 0 then frac.toNat else (2 ^ 23 + frac.toNat) * 2 ^ (expo.toNat - 1)) := by
  have hfrac : (sign ++ expo ++ frac : Word).extractLsb' 0 23 = frac := BitVec.extractLsb'_append_eq_right
  have hexpo : (sign ++ expo ++ frac : Word).extractLsb' 23 8 = expo :=
    (BitVec.extractLsb'_append_eq_of_le (by decide)).trans BitVec.extractLsb'_append_eq_right
  have hsign : (sign ++ expo ++ frac : Word).msb = sign.msb := by
    rw [BitVec.msb_append, if_neg (by decide), BitVec.msb_append, if_neg (by decide)]
  simp only [f32Val, hfrac, hexpo, hsign]

theorem f32Val_normal {sign : BitVec 1} {expo : BitVec 8} {frac : BitVec 23} (hmin : expo.toNat ≠ 0)
    (hmax : expo.toNat ≠ 255) :
    f32Val (sign ++ expo ++ frac) = .fin sign.msb ((2 ^ 23 + frac.toNat) * 2 ^ (expo.toNat - 1)) := by
  rw [f32Val_of_fields, if_neg hmax, if_neg hmin]

/-- The quiet bit alone makes the fraction nonzero. -/
theorem f32Val_quiet (sign : BitVec 1) (payload : BitVec 22) : f32Val (sign ++ 0xFF#8 ++ 1#1 ++ payload) = .nan := by
  have hfrac : (1#1 ++ payload : BitVec 23).toNat ≠ 0 := by
    rw [BitVec.toNat_append]
    exact fun h => absurd (Nat.or_eq_zero_iff.1 h).1 (by decide)
  exact (congrArg f32Val BitVec.append_assoc).trans ((f32Val_of_fields sign 0xFF#8 _).trans (if_neg hfrac))

/-! ## `f16_to_f32`, one equation a class of patterns (R11) -/

theorem halfSign_msb (h : Half) : (h.extractLsb' 15 1).msb = h.msb := by simp [BitVec.msb]

/-- `f16Val` with the tests on the fields that `f16ToF32` makes. -/
theorem f16Val_of_fields (h : Half) :
    f16Val h = if h.extractLsb' 10 5 = 31 then (if h.extractLsb' 0 10 = 0 then .inf h.msb else .nan)
      else .fin h.msb (if h.extractLsb' 10 5 = 0 then (h.extractLsb' 0 10).toNat
        else (2 ^ 10 + (h.extractLsb' 0 10).toNat) * 2 ^ ((h.extractLsb' 10 5).toNat - 1)) := by
  simp only [f16Val, ← BitVec.toNat_inj, BitVec.ofNat_eq_ofNat, BitVec.toNat_ofNat, Nat.reducePow, Nat.reduceMod]

section

variable {h : Half}

theorem f16Val_eq_nan_iff : f16Val h = .nan ↔ h.extractLsb' 10 5 = 31 ∧ h.extractLsb' 0 10 ≠ 0 := by
  rw [f16Val_of_fields]
  split_ifs with he hm <;> simp_all

theorem f16ToF32_zero (he : h.extractLsb' 10 5 = 0) (hm : h.extractLsb' 0 10 = 0) :
    f16ToF32 h = h.extractLsb' 15 1 ++ 0#8 ++ 0#23 := by
  rw [f16ToF32, if_pos he, if_pos hm, BitVec.append_assoc, BitVec.zero_append_zero, BitVec.cast_eq]

theorem f16ToF32_subnormal (he : h.extractLsb' 10 5 = 0) (hm : h.extractLsb' 0 10 ≠ 0) :
    f16ToF32 h = h.extractLsb' 15 1 ++ BitVec.ofNat 8 ((h.extractLsb' 0 10).toNat.log2 + 103) ++
      ((h.extractLsb' 0 10).setWidth 23 <<< (23 - (h.extractLsb' 0 10).toNat.log2)) := by
  rw [f16ToF32, if_pos he, if_neg hm]

theorem f16ToF32_normal (hmin : h.extractLsb' 10 5 ≠ 0) (hmax : h.extractLsb' 10 5 ≠ 31) :
    f16ToF32 h = h.extractLsb' 15 1 ++ ((h.extractLsb' 10 5).setWidth 8 + 112#8) ++ (h.extractLsb' 0 10 ++ 0#13) := by
  rw [f16ToF32, if_neg hmin, if_neg hmax]
  exact BitVec.append_assoc

theorem f16ToF32_infinity (he : h.extractLsb' 10 5 = 31) (hm : h.extractLsb' 0 10 = 0) :
    f16ToF32 h = h.extractLsb' 15 1 ++ 0xFF#8 ++ 0#23 := by
  rw [f16ToF32, if_neg (by simp [he]), if_pos he, if_pos hm]

/-- The shift drops the payload's highest bit, whose place the quiet bit takes. -/
theorem f16ToF32_nan (hnan : f16Val h = .nan) :
    f16ToF32 h = h.extractLsb' 15 1 ++ 0xFF#8 ++ 1#1 ++ (h.extractLsb' 0 9 ++ 0#13) := by
  obtain ⟨he, hm⟩ := f16Val_eq_nan_iff.1 hnan
  have hlow : ((h.extractLsb' 0 10).setWidth 22).extractLsb' 0 9 = h.extractLsb' 0 9 := by
    rw [BitVec.extractLsb'_setWidth_of_le (by decide), BitVec.extractLsb'_extractLsb'_of_le (by decide)]
  have hpayload : (h.extractLsb' 0 10).setWidth 22 <<< 13 = h.extractLsb' 0 9 ++ 0#13 := by
    rw [← hlow]
    exact BitVec.shiftLeft_eq_concat_of_lt (by decide)
  rw [f16ToF32, if_neg (by simp [he]), if_pos he, if_neg hm, hpayload]

end

/-! ## The widening is exact (R163) -/

/-- What a binary16 value is in binary32, whose least subnormal is smaller by the factor 2^125. -/
def FloatVal.widened : FloatVal → FloatVal
  | .nan => .nan
  | .inf neg => .inf neg
  | .fin neg units => .fin neg (units * 2 ^ 125)

/-- Moved up by `23 - p`, a fraction with its leading bit at `p` loses just that bit, which is the implicit one then. -/
theorem normalized_toNat {m : BitVec 10} (hm : m ≠ 0) :
    2 ^ 23 + (m.setWidth 23 <<< (23 - m.toNat.log2)).toNat = m.toNat * 2 ^ (23 - m.toNat.log2) := by
  have hpos : m.toNat ≠ 0 := BitVec.toNat_ne.1 hm
  have hp : m.toNat.log2 ≤ 23 := by
    have := (Nat.log2_lt hpos).2 m.isLt
    omega
  have hlow : 2 ^ 23 ≤ m.toNat * 2 ^ (23 - m.toNat.log2) := by
    calc 2 ^ 23
      _ = 2 ^ m.toNat.log2 * 2 ^ (23 - m.toNat.log2) := by rw [← Nat.pow_add, Nat.add_sub_cancel' hp]
      _ ≤ m.toNat * 2 ^ (23 - m.toNat.log2) := Nat.mul_le_mul_right _ (Nat.log2_self_le hpos)
  have hhigh : m.toNat * 2 ^ (23 - m.toNat.log2) < 2 ^ 24 := by
    calc m.toNat * 2 ^ (23 - m.toNat.log2)
      _ < 2 ^ (m.toNat.log2 + 1) * 2 ^ (23 - m.toNat.log2) := Nat.mul_lt_mul_of_pos_right Nat.lt_log2_self (by positivity)
      _ = 2 ^ 24 := by rw [← Nat.pow_add]; congr 1; omega
  rw [BitVec.toNat_shiftLeft, BitVec.toNat_setWidth_of_le (by decide), Nat.shiftLeft_eq]
  omega

theorem append_zeros_toNat (m : BitVec 10) : (m ++ 0#13).toNat = m.toNat * 2 ^ 13 := by
  rw [BitVec.toNat_append, BitVec.toNat_ofNat, Nat.zero_mod, Nat.or_zero, Nat.shiftLeft_eq]

theorem rebiased_toNat (e : BitVec 5) : (e.setWidth 8 + 112#8).toNat = e.toNat + 112 := by
  rw [BitVec.toNat_add, BitVec.toNat_setWidth, BitVec.toNat_ofNat]
  omega

theorem f32Val_f16ToF32_subnormal {h : Half} (he : h.extractLsb' 10 5 = 0) (hm : h.extractLsb' 0 10 ≠ 0) :
    f32Val (f16ToF32 h) = .fin h.msb ((h.extractLsb' 0 10).toNat * 2 ^ 125) := by
  have hlog : (h.extractLsb' 0 10).toNat.log2 < 10 := (Nat.log2_lt (BitVec.toNat_ne.1 hm)).2 (BitVec.isLt _)
  rw [f16ToF32_subnormal he hm]
  have hexpo : (BitVec.ofNat 8 ((h.extractLsb' 0 10).toNat.log2 + 103)).toNat = (h.extractLsb' 0 10).toNat.log2 + 103 :=
    Nat.mod_eq_of_lt (by omega)
  rw [f32Val_normal (by omega) (by omega), halfSign_msb, normalized_toNat hm, hexpo, Nat.mul_assoc, ← Nat.pow_add]
  congr 3
  omega

theorem f32Val_f16ToF32_normal {h : Half} (hmin : h.extractLsb' 10 5 ≠ 0) (hmax : h.extractLsb' 10 5 ≠ 31) :
    f32Val (f16ToF32 h) =
      .fin h.msb ((2 ^ 10 + (h.extractLsb' 0 10).toNat) * 2 ^ ((h.extractLsb' 10 5).toNat - 1) * 2 ^ 125) := by
  rw [f16ToF32_normal hmin hmax]
  generalize h.extractLsb' 10 5 = e at *
  generalize h.extractLsb' 0 10 = m
  have hpos : e.toNat ≠ 0 := BitVec.toNat_ne.1 hmin
  have hexpo := rebiased_toNat e
  rw [f32Val_normal (by omega) (by omega), halfSign_msb, hexpo, append_zeros_toNat,
    show 2 ^ 23 + m.toNat * 2 ^ 13 = (2 ^ 10 + m.toNat) * 2 ^ 13 by omega, Nat.mul_assoc, Nat.mul_assoc, ← Nat.pow_add,
    ← Nat.pow_add]
  congr 3
  omega

theorem f32Val_f16ToF32 (h : Half) : f32Val (f16ToF32 h) = (f16Val h).widened := by
  by_cases he : h.extractLsb' 10 5 = 0
  · rw [f16Val_of_fields, if_neg (by simp [he]), if_pos he]
    by_cases hm : h.extractLsb' 0 10 = 0
    · rw [f16ToF32_zero he hm, f32Val_of_fields, halfSign_msb, hm]
      rfl
    · exact f32Val_f16ToF32_subnormal he hm
  by_cases hmax : h.extractLsb' 10 5 = 31
  · by_cases hm : h.extractLsb' 0 10 = 0
    · rw [f16Val_of_fields, if_pos hmax, if_pos hm, f16ToF32_infinity hmax hm, f32Val_of_fields, halfSign_msb]
      rfl
    · have hnan := f16Val_eq_nan_iff.2 ⟨hmax, hm⟩
      rw [hnan, f16ToF32_nan hnan]
      exact f32Val_quiet _ _
  · rw [f16Val_of_fields, if_neg hmax, if_neg he]
    exact f32Val_f16ToF32_normal he hmax

/-- Settles O7: both clauses are `f32Val_f16ToF32`. -/
theorem wideningIsExact : Obligations.WideningIsExact :=
  fun h => ⟨fun _ _ hval => by rw [f32Val_f16ToF32, hval, FloatVal.widened],
    fun _ hval => by rw [f32Val_f16ToF32, hval, FloatVal.widened]⟩

/-! ## The commands complete in their own write (R145, R162, R165) -/

theorem complete_frame (v : Word) (s : State) :
    (complete v (clearOutcome s)).ign = s.ign ∧ OperandsKept s (complete v (clearOutcome s)) ∧
      SurroundingsKept s (complete v (clearOutcome s)) :=
  ⟨rfl, ⟨rfl, rfl, rfl, rfl⟩, ⟨fun _ => rfl, rfl, rfl, rfl, rfl, rfl, rfl⟩⟩

theorem exec_cvth_idle {s : State} (hidle : s.busy = false) (h : Half) :
    exec (.cvth h) s = .next (complete (f16ToF32 h) (clearOutcome s)) := by
  rw [exec_cvth, commandWrite_idle hidle, decodeScale]

theorem exec_nibd_idle {s : State} (hidle : s.busy = false) (b : Byte) :
    exec (.nibd b) s = .next (complete (nibbleWord b) (clearOutcome s)) := by
  rw [exec_nibd, commandWrite_idle hidle]

/-- Settles O24: CVTH is one `complete` with the widened pattern, and `f16ToF32_nan` writes out that of a NaN. -/
theorem cvthCompletes : Obligations.CvthCompletes := by
  intro h s hidle
  obtain ⟨hign, hops, hsur⟩ := complete_frame (f16ToF32 h) s
  refine ⟨_, exec_cvth_idle hidle h, complete_ends rfl rfl _, hign, hops, hsur, fun hnan => ?_⟩
  rw [complete_result, f16ToF32_nan hnan]
  exact BitVec.append_assoc.symm

/-! ## NIBD's RESULT (R166) -/

theorem nibbleWord_low (b : Byte) : (nibbleWord b).extractLsb' 0 16 = tc16 (decodeNibblePair b).1 :=
  BitVec.extractLsb'_append_eq_right

theorem nibbleWord_high (b : Byte) : (nibbleWord b).extractLsb' 16 16 = tc16 (decodeNibblePair b).2 :=
  BitVec.extractLsb'_append_eq_left

/-- The zero-point is added back without loss. -/
theorem tc16_sub_zeroPoint_add (nibble : BitVec 4) : tc16 ((nibble.toNat : Int) - 8) + 8 = nibble.setWidth 16 := by
  calc tc16 ((nibble.toNat : Int) - 8) + 8
    _ = BitVec.ofInt 16 ((nibble.toNat : Int) - 8 + 8) := (BitVec.ofInt_add _ 8).symm
    _ = BitVec.ofNat 16 nibble.toNat := by rw [Int.sub_add_cancel, BitVec.ofInt_natCast]
    _ = nibble.setWidth 16 := BitVec.ofNat_toNat 16 nibble

/-- Settles O25: NIBD is one `complete` with `nibbleWord`, whose halves are the pair's two patterns. -/
theorem nibdCompletes : Obligations.NibdCompletes := by
  intro b s hidle
  obtain ⟨hign, hops, hsur⟩ := complete_frame (nibbleWord b) s
  refine ⟨_, exec_nibd_idle hidle b, complete_ends rfl rfl _, hign, hops, hsur, nibbleWord_low b, nibbleWord_high b, ?_, ?_⟩
  · rw [complete_result, nibbleWord_low]
    exact tc16_sub_zeroPoint_add _
  · rw [complete_result, nibbleWord_high]
    exact tc16_sub_zeroPoint_add _

end Sys2Proof.Machine

/-! # Proofs: the block pair's integer sum and contribution, and ISUM (42_block_mac) -/

namespace Sys2Proof.Machine

/-! ## The elements and their pairing (R73, R182) -/

theorem decodeNibblePair_eq (b : Byte) :
    decodeNibblePair b = (((b.toNat % 16 : Nat) : Int) - 8, ((b.toNat / 16 : Nat) : Int) - 8) := (nibblePairDecoding b).1

theorem weightElem_low (B : Nat → Byte) (w : Nat) {j : Nat} (hj : j < 16) :
    weightElem B w j = (((B (w + 2 + j)).toNat % 16 : Nat) : Int) - 8 := by
  rw [weightElem, if_pos hj, decodeNibblePair_eq, weightByte]

theorem weightElem_high (B : Nat → Byte) (w j : Nat) :
    weightElem B w (j + 16) = (((B (w + 2 + j)).toNat / 16 : Nat) : Int) - 8 := by
  rw [weightElem, if_neg (by omega), decodeNibblePair_eq, Nat.add_sub_cancel, weightByte]

theorem blockSum_eq_sum_elements (B : Nat → Byte) (w a : Nat) :
    blockSum B w a = ∑ i ∈ Finset.range 32, weightElem B w i * activationElem B a i := by
  calc blockSum B w a
    _ = ∑ j ∈ Finset.range 16, pairProducts B w a j := blockSum_eq_sum B w a
    _ = ∑ j ∈ Finset.range 16, weightElem B w j * activationElem B a j
        + ∑ j ∈ Finset.range 16, weightElem B w (j + 16) * activationElem B a (j + 16) := Finset.sum_add_distrib
    _ = ∑ i ∈ Finset.range (16 + 16), weightElem B w i * activationElem B a i := by
        simp only [Finset.sum_range_add, Nat.add_comm]

/-- Settles O13: `weightElem_low` and `weightElem_high` give the nibbles of each pair, and the two halves of the element sum
are the pairs' two products. -/
theorem integerSumPairing : Obligations.IntegerSumPairing := by
  refine fun B w a => ⟨?_, blockSum_eq_sum_elements B w a⟩
  rw [blockSum_eq_sum]
  refine Finset.sum_congr rfl fun j hj => ?_
  rw [pairProducts, weightElem_low B w (Finset.mem_range.1 hj), weightElem_high, activationElem, activationElem]

/-! ## The sum depends on the bytes of its block pair alone (R71, R72) -/

/-- Byte `2 + j` of a weight block and byte `2 + i` of an activation block are inside their 18 and 34 bytes. -/
theorem blockSum_congr {B B' : Nat → Byte} {w a : Nat} (h : ∀ b, InInputRanges w a 1 b → B b = B' b) :
    blockSum B w a = blockSum B' w a := by
  have hdata (j : Nat) (hj : j < 16) : B (w + 2 + j) = B' (w + 2 + j) := h _ (.inl (by omega))
  have hact (i : Nat) (hi : i < 32) : B (a + 2 + i) = B' (a + 2 + i) := h _ (.inr (by omega))
  rw [(integerSumPairing B w a).1, (integerSumPairing B' w a).1]
  refine Finset.sum_congr rfl fun j hj => ?_
  have hj : j < 16 := Finset.mem_range.1 hj
  rw [hdata j hj, hact j (by omega), hact (j + 16) (by omega)]

/-! ## The range of the products and their sums (R183) -/

/-- The corners of the two ranges are `-8 * 127` and `-8 * -128`. -/
theorem weightElem_mul_activationElem_range (B : Nat → Byte) (w a i j : Nat) :
    -1016 ≤ weightElem B w i * activationElem B a j ∧ weightElem B w i * activationElem B a j ≤ 1024 := by
  obtain ⟨hw, hw'⟩ := weightElem_range B w i
  obtain ⟨ha, ha'⟩ := activationElem_range B a j
  have hcorners := mul_nonneg (sub_nonneg.2 hw) (sub_nonneg.2 ha)
  have hcorners' := mul_nonneg (sub_nonneg.2 hw') (sub_nonneg.2 ha')
  exact ⟨by linarith, (abs_le.1 (abs_weightElem_mul_activationElem_le B w a i j)).2⟩

theorem sum_products_range (B : Nat → Byte) (w a : Nat) {S : Finset Nat} (hS : S ⊆ Finset.range 32) :
    -32512 ≤ (∑ i ∈ S, weightElem B w i * activationElem B a i) ∧
      (∑ i ∈ S, weightElem B w i * activationElem B a i) ≤ 32768 := by
  have hcard : S.card ≤ 32 := by simpa using Finset.card_le_card hS
  have hlow := Finset.card_nsmul_le_sum S _ (-1016) fun i _ => (weightElem_mul_activationElem_range B w a i i).1
  have hhigh := Finset.sum_le_card_nsmul S _ 1024 fun i _ => (weightElem_mul_activationElem_range B w a i i).2
  rw [nsmul_eq_mul] at hlow hhigh
  omega

theorem blockSum_range (B : Nat → Byte) (w a : Nat) : -32512 ≤ blockSum B w a ∧ blockSum B w a ≤ 32768 := by
  rw [blockSum_eq_sum_elements]
  exact sum_products_range B w a subset_rfl

theorem f32Val_i2f_blockSum (B : Nat → Byte) (w a : Nat) :
    f32Val (i2f (blockSum B w a)) = .fin (decide (blockSum B w a < 0)) ((blockSum B w a).natAbs * 2 ^ 149) :=
  f32Val_i2f ((natAbs_blockSum_le B w a).trans (by decide))

theorem weightElem_of_zero_data {B : Nat → Byte} {w : Nat} (h : ∀ j < 16, B (w + 2 + j) = 0x00) {i : Nat} (hi : i < 32) :
    weightElem B w i = -8 := by
  obtain hlow | ⟨j, rfl⟩ : i < 16 ∨ ∃ j, i = j + 16 := by
    rcases lt_or_ge i 16 with hlow | hhigh
    · exact .inl hlow
    · exact .inr ⟨i - 16, by omega⟩
  · rw [weightElem_low B w hlow, h i hlow]
    rfl
  · rw [weightElem_high, h j (by omega)]
    rfl

/-- All weights `-8` and all activations the byte `q`: every product is the same. -/
theorem blockSum_of_zero_data {B : Nat → Byte} {w a : Nat} {q : Byte} (hw : ∀ j < 16, B (w + 2 + j) = 0x00)
    (ha : ∀ i < 32, B (a + 2 + i) = q) : blockSum B w a = 32 * (-8 * q.toInt) := by
  calc blockSum B w a
    _ = ∑ i ∈ Finset.range 32, weightElem B w i * activationElem B a i := blockSum_eq_sum_elements B w a
    _ = ∑ _i ∈ Finset.range 32, -8 * q.toInt := Finset.sum_congr rfl fun i hi => by
        rw [weightElem_of_zero_data hw (Finset.mem_range.1 hi), activationElem, ha i (Finset.mem_range.1 hi)]
    _ = 32 * (-8 * q.toInt) := by rw [Finset.sum_const, Finset.card_range, nsmul_eq_mul]; rfl

/-- Settles O14: one product's range times the number of products; the range is inside that of 17 bits and of `i2f`. -/
theorem integerSumRange : Obligations.IntegerSumRange := by
  intro B w a
  obtain ⟨hlow, hhigh⟩ := blockSum_range B w a
  refine ⟨fun i _ => weightElem_mul_activationElem_range B w a i i, hlow, hhigh,
    fun S hS => sum_products_range B w a hS, ?_, f32Val_i2f_blockSum B w a, fun hw ha => ?_, fun hw ha => ?_⟩
  · exact BitVec.toInt_ofInt_eq_self (by decide) (by omega) (by omega)
  · exact blockSum_of_zero_data hw ha
  · exact blockSum_of_zero_data hw ha

/-! ## Rounding keeps bounds that are finite values, and does not depend on the unit (R13) -/

theorem roundedUnits_le {num b : Nat} (h : num ≤ magnitude b) : roundedUnits num 0 ≤ magnitude b := by
  have hnear := (roundedUnits_nearest b num 0).1
  rw [Int.pow_zero, Int.mul_one, Int.mul_one, abs_of_nonpos (a := (num : Int) - magnitude b) (by omega)] at hnear
  have := (abs_sub_le_iff.1 hnear).2
  omega

theorem le_roundedUnits {num b : Nat} (h : magnitude b ≤ num) : magnitude b ≤ roundedUnits num 0 := by
  have hnear := (roundedUnits_nearest b num 0).1
  rw [Int.pow_zero, Int.mul_one, Int.mul_one, abs_of_nonneg (a := (num : Int) - magnitude b) (by omega)] at hnear
  have := (abs_sub_le_iff.1 hnear).1
  omega

theorem log2_mul_pow {num : Nat} (h : num ≠ 0) (j : Nat) : (num * 2 ^ j).log2 = num.log2 + j := by
  refine (Nat.log2_eq_iff (by positivity)).2 ⟨?_, ?_⟩
  · rw [Nat.pow_add]
    exact Nat.mul_le_mul_right _ (Nat.log2_self_le h)
  · rw [Nat.add_right_comm, Nat.pow_add]
    exact Nat.mul_lt_mul_of_pos_right Nat.lt_log2_self (by positivity)

theorem divPow2Even_mul_pow (num d j : Nat) : divPow2Even (num * 2 ^ j) (d + j) = divPow2Even num d := by
  have hpos := Nat.two_pow_pos j
  simp only [divPow2Even, Nat.pow_add, Nat.mul_div_mul_right _ _ hpos, Nat.mul_mod_mul_right, ← Nat.mul_assoc,
    Nat.mul_lt_mul_right hpos, Nat.mul_left_inj hpos.ne']

theorem roundRne32_mul_pow (neg : Bool) {num : Nat} (h : num ≠ 0) (k j : Nat) :
    roundRne32 neg (num * 2 ^ j) (k + j) = roundRne32 neg num k := by
  have hdropped : droppedBits (num * 2 ^ j) (k + j) = droppedBits num k + j := by
    rw [droppedBits, droppedBits, log2_mul_pow h]
    omega
  have hbits : roundedBits (num * 2 ^ j) (k + j) = roundedBits num k := by
    rw [roundedBits, roundedBits, hdropped, divPow2Even_mul_pow, Nat.add_sub_add_right]
  rw [roundRne32, roundRne32, hbits]

/-! ## Products of binary32 values (R13) -/

theorem f32Val_canonNan : f32Val canonNan = .nan := by decide

theorem f32Val_infinity (neg : Bool) : f32Val (infinity neg) = .inf neg := by cases neg <;> decide

theorem f32Val_signedZero (neg : Bool) : f32Val (signedZero neg) = .fin neg 0 := by cases neg <;> decide

theorem fmul32_comm (a b : Word) : fmul32 a b = fmul32 b a := by
  cases ha : f32Val a with
  | nan => rw [fmul32_of_nan (.inl ha), fmul32_of_nan (.inr ha)]
  | inf s =>
    cases hb : f32Val b with
    | nan => rw [fmul32_of_nan (.inl hb), fmul32_of_nan (.inr hb)]
    | inf t => rw [fmul32_inf_inf ha hb, fmul32_inf_inf hb ha, Bool.xor_comm]
    | fin t y => rw [fmul32_inf_fin ha hb, fmul32_fin_inf hb ha, Bool.xor_comm]
  | fin s x =>
    cases hb : f32Val b with
    | nan => rw [fmul32_of_nan (.inl hb), fmul32_of_nan (.inr hb)]
    | inf t => rw [fmul32_fin_inf ha hb, fmul32_inf_fin hb ha, Bool.xor_comm]
    | fin t y => rw [fmul32_fin_fin ha hb, fmul32_fin_fin hb ha, Bool.xor_comm, Nat.mul_comm]

theorem f32Val_fmul32_of_inf {a : Word} {s : Bool} (ha : f32Val a = .inf s) (b : Word) :
    f32Val (fmul32 a b) = .nan ∨ ∃ neg, f32Val (fmul32 a b) = .inf neg := by
  cases hb : f32Val b with
  | nan => exact .inl (by rw [fmul32_of_nan (.inr hb), f32Val_canonNan])
  | inf t => exact .inr ⟨_, by rw [fmul32_inf_inf ha hb, f32Val_infinity]⟩
  | fin t y =>
    rw [fmul32_inf_fin ha hb]
    split
    · exact .inl f32Val_canonNan
    · exact .inr ⟨_, f32Val_infinity _⟩

/-- A product of at most 24 significant bits, none of them below the least subnormal, is not rounded. -/
theorem f32Val_fmul32_exact {a b : Word} {s t : Bool} {x y m k : Nat} (ha : f32Val a = .fin s x) (hb : f32Val b = .fin t y)
    (hxy : x * y = m * 2 ^ (k + 149)) (hm : m ≤ 2 ^ 24) (hlt : m * 2 ^ k < (2 ^ 128 - 2 ^ 103) * 2 ^ 149) :
    f32Val (fmul32 a b) = .fin (s ^^ t) (m * 2 ^ k) := by
  rw [fmul32_fin_fin ha hb, hxy]
  split
  case isTrue hzero =>
    have hm0 : m = 0 := (Nat.mul_eq_zero.1 hzero).resolve_right (Nat.two_pow_pos _).ne'
    rw [f32Val_signedZero, hm0, Nat.zero_mul]
  case isFalse =>
    have hlt' : m * 2 ^ (k + 149) < (2 ^ 128 - 2 ^ 103) * 2 ^ (149 + 149) := by
      rw [Nat.pow_add, Nat.pow_add, ← Nat.mul_assoc, ← Nat.mul_assoc]
      exact Nat.mul_lt_mul_of_pos_right hlt (Nat.two_pow_pos 149)
    rw [roundRne32_exact _ hm (Nat.le_add_left _ _) hlt', Nat.add_sub_cancel]

/-! ## The scales and their product (R161, R185, R186) -/

/-- A finite binary16 magnitude has 11 significant bits and at most 29 zeros below them. -/
theorem f16Val_significand {h : Half} {s : Bool} {x : Nat} (hx : f16Val h = .fin s x) :
    ∃ m e, x = m * 2 ^ e ∧ m ≤ 2047 ∧ e ≤ 29 := by
  have hm := (h.extractLsb' 0 10).isLt
  have he := (h.extractLsb' 10 5).isLt
  simp only [f16Val] at hx
  split at hx
  · split at hx <;> cases hx
  · cases hx
    split
    · exact ⟨_, 0, (Nat.mul_one _).symm, by omega, by omega⟩
    · exact ⟨_, _, rfl, by omega, by omega⟩

/-- The largest finite binary16 value is 65504. -/
theorem f16Val_units_le {h : Half} {s : Bool} {x : Nat} (hx : f16Val h = .fin s x) : x ≤ 65504 * 2 ^ 24 := by
  obtain ⟨m, e, rfl, hm, he⟩ := f16Val_significand hx
  calc m * 2 ^ e
    _ ≤ 2047 * 2 ^ 29 := Nat.mul_le_mul hm (Nat.pow_le_pow_right (by decide) he)
    _ = 65504 * 2 ^ 24 := by norm_num

theorem f32Val_decodeScale_fin {h : Half} {s : Bool} {x : Nat} (hx : f16Val h = .fin s x) :
    f32Val (decodeScale h) = .fin s (x * 2 ^ 125) := (wideningIsExact h).1 s x hx

theorem f32Val_decodeScale_inf {h : Half} {s : Bool} (hx : f16Val h = .inf s) : f32Val (decodeScale h) = .inf s :=
  (wideningIsExact h).2 s hx

theorem f32Val_decodeScale_nan {h : Half} (hx : f16Val h = .nan) : f32Val (decodeScale h) = .nan := by
  rw [decodeScale, f32Val_f16ToF32, hx, FloatVal.widened]

section

variable {B : Nat → Byte} {w a : Nat} {s t : Bool} {x y : Nat}

theorem units_mul_le (hx : f16Val (blockScale B w) = .fin s x) (hy : f16Val (blockScale B a) = .fin t y) :
    x * y ≤ (65504 * 2 ^ 24) ^ 2 := by
  rw [Nat.pow_two]
  exact Nat.mul_le_mul (f16Val_units_le hx) (f16Val_units_le hy)

/-- The product of two 11-bit significands has 22 bits, so `fmul32` rounds nothing off. -/
theorem f32Val_scaleProduct (hx : f16Val (blockScale B w) = .fin s x) (hy : f16Val (blockScale B a) = .fin t y) :
    f32Val (scaleProduct B w a) = .fin (s ^^ t) (x * y * 2 ^ 101) := by
  have hle := units_mul_le hx hy
  have hx' := f32Val_decodeScale_fin hx
  have hy' := f32Val_decodeScale_fin hy
  obtain ⟨m, e, rfl, hm, -⟩ := f16Val_significand hx
  obtain ⟨m', e', rfl, hm', -⟩ := f16Val_significand hy
  have hfew : m * m' ≤ 2 ^ 24 := (Nat.mul_le_mul hm hm').trans (by decide)
  have hunits : m * 2 ^ e * 2 ^ 125 * (m' * 2 ^ e' * 2 ^ 125) = m * m' * 2 ^ (e + e' + 101 + 149) := by ring
  have hvalue : m * m' * 2 ^ (e + e' + 101) = m * 2 ^ e * (m' * 2 ^ e') * 2 ^ 101 := by ring
  have hsmall : m * 2 ^ e * (m' * 2 ^ e') * 2 ^ 101 < (2 ^ 128 - 2 ^ 103) * 2 ^ 149 :=
    (Nat.mul_le_mul_right _ hle).trans_lt (by decide)
  rw [← hvalue] at hsmall ⊢
  exact f32Val_fmul32_exact hx' hy' hunits hfew hsmall

/-! ## The block contribution (R187, R188) -/

/-- The exact product in units of 2^-149, rounded once. -/
theorem blockContribution_of_finite (hx : f16Val (blockScale B w) = .fin s x) (hy : f16Val (blockScale B a) = .fin t y) :
    blockContribution B w a = if (blockSum B w a).natAbs * (x * y) = 0
      then signedZero (decide (blockSum B w a < 0) ^^ (s ^^ t))
      else roundRne32 (decide (blockSum B w a < 0) ^^ (s ^^ t)) ((blockSum B w a).natAbs * (x * y) * 2 ^ 101) 0 := by
  rw [blockContribution, fmul32_fin_fin (f32Val_i2f_blockSum B w a) (f32Val_scaleProduct hx hy)]
  have hunits : (blockSum B w a).natAbs * 2 ^ 149 * (x * y * 2 ^ 101) =
      (blockSum B w a).natAbs * (x * y) * 2 ^ 101 * 2 ^ 149 := by ring
  rw [hunits]
  by_cases hzero : (blockSum B w a).natAbs * (x * y) = 0
  · rw [hzero, Nat.zero_mul, Nat.zero_mul, if_pos rfl, if_pos rfl]
  · have hpos : (blockSum B w a).natAbs * (x * y) * 2 ^ 101 ≠ 0 := Nat.mul_ne_zero hzero (by positivity)
    have hpos' : (blockSum B w a).natAbs * (x * y) * 2 ^ 101 * 2 ^ 149 ≠ 0 := Nat.mul_ne_zero hpos (by positivity)
    rw [if_neg hpos', if_neg hzero]
    exact roundRne32_mul_pow _ hpos 0 149

/-- Both ends of the range of a nonzero contribution, `2^-48` and `32768 * 65504^2`, are binary32 values, so rounding stays
between them. -/
theorem roundRne32_contribution (neg : Bool) {p : Nat} (hpos : p ≠ 0) (hle : p ≤ 32768 * (65504 * 2 ^ 24) ^ 2) :
    ∃ u, f32Val (roundRne32 neg (p * 2 ^ 101) 0) = .fin neg u ∧ 2 ^ (149 - 48) ≤ u ∧ u ≤ 32768 * 4290774016 * 2 ^ 149 := by
  have hleast : magnitude (78 * 2 ^ 23 + 2 ^ 23) = 2 ^ (149 - 48) := magnitude_of_scaled (by decide) (.inr le_rfl)
  have hlargest : magnitude (172 * 2 ^ 23 + 4 * 2047 ^ 2) = 32768 * 4290774016 * 2 ^ 149 :=
    magnitude_of_scaled (by decide) (.inr (by decide))
  have hlow : 2 ^ (149 - 48) ≤ p * 2 ^ 101 := Nat.le_mul_of_pos_left _ (Nat.pos_of_ne_zero hpos)
  have hhigh : p * 2 ^ 101 ≤ 32768 * 4290774016 * 2 ^ 149 := (Nat.mul_le_mul_right _ hle).trans (by norm_num)
  refine ⟨_, f32Val_roundRne32 neg (hhigh.trans_lt (by norm_num)), ?_, ?_⟩
  · exact hleast.symm.trans_le (le_roundedUnits (hleast.trans_le hlow))
  · exact (roundedUnits_le (hhigh.trans_eq hlargest.symm)).trans_eq hlargest

theorem f32Val_blockContribution (hx : f16Val (blockScale B w) = .fin s x) (hy : f16Val (blockScale B a) = .fin t y) :
    ∃ u, f32Val (blockContribution B w a) = .fin (decide (blockSum B w a < 0) ^^ (s ^^ t)) u ∧
      u ≤ 32768 * 4290774016 * 2 ^ 149 ∧ (u ≠ 0 → 2 ^ (149 - 48) ≤ u) ∧ (u = 0 ↔ blockSum B w a = 0 ∨ x = 0 ∨ y = 0) := by
  have hzero_iff : (blockSum B w a).natAbs * (x * y) = 0 ↔ blockSum B w a = 0 ∨ x = 0 ∨ y = 0 := by
    rw [Nat.mul_eq_zero, Nat.mul_eq_zero, Int.natAbs_eq_zero]
  rw [blockContribution_of_finite hx hy]
  split
  case isTrue hzero =>
    exact ⟨0, f32Val_signedZero _, Nat.zero_le _, absurd rfl, fun _ => hzero_iff.1 hzero, fun _ => rfl⟩
  case isFalse hpos =>
    obtain ⟨u, hu, hlow, hhigh⟩ := roundRne32_contribution _ hpos
      (Nat.mul_le_mul (natAbs_blockSum_le B w a) (units_mul_le hx hy))
    have hne : u ≠ 0 := ((Nat.two_pow_pos _).trans_le hlow).ne'
    exact ⟨u, hu, hhigh, fun _ => hlow, fun h => absurd h hne, fun h => absurd (hzero_iff.2 h) hpos⟩

/-! ### Non-finite scales -/

theorem blockContribution_of_nan_product (h : f32Val (scaleProduct B w a) = .nan) : blockContribution B w a = canonNan :=
  fmul32_of_nan (.inr h)

theorem blockContribution_of_infinite_product (h : f32Val (scaleProduct B w a) = .inf s) :
    blockContribution B w a =
      if blockSum B w a = 0 then canonNan else infinity (decide (blockSum B w a < 0) ^^ s) := by
  rw [blockContribution, fmul32_fin_inf (f32Val_i2f_blockSum B w a) h]
  simp only [Nat.mul_eq_zero, Int.natAbs_eq_zero, (Nat.two_pow_pos 149).ne', or_false]

theorem scaleProduct_of_nan (h : f16Val (blockScale B w) = .nan ∨ f16Val (blockScale B a) = .nan) :
    scaleProduct B w a = canonNan :=
  fmul32_of_nan (h.imp f32Val_decodeScale_nan f32Val_decodeScale_nan)

/-- An infinity with a finite scale, on either side. -/
theorem scaleProduct_inf_fin (h : (f16Val (blockScale B w) = .inf s ∧ f16Val (blockScale B a) = .fin t y) ∨
      (f16Val (blockScale B w) = .fin t y ∧ f16Val (blockScale B a) = .inf s)) :
    scaleProduct B w a = if y = 0 then canonNan else infinity (s ^^ t) := by
  have hunits : scaleProduct B w a = if y * 2 ^ 125 = 0 then canonNan else infinity (s ^^ t) := by
    rcases h with ⟨hx, hy⟩ | ⟨hx, hy⟩
    · exact fmul32_inf_fin (f32Val_decodeScale_inf hx) (f32Val_decodeScale_fin hy)
    · rw [scaleProduct, fmul32_comm]
      exact fmul32_inf_fin (f32Val_decodeScale_inf hy) (f32Val_decodeScale_fin hx)
  simpa only [Nat.mul_eq_zero, (Nat.two_pow_pos 125).ne', or_false] using hunits

/-- An integer sum is finite, and zero times an infinity is no number (R13). -/
theorem blockContribution_of_zero_sum (hsum : blockSum B w a = 0)
    (h : f16Val (blockScale B w) = .inf s ∨ f16Val (blockScale B a) = .inf s) : blockContribution B w a = canonNan := by
  have hproduct : f32Val (scaleProduct B w a) = .nan ∨ ∃ neg, f32Val (scaleProduct B w a) = .inf neg := by
    rcases h with hx | hy
    · exact f32Val_fmul32_of_inf (f32Val_decodeScale_inf hx) _
    · rw [scaleProduct, fmul32_comm]
      exact f32Val_fmul32_of_inf (f32Val_decodeScale_inf hy) _
  rcases hproduct with hnan | ⟨neg, hinf⟩
  · exact blockContribution_of_nan_product hnan
  · rw [blockContribution_of_infinite_product hinf, if_pos hsum]

end

/-- Settles O15: with finite scales the one rounding is that of `blockContribution_of_finite`; with others the scale product
is a NaN or an infinity, which decides the contribution. -/
theorem blockContributionExactness : Obligations.BlockContributionExactness := by
  intro B w a
  refine ⟨fun s t x y hx hy => ⟨f32Val_scaleProduct hx hy, units_mul_le hx hy, fun hpos => ?_,
    f32Val_blockContribution hx hy⟩, fun hnan => ?_, fun s t h => ?_, fun s t y hy hsum h => ?_,
    fun s hsum h => blockContribution_of_zero_sum hsum h⟩
  · rw [blockContribution_of_finite hx hy, if_neg hpos]
  · exact blockContribution_of_nan_product (by rw [scaleProduct_of_nan hnan, f32Val_canonNan])
  · have hproduct : scaleProduct B w a = canonNan := by rw [scaleProduct_inf_fin h, if_pos rfl]
    exact ⟨hproduct, blockContribution_of_nan_product (by rw [hproduct, f32Val_canonNan])⟩
  · have hproduct : f32Val (scaleProduct B w a) = .inf (s ^^ t) := by
      rw [scaleProduct_inf_fin h, if_neg hy, f32Val_infinity]
    rw [blockContribution_of_infinite_product hproduct, if_neg hsum]

/-! ## A command that starts the engine (R140, R189, R190) -/

theorem startEngine_startedOn (op : EngOp) (mode : Mode) (nb : Word) (s : State) :
    StartedOn op nb.toNat s (startEngine op mode nb (clearOutcome s)) :=
  ⟨rfl, rfl, rfl, rfl, rfl, rfl, rfl, rfl, rfl, fun _ => mem_inputAddresses, inputAddresses_nodup _ _ _, rfl, rfl⟩

theorem startEngine_frame (op : EngOp) (mode : Mode) (nb : Word) (s : State) :
    (startEngine op mode nb (clearOutcome s)).ign = s.ign ∧ OperandsKept s (startEngine op mode nb (clearOutcome s)) ∧
      SurroundingsKept s (startEngine op mode nb (clearOutcome s)) :=
  ⟨rfl, ⟨rfl, rfl, rfl, rfl⟩, ⟨fun _ => rfl, rfl, rfl, rfl, rfl, rfl, rfl⟩⟩

theorem exec_isum_starts {s : State} (hidle : s.busy = false) (hfit : RangesInSpace s 1) (hside : NoSideEffectInput s 1) :
    exec .isum s = .next (startEngine .isum s.eng.mode 1 (clearOutcome s)) := by
  rw [exec_isum, commandWrite_idle hidle]
  exact launch_starts hfit hside

/-- Settles O26: the two premises are the checks of `launch`, which starts the engine on one block pair. -/
theorem isumStartsTheEngine : Obligations.IsumStartsTheEngine := fun s hidle hfit hside =>
  ⟨_, exec_isum_starts hidle hfit hside, startEngine_startedOn .isum s.eng.mode 1 s, startEngine_frame .isum s.eng.mode 1 s⟩

/-! ## A run whose reads nothing races (R85, R141, R142) -/

/-- What the completion step writes to RESULT for the command in progress, its input bytes being those of `B` (R142). -/
def commandResult (e : Engine) (B : Nat → Byte) : Word :=
  match e.op with
  | .dot => dotResult e.mode e.nb.toNat B e.wbase.toNat e.abase.toNat
  | .isum => isumResult B e.wbase.toNat e.abase.toNat
  | .none => 0

theorem engineComplete_eq {s : State} (hop : s.eng.op ≠ .none) (he : s.eng.berr = false) :
    engineComplete s = .next (complete (commandResult s.eng (engineByte s.eng)) s) := by
  rw [engineComplete_next]
  cases h : s.eng.op with
  | none => exact absurd h hop
  | dot => exact .inr (.inr ⟨he, rfl, by rw [commandResult, h]⟩)
  | isum => exact .inr (.inl ⟨he, rfl, by rw [commandResult, h]⟩)

/-- The engine has met no error and meets none, every byte it reads is the memory's, and `v` is the command's result over
any reader that agrees with memory on the input ranges. -/
structure UnracedReads (v : Word) (s : State) : Prop where
  noError : s.eng.berr = false
  admitted : ∀ a ∈ s.eng.pending, memAdmit s.platform a = true
  unraced : ∀ a ∈ s.eng.pending, readCandidates s a = [memRead s.mem a]
  bytes : ∀ a x, lookupCell a s.eng.bytes = some x → x = memRead s.mem a
  result : ∀ B : Nat → Byte, (∀ a, InInputRanges s.waddr.toNat s.aaddr.toNat s.eng.nb.toNat a → B a = memRead s.mem a) →
    commandResult s.eng B = v

/-- The byte that moves to the ones read has the one value a read of it may return. -/
theorem UnracedReads.read {v : Word} {s : State} (h : UnracedReads v s) {a : Nat} (ha : a ∈ s.eng.pending) {x : Byte}
    (hx : x ∈ readCandidates s a) :
    UnracedReads v { s with eng := { s.eng with
      bytes := insertCell a x s.eng.bytes, pending := s.eng.pending.erase a } } where
  noError := h.noError
  admitted b hb := h.admitted b (List.mem_of_mem_erase hb)
  unraced b hb := h.unraced b (List.mem_of_mem_erase hb)
  bytes b y hy := by
    rw [lookupCell_insertCell] at hy
    split at hy
    case isTrue hba =>
      rw [h.unraced a ha, List.mem_singleton] at hx
      rw [← Option.some.inj hy, hba, hx]
    case isFalse => exact h.bytes b y hy
  result := h.result

theorem UnracedReads.engineByte_eq {v : Word} {s : State} (h : UnracedReads v s) (hinv : EngineInv s) (hb : s.busy = true)
    (hp : s.eng.pending = []) {a : Nat} (ha : InInputRanges s.waddr.toNat s.aaddr.toNat s.eng.nb.toNat a) :
    engineByte s.eng a = memRead s.mem a := by
  have hread : (lookupCell a s.eng.bytes).isSome = true :=
    ((hinv.pendingOrRead hb a).1 ha).resolve_left (by simp [hp])
  obtain ⟨x, hx⟩ := Option.isSome_iff_exists.1 hread
  rw [engineByte, hx, Option.getD_some, h.bytes a x hx]

/-- A turn of such a run reads the next byte, or completes with the result over memory. -/
theorem UnracedReads.turn {v : Word} {s t : State} (h : UnracedReads v s) (hstatus : StatusInv s) (hinv : EngineInv s)
    (hb : s.busy = true) {pick draw : Nat} (ht : engineStep pick draw s = .next t) :
    (t.busy = true ∧ UnracedReads v t) ∨ CompletedWith v t := by
  rcases engineStep_next.1 ht with ⟨hidle, -⟩ | ⟨-, hend, hcomplete⟩ | ⟨-, -, hp, rfl⟩
  · exact absurd (hb.symm.trans hidle) nofun
  · have hp : s.eng.pending = [] := hend.resolve_left (by simp [h.noError])
    rw [engineComplete_eq (hinv.busyHasOp.1 hb) h.noError, h.result _ fun a => h.engineByte_eq hinv hb hp] at hcomplete
    obtain ⟨-, herr⟩ := hstatus.noOutcomeWhileBusy hb
    rw [← next_eq_next.1 hcomplete]
    exact .inr (complete_ends herr (hstatus.errcode_eq_zero herr) v)
  · have hpicked := pickedAddress_mem hp pick
    rcases engineRead_cases pick draw s with ⟨-, heq⟩ | ⟨hm, -⟩
    · rw [heq]
      exact .inl ⟨hb, h.read hpicked (deviceByte_mem _ _ _)⟩
    · exact absurd ((h.admitted _ hpicked).symm.trans hm) nofun

theorem OperandsKept.trans {s t u : State} (h : OperandsKept s t) (h' : OperandsKept t u) : OperandsKept s u :=
  ⟨h'.ie.trans h.ie, h'.n.trans h.n, h'.waddr.trans h.waddr, h'.aaddr.trans h.aaddr⟩

theorem BusKept.trans {s t u : State} (h : BusKept s t) (h' : BusKept t u) : BusKept s u :=
  ⟨h'.mem.trans h.mem, h'.platform.trans h.platform⟩

/-- The command that `s` accepted goes on with unraced reads towards `v`, or has completed with it; IGN, the operands and
the bus are those of `s`. -/
structure UnracedRun (v : Word) (s t : State) : Prop where
  status : StatusInv t
  engine : EngineInv t
  progress : (t.busy = true ∧ UnracedReads v t) ∨ CompletedWith v t
  ign : t.ign = s.ign
  operands : OperandsKept s t
  bus : BusKept s t

theorem UnracedRun.agenda {v : Word} {s t : State} (h : UnracedRun v s t) (es : List Event) (k : Nat) :
    UnracedRun v s { t with inputs := es, draws := k } where
  status := h.status.of_eq rfl rfl rfl rfl
  engine := h.engine.of_eq rfl rfl rfl rfl rfl fun _ => rfl
  progress := h.progress.imp (fun ⟨hb, hr⟩ => ⟨hb, hr.noError, hr.admitted, hr.unraced, hr.bytes, hr.result⟩)
    fun he => ⟨he.result, he.busy, he.done, he.err, he.errcode, he.engine⟩
  ign := h.ign
  operands := h.operands.trans ⟨rfl, rfl, rfl, rfl⟩
  bus := h.bus.trans ⟨rfl, rfl⟩

theorem UnracedRun.turn {v : Word} {s t u : State} (h : UnracedRun v s t) {pick draw : Nat}
    (hu : engineStep pick draw t = .next u) : UnracedRun v s u := by
  have hout := engineStep_outcome hu
  obtain ⟨hign, hops, -⟩ := engineOutcome_frame hout
  refine ⟨engineOutcome_statusInv h.status hout, engineOutcome_engineInv h.engine hout, ?_, hign.trans h.ign,
    h.operands.trans hops, h.bus.trans (engineOutcome_busKept hout)⟩
  rcases h.progress with ⟨hb, hreads⟩ | hended
  · exact hreads.turn h.status h.engine hb hu
  · rcases engineStep_next.1 hu with ⟨-, rfl⟩ | ⟨hb, -⟩ | ⟨hb, -⟩
    · exact .inr hended
    · exact absurd (hended.busy.symm.trans hb) nofun
    · exact absurd (hended.busy.symm.trans hb) nofun

theorem unracedRun_keptByEngine (v : Word) (s : State) : KeptByEngine (UnracedRun v s) where
  agenda _ es k h := h.agenda es k
  turn _ _ _ _ h hu := h.turn hu
  hasOp _ h := h.engine.busyHasOp.1

/-- Long enough a run of the engine alone completes the command. -/
theorem UnracedRun.run {v : Word} {s t : State} (h : UnracedRun v s t) (honly : OnlyEngineTurns t) {k : Nat}
    (hk : t.eng.pending.length < k) :
    ∃ u, Host.Core.run Sys2Proof.core k t = .next u ∧ CompletedWith v u ∧ u.ign = s.ign ∧ OperandsKept s u ∧
      ∀ a, memRead u.mem a = memRead s.mem a := by
  obtain ⟨u, hrun, hu, hidle⟩ := (unracedRun_keptByEngine v s).run k h honly
  have hbusy : u.busy = false := hidle ((turnsLeft_le t).trans hk)
  refine ⟨u, hrun, hu.progress.resolve_left fun ⟨hb, _⟩ => absurd (hbusy.symm.trans hb) nofun, hu.ign, hu.operands,
    fun a => by rw [hu.bus.mem]⟩

/-- Acceptance starts such a run where every input byte is admitted and no uncleaned store hides one. -/
theorem startEngine_unracedRun {op : EngOp} {mode : Mode} {nb v : Word} {s : State}
    (hinv : EngineInv (startEngine op mode nb (clearOutcome s))) (hadm : InputAdmitted s nb.toNat)
    (hvis : StoresVisible s nb.toNat)
    (hresult : ∀ B : Nat → Byte, (∀ a, InInputRanges s.waddr.toNat s.aaddr.toNat nb.toNat a → B a = memRead s.mem a) →
      commandResult (startEngine op mode nb (clearOutcome s)).eng B = v) :
    UnracedRun v s (startEngine op mode nb (clearOutcome s)) where
  status := .of_no_outcome rfl rfl rfl
  engine := hinv
  progress := .inl ⟨rfl,
    { noError := rfl
      admitted := fun a ha => hadm a (mem_inputAddresses.1 ha)
      unraced := fun a ha => readCandidates_startEngine (s := clearOutcome s) (hvis a (mem_inputAddresses.1 ha)) op mode nb
      bytes := nofun
      result := hresult }⟩
  ign := rfl
  operands := ⟨rfl, rfl, rfl, rfl⟩
  bus := ⟨rfl, rfl⟩

/-! ## ISUM from acceptance to completion (R191) -/

/-- Settles O59: every read gives the memory's byte, so the completion's sum over the bytes read is the one over memory. -/
theorem isumComputesTheSum : Obligations.IsumComputesTheSum := by
  intro s hidle hfit hside hadm hvis honly
  have hinv : EngineInv (startEngine .isum s.eng.mode 1 (clearOutcome s)) :=
    startEngine_engineInv nofun hfit nofun fun _ => rfl
  have hsum (B : Nat → Byte) (hB : ∀ a, InInputRanges s.waddr.toNat s.aaddr.toNat 1 a → B a = memRead s.mem a) :
      commandResult (startEngine .isum s.eng.mode 1 (clearOutcome s)).eng B =
        tc32 (blockSum (memRead s.mem) s.waddr.toNat s.aaddr.toNat) := congrArg tc32 (blockSum_congr hB)
  exact ⟨_, exec_isum_starts hidle hfit hside, fun k hk => (startEngine_unracedRun hinv hadm hvis hsum).run honly hk⟩

end Sys2Proof.Machine

/-! # Proofs: sums of binary32 values (00_scope R13) -/

namespace Sys2Proof.Machine

/-! ## A binary32 pattern is determined by its value (R10) -/

/-- Each step up is by one unit of its binade, also where the fraction carries. -/
theorem magnitude_strictMono : StrictMono magnitude := by
  refine strictMono_nat_of_lt_succ fun b => ?_
  obtain ⟨e, n, rfl, hn, he⟩ : ∃ e n, b = e * 2 ^ 23 + n ∧ n < 2 ^ 24 ∧ (e = 0 ∨ 2 ^ 23 ≤ n) :=
    ⟨b / 2 ^ 23 - 1, b - (b / 2 ^ 23 - 1) * 2 ^ 23, by omega, by omega, by omega⟩
  rw [Nat.add_assoc, magnitude_of_scaled hn.le he, magnitude_of_scaled hn (he.imp_right Nat.le_succ_of_le)]
  exact Nat.mul_lt_mul_of_pos_right (Nat.lt_succ_self n) (Nat.two_pow_pos e)

theorem eq_of_msb_of_low {x y : Word} (hmsb : x.msb = y.msb) (hlow : x.toNat % 2 ^ 31 = y.toNat % 2 ^ 31) : x = y := by
  rw [BitVec.msb_eq_decide, BitVec.msb_eq_decide, decide_eq_decide] at hmsb
  exact BitVec.eq_of_toNat_eq (by omega)

theorem eq_of_f32Val_fin {x y : Word} {neg : Bool} {u : Nat} (hx : f32Val x = .fin neg u) (hy : f32Val y = .fin neg u) :
    x = y := by
  obtain ⟨-, hsign, hunits⟩ := f32Val_eq_fin_iff.1 hx
  obtain ⟨-, hsign', hunits'⟩ := f32Val_eq_fin_iff.1 hy
  exact eq_of_msb_of_low (hsign.trans hsign'.symm) (magnitude_strictMono.injective (hunits.trans hunits'.symm))

theorem eq_infinity_of_f32Val {x : Word} {neg : Bool} (hx : f32Val x = .inf neg) : x = infinity neg := by
  have hlow : x.toNat % 2 ^ 31 = 0x7F800000 ∧ x.msb = neg := by
    simp only [f32Val, BitVec.extractLsb'_toNat, Nat.shiftRight_eq_div_pow] at hx
    split at hx
    case isFalse => cases hx
    case isTrue hexp =>
      split at hx
      case isFalse => cases hx
      case isTrue hfrac =>
        cases hx
        exact ⟨by omega, rfl⟩
  obtain ⟨hlow, rfl⟩ := hlow
  refine eq_of_msb_of_low ?_ (hlow.trans ?_)
  · cases x.msb <;> rfl
  · cases x.msb <;> rfl

theorem eq_signedZero_iff {x : Word} {neg : Bool} : x = signedZero neg ↔ f32Val x = .fin neg 0 :=
  ⟨fun h => h ▸ f32Val_signedZero neg, fun h => eq_of_f32Val_fin h (f32Val_signedZero neg)⟩

/-! ## Rounding of nonzero values (R13) -/

theorem roundedUnits_magnitude (b : Nat) : roundedUnits (magnitude b) 0 = magnitude b :=
  le_antisymm (roundedUnits_le le_rfl) (le_roundedUnits le_rfl)

theorem magnitude_pow (e : Nat) : magnitude (e * 2 ^ 23 + 2 ^ 23) = 2 ^ (23 + e) := by
  rw [magnitude_of_scaled (by decide) (.inr le_rfl), Nat.pow_add]

theorem roundedUnits_zero : roundedUnits 0 0 = 0 := roundedUnits_magnitude 0

/-- A magnitude less than half a unit above a power of two goes back to it: the next finite value is a whole unit off. -/
theorem roundedUnits_le_pow {num e : Nat} (h : 2 * num < 2 * 2 ^ (23 + e) + 2 ^ e) : roundedUnits num 0 ≤ 2 ^ (23 + e) := by
  obtain hle | hgt := le_or_gt num (2 ^ (23 + e))
  · rw [← magnitude_pow] at hle ⊢
    exact roundedUnits_le hle
  have hnear := (roundedUnits_nearest (e * 2 ^ 23 + 2 ^ 23) num 0).1
  rw [magnitude_pow, Int.pow_zero, Int.mul_one, Int.mul_one] at hnear
  push_cast at hnear
  zify at h hgt
  rw [abs_of_pos (a := (num : Int) - 2 ^ (23 + e)) (by omega)] at hnear
  have hbelow : roundedUnits num 0 < 2 ^ (23 + e) + 2 ^ e := by
    have := (abs_le.1 hnear).1
    zify
    omega
  rw [← magnitude_roundedBits, Nat.pow_add] at hbelow ⊢
  obtain hlt | ⟨m, hm⟩ := magnitude_lt_or_dvd (roundedBits num 0) e
  · exact hlt.le
  · rw [hm, Nat.mul_comm] at hbelow ⊢
    rw [← Nat.succ_mul] at hbelow
    exact Nat.mul_le_mul_right _ (Nat.lt_succ_iff.1 (Nat.lt_of_mul_lt_mul_right hbelow))

theorem roundRne32_cases (neg : Bool) (num k : Nat) :
    f32Val (roundRne32 neg num k) = .inf neg ∨ f32Val (roundRne32 neg num k) = .fin neg (roundedUnits num k) := by
  obtain h | h := le_or_gt ((2 ^ 128 - 2 ^ 103) * 2 ^ (149 + k)) num
  · exact .inl (by rw [roundRne32_overflow neg h, f32Val_infinity])
  · exact .inr (f32Val_roundRne32 neg h)

theorem roundRne32_ne_signedZero (neg neg' : Bool) {num : Nat} (h : num ≠ 0) : roundRne32 neg num 0 ≠ signedZero neg' := by
  have hpos : magnitude 1 ≤ roundedUnits num 0 := le_roundedUnits (Nat.one_le_iff_ne_zero.2 h)
  rw [Ne, eq_signedZero_iff]
  rcases roundRne32_cases neg num 0 with hval | hval <;> rw [hval]
  · nofun
  · intro heq
    injection heq with _ hzero
    rw [hzero] at hpos
    exact absurd hpos (by decide)

/-! ## What a sum of two values can be (R13, R209, R212) -/

/-- The value is the infinity of this sign, or the NaN that stands for both infinities: a sum has what either operand has,
unless two finite operands overflow. -/
def AtInfinity (neg : Bool) (x : Word) : Prop := f32Val x = .nan ∨ f32Val x = .inf neg

theorem eq_infinity_of_atInfinity {neg : Bool} {x : Word} (h : AtInfinity neg x) (h' : ¬ AtInfinity (!neg) x) :
    x = infinity neg := eq_infinity_of_f32Val (h.resolve_left fun hnan => h' (.inl hnan))

theorem f32Val_eq_nan_of_atInfinity {x : Word} (h : ∀ neg, AtInfinity neg x) : f32Val x = .nan := by
  by_contra hnan
  have hpos := (h false).resolve_left hnan
  have hneg := (h true).resolve_left hnan
  rw [hpos] at hneg
  cases hneg

theorem exists_fin_of_not_atInfinity {x : Word} (h : ∀ neg, ¬ AtInfinity neg x) : ∃ neg u, f32Val x = .fin neg u := by
  cases hx : f32Val x with
  | nan => exact absurd (.inl hx) (h true)
  | inf s => exact absurd (.inr hx) (h s)
  | fin s u => exact ⟨s, u, rfl⟩

theorem not_atInfinity_of_fin {x : Word} {s : Bool} {u : Nat} (hx : f32Val x = .fin s u) (neg : Bool) :
    ¬ AtInfinity neg x := by
  simp [AtInfinity, hx]

theorem atInfinity_canonNan (neg : Bool) : AtInfinity neg canonNan := .inl f32Val_canonNan

theorem atInfinity_infinity {neg neg' : Bool} : AtInfinity neg (infinity neg') ↔ neg = neg' := by
  simp [AtInfinity, f32Val_infinity, eq_comm]

/-- The case table of R13 in three rows: CANON_NAN, an infinity, or the sum of two finite values. -/
theorem fadd32_cases (a b : Word) :
    (fadd32 a b = canonNan ∧ ∀ neg, AtInfinity neg a ∨ AtInfinity neg b) ∨
    (∃ s, fadd32 a b = infinity s ∧ ∀ neg, AtInfinity neg a ∨ AtInfinity neg b ↔ neg = s) ∨
    ∃ s x t y, f32Val a = .fin s x ∧ f32Val b = .fin t y := by
  cases ha : f32Val a with
  | nan => exact .inl ⟨fadd32_of_nan (.inl ha), fun _ => .inl (.inl ha)⟩
  | inf s =>
    obtain rfl := eq_infinity_of_f32Val ha
    cases hb : f32Val b with
    | nan => exact .inl ⟨fadd32_of_nan (.inr hb), fun _ => .inr (.inl hb)⟩
    | inf t =>
      obtain rfl := eq_infinity_of_f32Val hb
      by_cases hst : s = t
      · exact .inr (.inl ⟨s, by rw [fadd32_inf_inf ha hb, if_pos hst], fun neg => by simp [atInfinity_infinity, hst]⟩)
      · refine .inl ⟨by rw [fadd32_inf_inf ha hb, if_neg hst], fun neg => ?_⟩
        rw [atInfinity_infinity, atInfinity_infinity]
        exact (Bool.eq_or_eq_not neg s).imp_right fun h => h.trans (Bool.eq_not.2 (Ne.symm hst)).symm
    | fin t y =>
      refine .inr (.inl ⟨s, fadd32_inf_fin ha hb, fun neg => ?_⟩)
      rw [atInfinity_infinity, or_iff_left (not_atInfinity_of_fin hb neg)]
  | fin s x =>
    cases hb : f32Val b with
    | nan => exact .inl ⟨fadd32_of_nan (.inr hb), fun _ => .inr (.inl hb)⟩
    | inf t =>
      obtain rfl := eq_infinity_of_f32Val hb
      refine .inr (.inl ⟨t, fadd32_fin_inf ha hb, fun neg => ?_⟩)
      rw [atInfinity_infinity, or_iff_right (not_atInfinity_of_fin ha neg)]
    | fin t y => exact .inr (.inr ⟨s, x, t, y, rfl, rfl⟩)

/-- Where finite operands do not overflow, a sum is at an infinity exactly where an operand is (R212). -/
theorem atInfinity_fadd32 {a b : Word}
    (hfin : ∀ s x t y, f32Val a = .fin s x → f32Val b = .fin t y → ∃ neg u, f32Val (fadd32 a b) = .fin neg u) (neg : Bool) :
    AtInfinity neg (fadd32 a b) ↔ AtInfinity neg a ∨ AtInfinity neg b := by
  rcases fadd32_cases a b with ⟨heq, h⟩ | ⟨s, heq, h⟩ | ⟨s, x, t, y, ha, hb⟩
  · rw [heq]
    exact iff_of_true (atInfinity_canonNan neg) (h neg)
  · rw [heq, h, atInfinity_infinity]
  · obtain ⟨_, _, hsum⟩ := hfin s x t y ha hb
    exact iff_of_false (not_atInfinity_of_fin hsum neg)
      (not_or.2 ⟨not_atInfinity_of_fin ha neg, not_atInfinity_of_fin hb neg⟩)

/-- A finite pair of operands gives a signed zero or a rounded nonzero sum. -/
theorem fadd32_fin_cases {a b : Word} {s t : Bool} {x y : Nat} (ha : f32Val a = .fin s x) (hb : f32Val b = .fin t y) :
    (fadd32 a b = if a = signedZero true ∧ b = signedZero true then signedZero true else signedZero false) ∨
      ∃ neg num, num ≠ 0 ∧ fadd32 a b = roundRne32 neg num 0 := by
  by_cases hr : signedUnits s x + signedUnits t y = 0
  · exact .inl (fadd32_fin_fin_zero ha hb hr)
  · exact .inr ⟨_, _, Int.natAbs_ne_zero.2 hr, fadd32_fin_fin_nonzero ha hb hr⟩

theorem fadd32_eq_negZero_iff {a b : Word} : fadd32 a b = signedZero true ↔ a = signedZero true ∧ b = signedZero true := by
  refine ⟨fun h => ?_, fun ⟨ha, hb⟩ => by rw [ha, hb]; decide⟩
  rcases fadd32_cases a b with ⟨heq, -⟩ | ⟨s, heq, -⟩ | ⟨s, x, t, y, ha, hb⟩
  · exact absurd (heq.symm.trans h) (by decide)
  · rw [heq, eq_signedZero_iff, f32Val_infinity] at h
    cases h
  · rcases fadd32_fin_cases ha hb with heq | ⟨neg, num, hnum, heq⟩ <;> rw [heq] at h
    · by_contra hne
      exact absurd h (by rw [if_neg hne]; decide)
    · exact absurd h (roundRne32_ne_signedZero neg true hnum)

theorem fadd32_eq_canonNan_of_nan {a b : Word} (h : f32Val (fadd32 a b) = .nan) : fadd32 a b = canonNan := by
  rcases fadd32_cases a b with ⟨heq, -⟩ | ⟨s, heq, -⟩ | ⟨s, x, t, y, ha, hb⟩
  · exact heq
  · rw [heq, f32Val_infinity] at h
    cases h
  · rcases fadd32_fin_cases ha hb with heq | ⟨neg, num, -, heq⟩ <;> rw [heq] at h
    · split at h <;> rw [f32Val_signedZero] at h <;> cases h
    · rcases roundRne32_cases neg num 0 with hval | hval <;> rw [hval] at h <;> cases h

/-- A first operand other than `-0` leaves `+0` as the only zero sum. -/
theorem f32Val_fadd32_fin {a b : Word} {s t : Bool} {x y : Nat} (hne : a ≠ signedZero true) (ha : f32Val a = .fin s x)
    (hb : f32Val b = .fin t y) (hlt : (signedUnits s x + signedUnits t y).natAbs < (2 ^ 128 - 2 ^ 103) * 2 ^ 149) :
    f32Val (fadd32 a b) = .fin (decide (signedUnits s x + signedUnits t y < 0))
      (roundedUnits (signedUnits s x + signedUnits t y).natAbs 0) := by
  by_cases hr : signedUnits s x + signedUnits t y = 0
  · rw [fadd32_fin_fin_zero ha hb hr, if_neg fun h => hne h.1, f32Val_signedZero, hr, Int.natAbs_zero, roundedUnits_zero]
    rfl
  · rw [fadd32_fin_fin_nonzero ha hb hr, f32Val_roundRne32 _ hlt]

/-! ## Adding zeros (R209, R210) -/

theorem natAbs_signedUnits (neg : Bool) (u : Nat) : (signedUnits neg u).natAbs = u := by
  cases neg
  · exact Int.natAbs_natCast u
  · exact (Int.natAbs_neg _).trans (Int.natAbs_natCast u)

theorem signedUnits_neg {u : Nat} (hu : u ≠ 0) (neg : Bool) : decide (signedUnits neg u < 0) = neg := by
  cases neg <;> simp [signedUnits, Nat.pos_of_ne_zero hu]

theorem signedUnits_zero (neg : Bool) : signedUnits neg 0 = 0 := by cases neg <;> rfl

theorem f32Val_plusZero : f32Val plusZero = .fin false 0 := f32Val_signedZero false

theorem plusZero_ne_negZero : plusZero ≠ signedZero true := by decide

/-- Finite values lie below the overflow threshold, and rounding does not change them. -/
theorem units_of_f32Val {x : Word} {neg : Bool} {u : Nat} (hx : f32Val x = .fin neg u) :
    u < (2 ^ 128 - 2 ^ 103) * 2 ^ 149 ∧ roundedUnits u 0 = u := by
  obtain ⟨hlt, -, rfl⟩ := f32Val_eq_fin_iff.1 hx
  have hle := magnitude_strictMono.monotone (Nat.le_sub_one_of_lt hlt)
  exact ⟨hle.trans_lt (by decide), roundedUnits_magnitude _⟩

/-- `+0` takes over any value but `-0`, and of a NaN only that it is one. -/
theorem fadd32_plusZero (x : Word) :
    fadd32 plusZero x = if x = signedZero true then plusZero else if f32Val x = .nan then canonNan else x := by
  cases hx : f32Val x with
  | nan => rw [fadd32_of_nan (.inr hx), if_neg (by rw [eq_signedZero_iff, hx]; nofun), if_pos rfl]
  | inf t => rw [fadd32_fin_inf f32Val_plusZero hx, if_neg (by rw [eq_signedZero_iff, hx]; nofun), if_neg nofun]
  | fin t y =>
    obtain ⟨hlt, hround⟩ := units_of_f32Val hx
    have hsum := f32Val_fadd32_fin plusZero_ne_negZero f32Val_plusZero hx
    rw [signedUnits_zero, Int.zero_add, natAbs_signedUnits, hround] at hsum
    by_cases hy : y = 0
    · subst hy
      rw [signedUnits_zero] at hsum
      rw [eq_of_f32Val_fin (hsum hlt) f32Val_plusZero]
      cases t
      · rw [eq_of_f32Val_fin hx f32Val_plusZero, if_neg plusZero_ne_negZero, if_neg nofun]
      · rw [if_pos (eq_signedZero_iff.2 hx)]
    · rw [signedUnits_neg hy] at hsum
      rw [eq_of_f32Val_fin (hsum hlt) hx, if_neg, if_neg nofun]
      rw [eq_signedZero_iff, hx]
      rintro ⟨⟩
      exact hy rfl

theorem fadd32_negZero {t : Word} (ht : t ≠ signedZero true) : fadd32 t (signedZero true) = fadd32 t plusZero := by
  cases hval : f32Val t with
  | nan => rw [fadd32_of_nan (.inl hval), fadd32_of_nan (.inl hval)]
  | inf s => rw [fadd32_inf_fin hval (f32Val_signedZero true), fadd32_inf_fin hval f32Val_plusZero]
  | fin s x => simp only [fadd32, hval, f32Val_signedZero true, f32Val_plusZero, signedUnits_zero, ht, false_and, if_false]

/-- Adding `+0` first makes no difference to a total. -/
theorem fadd32_fadd32_plusZero {t : Word} (ht : t ≠ signedZero true) (x : Word) :
    fadd32 t (fadd32 plusZero x) = fadd32 t x := by
  rw [fadd32_plusZero]
  split
  case isTrue hx => rw [hx, fadd32_negZero ht]
  case isFalse =>
    split
    case isTrue hnan => rw [fadd32_of_nan (.inr f32Val_canonNan), fadd32_of_nan (.inr hnan)]
    case isFalse => rfl

/-- A sum is neither `-0` nor a NaN of its own, so `+0` takes it over. -/
theorem fadd32_plusZero_fadd32 {a b : Word} (ha : a ≠ signedZero true) : fadd32 plusZero (fadd32 a b) = fadd32 a b := by
  rw [fadd32_plusZero, if_neg fun h => ha (fadd32_eq_negZero_iff.1 h).1]
  split
  case isTrue hnan => exact (fadd32_eq_canonNan_of_nan hnan).symm
  case isFalse => rfl

end Sys2Proof.Machine

/-! # Proofs: DOT and the three orders of its reduction (43_dot_reduction) -/

namespace Sys2Proof.Machine

/-! ## A result depends on the bytes of its input ranges alone (R78, R208) -/

theorem blockScale_congr {B B' : Nat → Byte} {b : Nat} (h : B b = B' b) (h' : B (b + 1) = B' (b + 1)) :
    blockScale B b = blockScale B' b := by rw [blockScale, blockScale, h, h']

theorem blockContribution_congr {B B' : Nat → Byte} {w a : Nat} (h : ∀ b, InInputRanges w a 1 b → B b = B' b) :
    blockContribution B w a = blockContribution B' w a := by
  have hweight : blockScale B w = blockScale B' w := blockScale_congr (h _ (.inl (by omega))) (h _ (.inl (by omega)))
  have hactivation : blockScale B a = blockScale B' a := blockScale_congr (h _ (.inr (by omega))) (h _ (.inr (by omega)))
  simp only [blockContribution, scaleProduct, blockSum_congr h, hweight, hactivation]

/-- Block pair `k` lies inside the ranges of `nb` block pairs. -/
theorem InInputRanges.of_block {wb ab nb k b : Nat} (hk : k < nb)
    (h : InInputRanges (weightBlock wb k) (activationBlock ab k) 1 b) : InInputRanges wb ab nb b := by
  simp only [InInputRanges, weightBlock, activationBlock] at *
  omega

theorem dotResult_congr {B B' : Nat → Byte} {wb ab nb : Nat} (h : ∀ b, InInputRanges wb ab nb b → B b = B' b) (mode : Mode) :
    dotResult mode nb B wb ab = dotResult mode nb B' wb ab :=
  congrArg (reduceWith mode) (List.map_congr_left fun _ hk =>
    blockContribution_congr fun b hb => h b (hb.of_block (List.mem_range.1 hk)))

/-- Settles O21: `dotResult_congr`, and ISUM reads block pair 0. -/
theorem resultsReadOnlyTheirRanges : Obligations.ResultsReadOnlyTheirRanges := fun _ _ _ _ _ h =>
  ⟨dotResult_congr h, fun hpos => congrArg tc32 (blockSum_congr fun b hb => h b (hb.of_block hpos))⟩

/-! ## DOT from acceptance to completion (R201, R202, R204) -/

theorem exec_dot_starts {s : State} {nb : Nat} (hidle : s.busy = false) (hcount : LegalCount s nb) (hfit : RangesInSpace s nb)
    (hside : NoSideEffectInput s nb) {c : Instr × Mode} (hc : c ∈ dotCommands) :
    exec c.1 s = .next (startEngine .dot c.2 (blockCount s.n) (clearOutcome s)) := by
  obtain ⟨hlegal, rfl⟩ := legalCount_spec hcount
  rw [exec_dot hc, commandWrite_idle hidle]
  exact startDot_next.2 (.inr ⟨hlegal, launch_starts hfit hside⟩)

/-- Settles O27: the premises are the checks of `startDot` and `launch`, in whose order the engine is started. -/
theorem dotStartsTheEngine : Obligations.DotStartsTheEngine := by
  intro s nb hidle hcount hfit hside c hc
  have hexec := exec_dot_starts hidle hcount hfit hside hc
  obtain ⟨-, rfl⟩ := legalCount_spec hcount
  exact ⟨_, hexec, startEngine_startedOn .dot c.2 _ s, rfl, startEngine_frame .dot c.2 _ s⟩

/-- Settles O58: every read gives the memory's byte, and the result depends on the bytes of the input ranges alone. -/
theorem dotComputesTheReduction : Obligations.DotComputesTheReduction := by
  intro s nb hidle hcount hfit hside hadm hvis honly c hc
  have hexec := exec_dot_starts hidle hcount hfit hside hc
  obtain ⟨hlegal, rfl⟩ := legalCount_spec hcount
  have hinv : EngineInv (startEngine .dot c.2 (blockCount s.n) (clearOutcome s)) :=
    startEngine_engineInv nofun hfit (fun _ => ⟨hlegal, rfl⟩) nofun
  exact ⟨_, hexec, fun k hk =>
    (startEngine_unracedRun hinv hadm hvis fun _ hB => dotResult_congr hB c.2).run honly hk⟩

/-! ## The orders of the three modes (R205 to R207) -/

theorem seqReduce_strideTotal (c : Nat → Word) (n : Nat) : seqReduce ((List.range n).map c) = strideTotal c 1 0 n := by
  simp only [seqReduce, addSingles, strideTotal, plusZero, List.foldl_map, Nat.one_mul, Nat.add_zero]

/-- `q` full pairs taken already, `n` contributions to come. -/
theorem pairLoop_strideTotal (c : Nat → Word) (q : Nat) : ∀ n,
    pairLoop (strideTotal c 2 0 q) (strideTotal c 2 1 q) ((List.range' (2 * q) n).map c) =
      (strideTotal c 2 0 (q + n / 2), strideTotal c 2 1 (q + n / 2), (List.range' (2 * (q + n / 2)) (n % 2)).map c)
  | 0 => rfl
  | 1 => rfl
  | n + 2 => by
    have ih := pairLoop_strideTotal c (q + 1) n
    rw [strideTotal_succ, strideTotal_succ] at ih
    rw [List.range'_succ, List.range'_succ, Nat.add_mod_right, show q + (n + 2) / 2 = q + 1 + n / 2 by omega]
    exact ih

theorem quadLoop_strideTotal (c : Nat → Word) (q : Nat) : ∀ n,
    quadLoop (strideTotal c 4 0 q) (strideTotal c 4 1 q) (strideTotal c 4 2 q) (strideTotal c 4 3 q)
        ((List.range' (4 * q) n).map c) =
      (fadd32 (fadd32 (strideTotal c 4 0 (q + n / 4)) (strideTotal c 4 1 (q + n / 4)))
        (fadd32 (strideTotal c 4 2 (q + n / 4)) (strideTotal c 4 3 (q + n / 4))),
        (List.range' (4 * (q + n / 4)) (n % 4)).map c)
  | 0 => rfl
  | 1 => rfl
  | 2 => rfl
  | 3 => rfl
  | n + 4 => by
    have ih := quadLoop_strideTotal c (q + 1) n
    rw [strideTotal_succ, strideTotal_succ, strideTotal_succ, strideTotal_succ] at ih
    rw [List.range'_succ, List.range'_succ, List.range'_succ, List.range'_succ, Nat.add_mod_right,
      show q + (n + 4) / 4 = q + 1 + n / 4 by omega]
    exact ih

theorem pair2Reduce_strideTotal (c : Nat → Word) (n : Nat) :
    pair2Reduce ((List.range n).map c) =
      if n % 2 = 1 then fadd32 (fadd32 (strideTotal c 2 0 (n / 2)) (strideTotal c 2 1 (n / 2))) (c (n - 1))
      else fadd32 (strideTotal c 2 0 (n / 2)) (strideTotal c 2 1 (n / 2)) := by
  have hloop := pairLoop_strideTotal c 0 n
  rw [Nat.zero_add, Nat.mul_zero, ← List.range_eq_range', strideTotal_zero, strideTotal_zero] at hloop
  rw [pair2Reduce, plusZero, hloop]
  rcases Nat.mod_two_eq_zero_or_one n with h | h
  · rw [h]
    rfl
  · rw [h, show n - 1 = 2 * (n / 2) by omega]
    rfl

theorem quad4Reduce_strideTotal (c : Nat → Word) (n : Nat) :
    quad4Reduce ((List.range n).map c) =
      (let T := fadd32 (fadd32 (strideTotal c 4 0 (n / 4)) (strideTotal c 4 1 (n / 4)))
        (fadd32 (strideTotal c 4 2 (n / 4)) (strideTotal c 4 3 (n / 4)));
      let U := if 2 ≤ n % 4 then fadd32 T (fadd32 (fadd32 plusZero (c (4 * (n / 4)))) (fadd32 plusZero (c (4 * (n / 4) + 1))))
        else T;
      if n % 2 = 1 then fadd32 U (c (n - 1)) else U) := by
  have hloop := quadLoop_strideTotal c 0 n
  simp only [Nat.zero_add, Nat.mul_zero, ← List.range_eq_range', strideTotal_zero] at hloop
  rw [quad4Reduce, plusZero, hloop]
  obtain h | h | h | h : n % 4 = 0 ∨ n % 4 = 1 ∨ n % 4 = 2 ∨ n % 4 = 3 := by omega
  · rw [h, show n % 2 = 0 by omega]
    rfl
  · rw [h, show n % 2 = 1 by omega, show n - 1 = 4 * (n / 4) by omega]
    rfl
  · rw [h, show n % 2 = 0 by omega]
    rfl
  · rw [h, show n % 2 = 1 by omega, show n - 1 = 4 * (n / 4) + 2 by omega]
    rfl

/-! ## Up to three contributions (R210) -/

theorem fadd32_plusZero_plusZero : fadd32 plusZero plusZero = plusZero := by decide

theorem fadd32_plusZero_ne_negZero (x : Word) : fadd32 plusZero x ≠ signedZero true := fun h =>
  plusZero_ne_negZero (fadd32_eq_negZero_iff.1 h).1

theorem reduceWith_one (mode : Mode) (c : Word) : reduceWith mode [c] = fadd32 plusZero c := by
  cases mode with
  | pair2 => exact congrArg (fadd32 · c) fadd32_plusZero_plusZero
  | quad4 =>
    change fadd32 (fadd32 (fadd32 plusZero plusZero) (fadd32 plusZero plusZero)) c = _
    rw [fadd32_plusZero_plusZero, fadd32_plusZero_plusZero]
  | seq => rfl

theorem reduceWith_two (mode : Mode) (c d : Word) :
    reduceWith mode [c, d] = fadd32 (fadd32 plusZero c) (fadd32 plusZero d) := by
  cases mode with
  | pair2 => rfl
  | quad4 =>
    change fadd32 (fadd32 (fadd32 plusZero plusZero) (fadd32 plusZero plusZero)) (fadd32 _ _) = _
    rw [fadd32_plusZero_plusZero, fadd32_plusZero_plusZero, fadd32_plusZero_fadd32 (fadd32_plusZero_ne_negZero c)]
  | seq => exact (fadd32_fadd32_plusZero (fadd32_plusZero_ne_negZero c) d).symm

/-- Every mode adds the third contribution to its result on the first two. -/
theorem reduceWith_three (mode : Mode) (c d e : Word) :
    reduceWith mode [c, d, e] = fadd32 (fadd32 (fadd32 plusZero c) (fadd32 plusZero d)) e := by
  rw [← reduceWith_two mode]
  cases mode <;> rfl

/-- Settles O17: the loops by induction on the contributions to come, and `+0` is neutral for totals. -/
theorem modesAgreeUpToThreeBlocks : Obligations.ModesAgreeUpToThreeBlocks := by
  refine ⟨fun c nb => ⟨seqReduce_strideTotal c nb, pair2Reduce_strideTotal c nb, quad4Reduce_strideTotal c nb⟩,
    fun _ _ _ _ _ => rfl, fadd32_plusZero,
    fun mode c d e => ⟨reduceWith_one mode c, reduceWith_two mode c d, reduceWith_three mode c d e⟩, ?_, ?_, ?_⟩
  · decide
  · decide
  · decide

/-! ## The totals of a reduction (R204 to R207) -/

/-- `t` is a total of the contributions `m`: it starts at a value of `S`, takes contributions one at a time, and merges at
most `d` deep with other totals. -/
inductive TotalOf (S : Set Word) : Nat → Multiset Word → Word → Prop where
  | start {d : Nat} {t : Word} (ht : t ∈ S) : TotalOf S d 0 t
  | add {d : Nat} {m : Multiset Word} {t : Word} (h : TotalOf S d m t) (c : Word) : TotalOf S d (m + {c}) (fadd32 t c)
  | merge {d : Nat} {m m' : Multiset Word} {t t' : Word} (h : TotalOf S d m t) (h' : TotalOf S d m' t') :
      TotalOf S (d + 1) (m + m') (fadd32 t t')

section

variable {S : Set Word} {d : Nat} {m m' : Multiset Word} {t t' : Word}

theorem TotalOf.deeper (h : TotalOf S d m t) : TotalOf S (d + 1) m t := by
  induction h with
  | start ht => exact .start ht
  | add _ c ih => exact .add ih c
  | merge _ _ ih ih' => exact .merge ih ih'

theorem add_coe_cons (m : Multiset Word) (c : Word) (cs : List Word) :
    m + ((c :: cs : List Word) : Multiset Word) = m + {c} + cs := by
  rw [← Multiset.cons_coe, ← Multiset.singleton_add, add_assoc]

theorem addSingles_totalOf (h : TotalOf S d m t) (cs : List Word) : TotalOf S d (m + cs) (addSingles t cs) := by
  induction cs generalizing m t with
  | nil => rwa [Multiset.coe_nil, add_zero]
  | cons c cs ih =>
    rw [add_coe_cons]
    exact ih (h.add c)

/-- The contributions of the two totals and the ones left over are those of before and the list's. -/
theorem pairLoop_totalOf {s0 s1 : Word} {m0 m1 : Multiset Word} (h0 : TotalOf S d m0 s0) (h1 : TotalOf S d m1 s1) :
    ∀ cs, ∃ m0' m1', TotalOf S d m0' (pairLoop s0 s1 cs).1 ∧ TotalOf S d m1' (pairLoop s0 s1 cs).2.1 ∧
      m0' + m1' + ((pairLoop s0 s1 cs).2.2 : Multiset Word) = m0 + m1 + cs
  | [] => ⟨m0, m1, h0, h1, rfl⟩
  | [_] => ⟨m0, m1, h0, h1, rfl⟩
  | a :: b :: rest => by
    obtain ⟨m0', m1', ht0, ht1, hall⟩ := pairLoop_totalOf (h0.add a) (h1.add b) rest
    refine ⟨m0', m1', ht0, ht1, hall.trans ?_⟩
    simp only [add_coe_cons]
    ac_rfl

theorem quadLoop_totalOf {s0 s1 s2 s3 : Word} {m0 m1 m2 m3 : Multiset Word} (h0 : TotalOf S d m0 s0) (h1 : TotalOf S d m1 s1)
    (h2 : TotalOf S d m2 s2) (h3 : TotalOf S d m3 s3) :
    ∀ cs, ∃ m', TotalOf S (d + 2) m' (quadLoop s0 s1 s2 s3 cs).1 ∧
      m' + ((quadLoop s0 s1 s2 s3 cs).2 : Multiset Word) = m0 + m1 + (m2 + m3) + cs
  | [] => ⟨_, (h0.merge h1).merge (h2.merge h3), rfl⟩
  | [_] => ⟨_, (h0.merge h1).merge (h2.merge h3), rfl⟩
  | [_, _] => ⟨_, (h0.merge h1).merge (h2.merge h3), rfl⟩
  | [_, _, _] => ⟨_, (h0.merge h1).merge (h2.merge h3), rfl⟩
  | a :: b :: c :: e :: rest => by
    obtain ⟨m', ht, hall⟩ := quadLoop_totalOf (h0.add a) (h1.add b) (h2.add c) (h3.add e) rest
    refine ⟨m', ht, hall.trans ?_⟩
    simp only [add_coe_cons]
    ac_rfl

/-- The remainder pair is merged from two fresh totals. -/
theorem quadRemainder_totalOf (hzero : plusZero ∈ S) (h : TotalOf S (d + 1) m t) :
    ∀ cs : List Word, TotalOf S (d + 2) (m + cs) (quadRemainder t cs)
  | [] => addSingles_totalOf h.deeper []
  | [c] => addSingles_totalOf h.deeper [c]
  | a :: b :: rest => by
    have hpair : TotalOf S (d + 1) (0 + {a} + (0 + {b})) (fadd32 (fadd32 plusZero a) (fadd32 plusZero b)) :=
      .merge (.add (.start hzero) a) (.add (.start hzero) b)
    rw [add_coe_cons, add_coe_cons, show m + {a} + {b} = m + (0 + {a} + (0 + {b})) by simp only [zero_add, add_assoc]]
    exact addSingles_totalOf (h.merge hpair) rest

theorem reduceWith_totalOf (hzero : plusZero ∈ S) (mode : Mode) (cs : List Word) : TotalOf S 3 cs (reduceWith mode cs) := by
  have hfresh (d : Nat) : TotalOf S d 0 plusZero := .start hzero
  cases mode with
  | seq =>
    rw [← zero_add (cs : Multiset Word)]
    exact addSingles_totalOf (hfresh 3) cs
  | pair2 =>
    obtain ⟨m0, m1, h0, h1, hall⟩ := pairLoop_totalOf (hfresh 2) (hfresh 2) cs
    rw [zero_add, zero_add] at hall
    rw [← hall]
    exact addSingles_totalOf (h0.merge h1) _
  | quad4 =>
    obtain ⟨m, ht, hall⟩ := quadLoop_totalOf (hfresh 0) (hfresh 0) (hfresh 0) (hfresh 0) cs
    rw [zero_add, zero_add, zero_add] at hall
    rw [← hall]
    exact quadRemainder_totalOf hzero ht _

/-! ## No total is `-0` (R209) -/

theorem TotalOf.ne_negZero (hS : ∀ t ∈ S, t ≠ signedZero true) (h : TotalOf S d m t) : t ≠ signedZero true := by
  induction h with
  | start ht => exact hS _ ht
  | add _ _ ih => exact fun h => ih (fadd32_eq_negZero_iff.1 h).1
  | merge _ _ ih _ => exact fun h => ih (fadd32_eq_negZero_iff.1 h).1

end

/-- Settles O16: `fadd32_eq_negZero_iff` keeps every total away from `-0` that starts away from it, and `+0` does. -/
theorem dotResultIsNeverNegativeZero : Obligations.DotResultIsNeverNegativeZero := by
  have hstart (d : Nat) {t : Word} (ht : t ≠ signedZero true) : TotalOf {t | t ≠ signedZero true} d 0 t := .start ht
  have hkept {d : Nat} {m : Multiset Word} {t : Word} : TotalOf {t | t ≠ signedZero true} d m t → t ≠ signedZero true :=
    TotalOf.ne_negZero fun _ ht => ht
  have hreduce (mode : Mode) (cs : List Word) : reduceWith mode cs ≠ signedZero true :=
    hkept (reduceWith_totalOf plusZero_ne_negZero mode cs)
  refine ⟨fun _ _ => fadd32_eq_negZero_iff, fun t cs ht => ⟨?_, ?_⟩, fun s0 s1 cs h0 h1 => ?_,
    fun s0 s1 s2 s3 cs h0 h1 h2 h3 => ?_, hreduce, fun mode nb B wb ab => hreduce mode _⟩
  · exact hkept (addSingles_totalOf (hstart 0 ht) cs)
  · exact hkept (quadRemainder_totalOf plusZero_ne_negZero (hstart 1 ht) cs)
  · obtain ⟨_, _, ht0, ht1, -⟩ := pairLoop_totalOf (hstart 0 h0) (hstart 0 h1) cs
    exact ⟨hkept ht0, hkept ht1⟩
  · obtain ⟨_, ht, -⟩ := quadLoop_totalOf (hstart 0 h0) (hstart 0 h1) (hstart 0 h2) (hstart 0 h3) cs
    exact hkept ht

/-! ## Exact sums (R214) -/

/-- `c` is `i` units of `2^g`; a zero has either sign. -/
def IsMultiple (g : Nat) (c : Word) (i : Int) : Prop :=
  ∃ neg, f32Val c = .fin neg (i.natAbs * 2 ^ g) ∧ (i ≠ 0 → neg = decide (i < 0))

/-- `c` is `i` units of `2^g`, and not `-0`. -/
def IsExactly (g : Nat) (c : Word) (i : Int) : Prop := f32Val c = .fin (decide (i < 0)) (i.natAbs * 2 ^ g)

theorem IsExactly.isMultiple {g : Nat} {c : Word} {i : Int} (h : IsExactly g c i) : IsMultiple g c i := ⟨_, h, fun _ => rfl⟩

theorem IsExactly.ne_negZero {g : Nat} {c : Word} {i : Int} (h : IsExactly g c i) : c ≠ signedZero true := by
  rw [Ne, eq_signedZero_iff, h, FloatVal.fin.injEq, decide_eq_true_eq, Nat.mul_eq_zero, Int.natAbs_eq_zero]
  rintro ⟨hneg, hzero | hzero⟩
  · omega
  · exact absurd hzero (Nat.two_pow_pos g).ne'

theorem signedUnits_multiple {i : Int} {neg : Bool} (h : i ≠ 0 → neg = decide (i < 0)) (g : Nat) :
    signedUnits neg (i.natAbs * 2 ^ g) = i * 2 ^ g := by
  by_cases hi : i = 0
  · rw [hi, Int.natAbs_zero, Nat.zero_mul, signedUnits_zero, Int.zero_mul]
  · rw [h hi, signedUnits]
    push_cast
    split
    case isTrue hneg =>
      rw [abs_of_neg (of_decide_eq_true hneg)]
      ring
    case isFalse hpos => rw [abs_of_nonneg (by simpa using hpos)]

theorem multiple_lt_threshold {m g : Nat} (hm : m ≤ 2 ^ 24) (hg : g ≤ 252) : m * 2 ^ g < (2 ^ 128 - 2 ^ 103) * 2 ^ 149 :=
  (Nat.mul_le_mul hm (Nat.pow_le_pow_right (by decide) hg)).trans_lt (by decide)

theorem roundedUnits_multiple {m g : Nat} (hm : m ≤ 2 ^ 24) (hg : g ≤ 252) : roundedUnits (m * 2 ^ g) 0 = m * 2 ^ g := by
  have hlt := multiple_lt_threshold hm hg
  exact (FloatVal.fin.inj ((f32Val_roundRne32 false hlt).symm.trans (roundRne32_exact false hm (Nat.zero_le g) hlt))).2

theorem fadd32_exact {g : Nat} {a b : Word} {i j : Int} (hg : g ≤ 252) (ha : IsExactly g a i) (hb : IsMultiple g b j)
    (hij : (i + j).natAbs ≤ 2 ^ 24) : IsExactly g (fadd32 a b) (i + j) := by
  obtain ⟨neg, hval, hneg⟩ := hb
  have hsum : signedUnits (decide (i < 0)) (i.natAbs * 2 ^ g) + signedUnits neg (j.natAbs * 2 ^ g) = (i + j) * 2 ^ g := by
    rw [signedUnits_multiple (fun _ => rfl), signedUnits_multiple hneg, Int.add_mul]
  have habs : ((i + j) * 2 ^ g).natAbs = (i + j).natAbs * 2 ^ g := by rw [Int.natAbs_mul, Int.natAbs_pow]; rfl
  have hadd := f32Val_fadd32_fin ha.ne_negZero ha hval
  rw [hsum, habs, roundedUnits_multiple hij hg] at hadd
  have hsign : (i + j) * 2 ^ g < 0 ↔ i + j < 0 := by simp [mul_neg_iff]
  rw [IsExactly, hadd (multiple_lt_threshold hij hg), decide_eq_decide.2 hsign]

theorem fadd32_exact_sum {g : Nat} {is js : Multiset Int} {t c : Word} (hg : g ≤ 252)
    (hle : ((is + js).map Int.natAbs).sum ≤ 2 ^ 24) (ht : (is.map Int.natAbs).sum ≤ 2 ^ 24 → IsExactly g t is.sum)
    (hc : (js.map Int.natAbs).sum ≤ 2 ^ 24 → IsMultiple g c js.sum) : IsExactly g (fadd32 t c) (is + js).sum := by
  have hsum := (Multiset.le_sum_of_subadditive Int.natAbs Int.natAbs_zero.le Int.natAbs_add_le (is + js)).trans hle
  rw [Multiset.map_add, Multiset.sum_add] at hle
  rw [Multiset.sum_add] at hsum ⊢
  exact fadd32_exact hg (ht (by omega)) (hc (by omega)) hsum

/-- Where the magnitudes add up to 24 bits at most, no addition on the way rounds. -/
theorem TotalOf.isExactly {g d : Nat} {m : Multiset Word} {t : Word} (hg : g ≤ 252) (h : TotalOf {plusZero} d m t)
    {is : Multiset Int} (hrel : Multiset.Rel (IsMultiple g) m is) (hle : (is.map Int.natAbs).sum ≤ 2 ^ 24) :
    IsExactly g t is.sum := by
  induction h generalizing is with
  | start ht =>
    rw [Multiset.rel_zero_left.1 hrel, ht, IsExactly, f32Val_plusZero]
    simp
  | add _ c ih =>
    obtain ⟨is', js, ht, hrelc, rfl⟩ := Multiset.rel_add_left.1 hrel
    obtain ⟨j, _, hc, hnil, rfl⟩ := Multiset.rel_cons_left.1 hrelc
    obtain rfl := Multiset.rel_zero_left.1 hnil
    exact fadd32_exact_sum hg hle (ih ht) fun _ => (Multiset.sum_singleton j).symm ▸ hc
  | merge _ _ ih ih' =>
    obtain ⟨is', js, ht, ht', rfl⟩ := Multiset.rel_add_left.1 hrel
    exact fadd32_exact_sum hg hle (ih ht) fun hle' => (ih' ht' hle').isMultiple

theorem rel_coe_of_forall₂ {R : Word → Int → Prop} {cs : List Word} {is : List Int} (h : List.Forall₂ R cs is) :
    Multiset.Rel R cs is := by
  induction h with
  | nil => exact .zero
  | cons hc _ ih => exact .cons hc ih

/-- Settles O20: `TotalOf.isExactly` on the reduction's total. -/
theorem exactSumsAgreeInEveryMode : Obligations.ExactSumsAgreeInEveryMode := by
  intro mode g cs is hg hle hall
  have htotal := reduceWith_totalOf (Set.mem_singleton plusZero) mode cs
  have hexact := htotal.isExactly hg (rel_coe_of_forall₂ hall) (by simpa using hle)
  rwa [Multiset.sum_coe] at hexact

/-! ## Zero inputs (R213) -/

theorem blockSum_of_zeroPoint_weights {B : Nat → Byte} {w : Nat} (h : ∀ j < 16, B (w + 2 + j) = 0x88) (a : Nat) :
    blockSum B w a = 0 := by
  rw [(integerSumPairing B w a).1]
  refine Finset.sum_eq_zero fun j hj => ?_
  rw [h j (Finset.mem_range.1 hj)]
  simp

theorem blockSum_of_zero_activations {B : Nat → Byte} {a : Nat} (h : ∀ i < 32, B (a + 2 + i) = 0x00) (w : Nat) :
    blockSum B w a = 0 := by
  rw [blockSum_eq_sum_elements]
  refine Finset.sum_eq_zero fun i hi => ?_
  rw [activationElem, h i (Finset.mem_range.1 hi)]
  simp

theorem nonfinite_cases {h : Half} (hnot : ¬ FiniteHalf h) : f16Val h = .nan ∨ ∃ neg, f16Val h = .inf neg := by
  cases hval : f16Val h with
  | nan => exact .inl rfl
  | inf neg => exact .inr ⟨neg, rfl⟩
  | fin neg u => exact absurd ⟨neg, u, hval⟩ hnot

theorem f32Val_fmul32_of_nonfinite_scale {h : Half} (hnot : ¬ FiniteHalf h) (b : Word) :
    f32Val (fmul32 (decodeScale h) b) = .nan ∨ ∃ neg, f32Val (fmul32 (decodeScale h) b) = .inf neg := by
  rcases nonfinite_cases hnot with hnan | ⟨neg, hinf⟩
  · exact .inl (by rw [fmul32_of_nan (.inl (f32Val_decodeScale_nan hnan)), f32Val_canonNan])
  · exact f32Val_fmul32_of_inf (f32Val_decodeScale_inf hinf) b

section

variable {B : Nat → Byte} {w a : Nat}

theorem f32Val_scaleProduct_of_nonfinite (h : ¬ FiniteHalf (blockScale B w) ∨ ¬ FiniteHalf (blockScale B a)) :
    f32Val (scaleProduct B w a) = .nan ∨ ∃ neg, f32Val (scaleProduct B w a) = .inf neg := by
  rcases h with hw | ha
  · exact f32Val_fmul32_of_nonfinite_scale hw _
  · rw [scaleProduct, fmul32_comm]
    exact f32Val_fmul32_of_nonfinite_scale ha _

theorem blockContribution_of_nonfinite (h : ¬ FiniteHalf (blockScale B w) ∨ ¬ FiniteHalf (blockScale B a)) :
    blockContribution B w a = canonNan ∨ blockSum B w a ≠ 0 ∧ ∃ neg, blockContribution B w a = infinity neg := by
  rcases f32Val_scaleProduct_of_nonfinite h with hnan | ⟨neg, hinf⟩
  · exact .inl (blockContribution_of_nan_product hnan)
  · rw [blockContribution_of_infinite_product hinf]
    by_cases hsum : blockSum B w a = 0
    · exact .inl (if_pos hsum)
    · exact .inr ⟨hsum, _, if_neg hsum⟩

end

/-! ## NaN, infinities and the magnitude of a finite result (R212) -/

/-- A finite contribution is below 2^47 (R188). -/
def SmallIfFinite (c : Word) : Prop := ∀ neg u, f32Val c = .fin neg u → u < 2 ^ (47 + 149)

/-- What holds of a total of `m` merged at most `d` deep: it is at an infinity exactly where a contribution is, and if finite
at most 2^(71 + d), since adding less than 2^47 to 2^71 is less than half a unit and rounds back. -/
structure BoundedTotal (d : Nat) (m : Multiset Word) (t : Word) : Prop where
  atInfinity : ∀ neg, AtInfinity neg t ↔ ∃ c ∈ m, AtInfinity neg c
  units : ∀ neg u, f32Val t = .fin neg u → u ≤ 2 ^ (71 + 149 + d)

theorem fadd32_le_pow {a b : Word} {s t : Bool} {x y e : Nat} (hne : a ≠ signedZero true) (ha : f32Val a = .fin s x)
    (hb : f32Val b = .fin t y) (he : e ≤ 253) (hxy : 2 * (x + y) < 2 * 2 ^ (23 + e) + 2 ^ e) :
    ∃ neg u, f32Val (fadd32 a b) = .fin neg u ∧ u ≤ 2 ^ (23 + e) := by
  have hle : (signedUnits s x + signedUnits t y).natAbs ≤ x + y := by
    simpa only [natAbs_signedUnits] using Int.natAbs_add_le (signedUnits s x) (signedUnits t y)
  have hpow : 2 ^ e ≤ 2 ^ 253 := Nat.pow_le_pow_right (by decide) he
  have hlt : (signedUnits s x + signedUnits t y).natAbs < (2 ^ 128 - 2 ^ 103) * 2 ^ 149 := by
    rw [Nat.pow_add] at hxy
    omega
  exact ⟨_, _, f32Val_fadd32_fin hne ha hb hlt, roundedUnits_le_pow (by omega)⟩

/-- A sum keeps the bound of its first operand's total where it is less than half a unit above it. -/
theorem boundedTotal_fadd32 {d : Nat} {m m' : Multiset Word} {t t' : Word} (hd : d ≤ 56) (hne : t ≠ signedZero true)
    (ht : ∀ neg, AtInfinity neg t ↔ ∃ c ∈ m, AtInfinity neg c) (ht' : ∀ neg, AtInfinity neg t' ↔ ∃ c ∈ m', AtInfinity neg c)
    (hsmall : ∀ s x s' y, f32Val t = .fin s x → f32Val t' = .fin s' y →
      2 * (x + y) < 2 * 2 ^ (71 + 149 + d) + 2 ^ (48 + 149 + d)) :
    BoundedTotal d (m + m') (fadd32 t t') := by
  have hfin (s : Bool) (x : Nat) (s' : Bool) (y : Nat) (hx : f32Val t = .fin s x) (hy : f32Val t' = .fin s' y) :
      ∃ neg u, f32Val (fadd32 t t') = .fin neg u ∧ u ≤ 2 ^ (71 + 149 + d) := by
    have hexp : 71 + 149 + d = 23 + (48 + 149 + d) := by omega
    have := hsmall s x s' y hx hy
    rw [hexp] at this ⊢
    exact fadd32_le_pow hne hx hy (by omega) this
  refine ⟨fun neg => ?_, fun neg u hu => ?_⟩
  · rw [atInfinity_fadd32 (fun s x s' y hx hy => (hfin s x s' y hx hy).imp fun _ ⟨u, hu, _⟩ => ⟨u, hu⟩), ht, ht']
    simp only [Multiset.mem_add, or_and_right, exists_or]
  · rcases fadd32_cases t t' with ⟨heq, -⟩ | ⟨s, heq, -⟩ | ⟨s, x, s', y, hx, hy⟩
    · rw [heq, f32Val_canonNan] at hu
      cases hu
    · rw [heq, f32Val_infinity] at hu
      cases hu
    · obtain ⟨neg', u', hu', hle⟩ := hfin s x s' y hx hy
      rw [hu'] at hu
      cases hu
      exact hle

theorem TotalOf.bounded {d : Nat} {m : Multiset Word} {t : Word} (h : TotalOf {plusZero} d m t) (hd : d ≤ 56)
    (hm : ∀ c ∈ m, SmallIfFinite c) : BoundedTotal d m t := by
  have hne {d : Nat} {m : Multiset Word} {t : Word} : TotalOf {plusZero} d m t → t ≠ signedZero true :=
    TotalOf.ne_negZero fun _ ht => ht ▸ plusZero_ne_negZero
  induction h with
  | start ht =>
    rw [ht]
    refine ⟨fun neg => ?_, fun neg u hu => ?_⟩
    · simp [not_atInfinity_of_fin f32Val_plusZero]
    · rw [f32Val_plusZero] at hu
      cases hu
      exact Nat.zero_le _
  | @add d _ _ h c ih =>
    have hc := hm c (by simp)
    have ih := ih hd fun c hc => hm c (Multiset.mem_add.2 (.inl hc))
    refine boundedTotal_fadd32 hd (hne h) ih.atInfinity (by simp) fun s x s' y hx hy => ?_
    have hle := ih.units s x hx
    have hlt := hc s' y hy
    have hpow : 2 ^ (48 + 149) ≤ 2 ^ (48 + 149 + d) := Nat.pow_le_pow_right (by decide) (by omega)
    omega
  | @merge d _ _ _ _ h h' ih ih' =>
    have ih := ih (by omega) fun c hc => hm c (Multiset.mem_add.2 (.inl hc))
    have ih' := ih' (by omega) fun c hc => hm c (Multiset.mem_add.2 (.inr hc))
    refine boundedTotal_fadd32 hd (hne h) ih.atInfinity ih'.atInfinity fun s x s' y hx hy => ?_
    have hle := ih.units s x hx
    have hle' := ih'.units s' y hy
    have hpos := Nat.two_pow_pos (48 + 149 + (d + 1))
    rw [← Nat.add_assoc (71 + 149), Nat.pow_succ 2 (71 + 149 + d)]
    omega

theorem TotalOf.eq_canonNan {d : Nat} {m : Multiset Word} {t : Word} (h : TotalOf {plusZero} d m t) (hnan : f32Val t = .nan) :
    t = canonNan := by
  cases h with
  | start ht =>
    rw [ht, f32Val_plusZero] at hnan
    cases hnan
  | add _ c => exact fadd32_eq_canonNan_of_nan hnan
  | merge _ _ => exact fadd32_eq_canonNan_of_nan hnan

theorem blockContribution_small (B : Nat → Byte) (w a : Nat) : SmallIfFinite (blockContribution B w a) := by
  intro neg u hu
  by_cases hfinite : FiniteHalf (blockScale B w) ∧ FiniteHalf (blockScale B a)
  · obtain ⟨⟨s, x, hx⟩, t, y, hy⟩ := hfinite
    obtain ⟨u', hu', hle, -⟩ := f32Val_blockContribution hx hy
    rw [hu'] at hu
    cases hu
    exact hle.trans_lt (by decide)
  · rcases blockContribution_of_nonfinite (not_and_or.1 hfinite) with heq | ⟨-, s, heq⟩ <;> rw [heq] at hu
    · rw [f32Val_canonNan] at hu
      cases hu
    · rw [f32Val_infinity] at hu
      cases hu

theorem totalOf_dotResult (mode : Mode) (nb : Nat) (B : Nat → Byte) (wb ab : Nat) :
    TotalOf {plusZero} 3 (contributions B wb ab nb) (dotResult mode nb B wb ab) :=
  reduceWith_totalOf (Set.mem_singleton plusZero) mode _

theorem mem_contributions {B : Nat → Byte} {wb ab nb : Nat} {c : Word} :
    c ∈ contributions B wb ab nb ↔ ∃ k < nb, blockContribution B (weightBlock wb k) (activationBlock ab k) = c := by
  simp [contributions]

theorem boundedTotal_dotResult (mode : Mode) (nb : Nat) (B : Nat → Byte) (wb ab : Nat) :
    BoundedTotal 3 (contributions B wb ab nb) (dotResult mode nb B wb ab) := by
  refine (totalOf_dotResult mode nb B wb ab).bounded (by decide) fun c hc => ?_
  obtain ⟨k, -, rfl⟩ := mem_contributions.1 (Multiset.mem_coe.1 hc)
  exact blockContribution_small _ _ _

theorem dotResult_eq_canonNan {mode : Mode} {nb : Nat} {B : Nat → Byte} {wb ab : Nat}
    (h : ∀ neg, ∃ c ∈ contributions B wb ab nb, AtInfinity neg c) : dotResult mode nb B wb ab = canonNan :=
  (totalOf_dotResult mode nb B wb ab).eq_canonNan
    (f32Val_eq_nan_of_atInfinity fun neg => ((boundedTotal_dotResult mode nb B wb ab).atInfinity neg).2 (h neg))

/-- Settles O18: the result is at an infinity exactly where a contribution is, and a total at both is the canonical NaN. -/
theorem nonFiniteDotResults : Obligations.NonFiniteDotResults := by
  intro mode nb B wb ab
  obtain ⟨hiff, hunits⟩ := boundedTotal_dotResult mode nb B wb ab
  simp only [Multiset.mem_coe] at hiff
  refine ⟨fun ⟨c, hc, hnan⟩ => dotResult_eq_canonNan fun _ => ⟨c, hc, .inl hnan⟩,
    fun hnan => ⟨fun ⟨c, hc, hpos⟩ ⟨c', hc', hneg⟩ => dotResult_eq_canonNan fun neg => ?_,
      fun neg ⟨c, hc, hinf⟩ hother => ?_, fun hfin => ?_⟩⟩
  · cases neg with
    | false => exact ⟨c, hc, .inr hpos⟩
    | true => exact ⟨c', hc', .inr hneg⟩
  · refine eq_infinity_of_atInfinity ((hiff neg).2 ⟨c, hc, .inr hinf⟩) fun hboth => ?_
    obtain ⟨c', hc', h⟩ := (hiff (!neg)).1 hboth
    exact h.elim (hnan c' hc') (hother c' hc')
  · obtain ⟨neg, u, hu⟩ := exists_fin_of_not_atInfinity (x := dotResult mode nb B wb ab) fun neg h => by
      obtain ⟨c, hc, h⟩ := (hiff neg).1 h
      exact h.elim (hnan c hc) (hfin c hc neg)
    exact ⟨neg, u, hu, (hunits neg u hu).trans (Nat.pow_le_pow_right (by decide) (by decide))⟩

/-! ## Zero inputs give `+0` (R213) -/

/-- Settles O19: every integer sum is 0, so a contribution is a zero with finite scales and `CANON_NAN` with others. -/
theorem zeroInputsGiveZero : Obligations.ZeroInputsGiveZero := by
  intro mode nb B wb ab hinputs
  have hsum (k : Nat) (hk : k < nb) : blockSum B (weightBlock wb k) (activationBlock ab k) = 0 := by
    rcases hinputs with hweights | hactivations
    · exact blockSum_of_zeroPoint_weights (hweights k hk) _
    · exact blockSum_of_zero_activations (hactivations k hk) _
  refine ⟨fun hfinite => ?_, fun ⟨k, hk, hnot⟩ => dotResult_eq_canonNan fun neg => ?_⟩
  · have hzero : List.Forall₂ (IsMultiple 0) (contributions B wb ab nb) ((List.range nb).map fun _ => 0) := by
      rw [contributions, List.forall₂_map_left_iff, List.forall₂_map_right_iff, List.forall₂_same]
      intro k hk
      obtain ⟨⟨s, x, hx⟩, t, y, hy⟩ := hfinite k (List.mem_range.1 hk)
      obtain ⟨u, hu, -, -, hu0⟩ := f32Val_blockContribution hx hy
      rw [hu0.2 (.inl (hsum k (List.mem_range.1 hk)))] at hu
      exact ⟨_, hu, absurd rfl⟩
    have hexact := exactSumsAgreeInEveryMode mode 0 _ _ (by decide) (by simp) hzero
    exact eq_of_f32Val_fin (hexact.trans (by simp)) f32Val_plusZero
  · have hnan : blockContribution B (weightBlock wb k) (activationBlock ab k) = canonNan :=
      (blockContribution_of_nonfinite hnot).resolve_right fun h => h.1 (hsum k hk)
    exact ⟨_, mem_contributions.2 ⟨k, hk, hnan⟩, atInfinity_canonNan neg⟩

end Sys2Proof.Machine

/-! # Proofs: NOP and CLR, and what a command leaves alone (44_control_commands) -/

namespace Sys2Proof.Machine

/-! ## What every command leaves alone (R81, R134, R145, R242) -/

/-- No form of a command writes CTRL, N, WADDR, AADDR or anything outside the device. -/
theorem commandOutcome_frame {s t : State} (h : CommandOutcome s t) : OperandsKept s t ∧ SurroundingsKept s t := by
  cases h <;> exact ⟨⟨rfl, rfl, rfl, rfl⟩, ⟨fun _ => rfl, rfl, rfl, rfl, rfl, rfl, rfl⟩⟩

theorem exec_frame {i : Instr} {s t : State} (h : exec i s = .next t) : OperandsKept s t ∧ SurroundingsKept s t :=
  commandOutcome_frame (exec_outcome h)

/-- The engine latches its mode, count and bases only where a command starts it on an idle device (R140). -/
theorem commandOutcome_latches {s t : State} (h : CommandOutcome s t) (hb : s.busy = true ∨ t.busy = false) :
    t.eng.mode = s.eng.mode ∧ t.eng.nb = s.eng.nb ∧ t.eng.wbase = s.eng.wbase ∧ t.eng.abase = s.eng.abase := by
  cases h with
  | ignored | completed | failed => exact ⟨rfl, rfl, rfl, rfl⟩
  | started idle => simp [idle] at hb

/-! ## IGN after a command (R134, R233) -/

/-- The write of a command whose own effect keeps IGN sets it where BUSY is 1 and keeps it elsewhere. -/
theorem commandWrite_ign {body : State → Host.Outcome State Fault Refusal} {s t : State}
    (hbody : ∀ s t, body s = .next t → t.ign = s.ign) (h : commandWrite body s = .next t) : t.ign = (s.ign || s.busy) := by
  rcases commandWrite_next.1 h with ⟨hb, rfl⟩ | ⟨hb, h⟩
  · rw [hb, Bool.or_true, setIgnored_ign]
  · rw [hb, Bool.or_false, hbody _ _ h, clearOutcome_ign]

theorem completing_ign {f : State → Word} {s t : State} (h : commandWrite (fun s => .next (complete (f s) s)) s = .next t) :
    t.ign = (s.ign || s.busy) :=
  commandWrite_ign (fun _ _ h => by rw [← next_eq_next.1 h, complete_ign]) h

theorem launch_ign {op : EngOp} {mode : Mode} {nb : Word} {s t : State} (h : launch op mode nb s = .next t) :
    t.ign = s.ign := by
  rcases launch_next.1 h with ⟨-, rfl⟩ | ⟨-, -, rfl⟩ <;> rfl

theorem startDot_ign {mode : Mode} {s t : State} (h : startDot mode s = .next t) : t.ign = s.ign := by
  rcases startDot_next.1 h with ⟨-, rfl⟩ | ⟨-, h⟩
  · rfl
  · exact launch_ign h

theorem exec_ign {i : Instr} (hi : i ≠ .clr) {s t : State} (h : exec i s = .next t) : t.ign = (s.ign || s.busy) := by
  cases i with
  | nop => exact completing_ign (f := State.result) h
  | cvth b => exact completing_ign (f := fun _ => decodeScale b) h
  | nibd b => exact completing_ign (f := fun _ => nibbleWord b) h
  | dotPair2 | dotQuad4 | dotSeq => exact commandWrite_ign (fun _ _ => startDot_ign) h
  | isum => exact commandWrite_ign (fun _ _ => launch_ign) h
  | clr => exact absurd rfl hi

/-- Settles O33: the frame and the latched fields follow from the four forms of `CommandOutcome`, RESULT and IGN from the
command. -/
theorem commandFrame : Obligations.CommandFrame := by
  intro i s t h
  obtain ⟨hops, hsur⟩ := exec_frame h
  refine ⟨hops, hsur, fun hi => exec_result hi h, fun hi hidle => ?_, commandOutcome_latches (exec_outcome h)⟩
  rw [exec_ign hi h, hidle, Bool.or_false]

/-! ## NOP and CLR complete in their own write (R230, R232) -/

theorem exec_nop_idle {s : State} (hidle : s.busy = false) :
    exec .nop s = .next (complete s.result (clearOutcome s)) := by
  rw [exec_nop, commandWrite_idle hidle, clearOutcome_result]

theorem exec_clr_idle {s : State} (hidle : s.busy = false) :
    exec .clr s = .next (complete 0 { clearOutcome s with ign := false }) := by
  rw [exec_clr, commandWrite_idle hidle]

/-- Settles O22: NOP is one `complete` with the RESULT it finds. -/
theorem nopCompletes : Obligations.NopCompletes := by
  intro s hidle
  obtain ⟨hign, hops, hsur⟩ := complete_frame s.result s
  exact ⟨_, exec_nop_idle hidle, complete_ends rfl rfl _, hign, hops, hsur⟩

/-- Settles O23: CLR is one `complete` with 0 after IGN is cleared. -/
theorem clrCompletes : Obligations.ClrCompletes := by
  intro s hidle
  have hexec := exec_clr_idle hidle
  exact ⟨_, hexec, complete_ends rfl rfl _, rfl, exec_frame hexec⟩

/-! ## What clears IGN (R233, R41) -/

theorem exec_clears_ign {i : Instr} {s t : State} (h : exec i s = .next t) (hs : s.ign = true) (ht : t.ign = false) :
    i = .clr ∧ s.busy = false := by
  constructor
  · by_contra hi
    simp [exec_ign hi h, hs] at ht
  · by_contra hb
    rw [exec_while_busy (by simpa using hb), next_eq_next] at h
    simp [← h] at ht

theorem writeOutcome_clears_ign {offset : Nat} {v : Word} {s t : State} (h : WriteOutcome offset v s t) (hs : s.ign = true)
    (ht : t.ign = false) : offset = 0x0C ∧ v.getLsbD 3 = true := by
  cases h with
  | status ho => exact ⟨ho, by simpa [hs] using ht⟩
  | nothing | ctrl | n | waddr | aaddr => exact absurd (hs.symm.trans ht) nofun
  | ignored => nomatch ht

theorem storeByte_ign (s : State) (a : Nat) (v : Byte) : (storeByte s a v).ign = s.ign := by rw [storeByte_frame]

theorem cleanByte_ign (s : State) (a : Nat) : (cleanByte s a).ign = s.ign := by
  rcases cleanByte_cases s a with h | h | ⟨v, st, -, -, h⟩ <;> rw [h]

theorem step_clears_ign {s t : State} (h : StepOutcome s t) (hs : s.ign = true) (ht : t.ign = false) :
    (∃ v rest, s.inputs = .hostWrite 32 0x0C v :: rest ∧ v.getLsbD 3 = true) ∨
      (∃ rest, s.inputs = .hostWrite 32 0x10 (encode .clr) :: rest ∧ s.busy = false) ∨
      (∃ rest, s.inputs = .reset :: rest) := by
  have hkept (h : t.ign = s.ign) : False := by simp [h, hs] at ht
  cases h with
  | register hi hx =>
    obtain ⟨rfl, hv⟩ := writeOutcome_clears_ign hx hs ht
    exact .inl ⟨_, _, hi, hv⟩
  | command hi hd hx =>
    obtain ⟨rfl, hidle⟩ := exec_clears_ign hx hs ht
    exact .inr (.inl ⟨_, encode_of_decode hd ▸ hi, hidle⟩)
  | reset hi => exact .inr (.inr ⟨_, hi⟩)
  | engine _ _ _ _ _ hx => exact (hkept (engineStep_frame hx).1).elim
  | store => exact (hkept (storeByte_ign _ _ _)).elim
  | clean => exact (hkept (cleanByte_ign _ _)).elim
  | rest | read | illegal => exact (hkept rfl).elim
  | illegalIgnored => nomatch ht

theorem hostWrite_clr_idle {s : State} (hidle : s.busy = false) :
    hostWrite 32 0x10 (encode .clr) s = .next (complete 0 { clearOutcome s with ign := false }) := by
  rw [hostWrite_cmd, writeCmd_ok (decode_encode .clr), exec_clr_idle hidle]

/-- Settles O55: `step_clears_ign` gives the three events, and each does clear IGN. -/
theorem ignIsSticky : Obligations.IgnIsSticky := by
  refine ⟨fun s t hstep => step_clears_ign (step_outcome hstep), fun s v hv => ?_,
    fun s hidle => ⟨_, hostWrite_clr_idle hidle, rfl⟩, fun s => rfl⟩
  rw [writeStatus_ign, hv, Bool.not_true, Bool.and_false]

end Sys2Proof.Machine

/-! # Proofs: how a command ends in error, and the idle engine (60_exceptions) -/

namespace Sys2Proof.Machine

/-! ## The engine while BUSY is 0 (R258) -/

/-- Settles O43: both are the idle branch, of the engine's turn and of the step without an event. -/
theorem idleEngineTakesNoStep : Obligations.IdleEngineTakesNoStep := fun _ hidle =>
  ⟨fun _ _ => engineStep_next.2 (.inl ⟨hidle, rfl⟩), fun hi => (step_nil hi).trans (unscheduledStep_idle hidle)⟩

/-! ## Errors at acceptance (R242, R245, R246, R248) -/

theorem raiseError_at_acceptance (c : ErrCode) (s : State) :
    EndedInError (errCodeBits c) s (raiseError c (clearOutcome s)) ∧ (raiseError c (clearOutcome s)).ign = s.ign ∧
      OperandsKept s (raiseError c (clearOutcome s)) ∧ SurroundingsKept s (raiseError c (clearOutcome s)) :=
  ⟨raiseError_endedInError c s, rfl, raiseError_operandsKept c s, raiseError_surroundingsKept c s⟩

theorem startDot_badLength {mode : Mode} {s : State} (h : lengthLegal s.n = false) :
    startDot mode s = .next (raiseError .badLength s) := startDot_next.2 (.inl ⟨h, rfl⟩)

theorem launch_outOfRange {op : EngOp} {mode : Mode} {nb : Word} {s : State} (h : ¬ RangesInSpace s nb.toNat) :
    launch op mode nb s = .next (raiseError .range s) := by
  rw [← rangesFit_iff, Bool.not_eq_true] at h
  exact launch_next.2 (.inl ⟨h, rfl⟩)

/-- An accepted launch records no code but RANGE: a started engine has the cleared one. -/
theorem launch_errcode {op : EngOp} {mode : Mode} {nb : Word} {s t : State}
    (h : launch op mode nb (clearOutcome s) = .next t) : t.errcode = errCodeBits .range ∨ t.errcode = 0 := by
  rcases launch_next.1 h with ⟨-, rfl⟩ | ⟨-, -, rfl⟩
  · exact .inl rfl
  · exact .inr rfl

/-- Settles O28: the length check of `startDot` comes before the ranges are looked at, and ISUM is a `launch` alone. -/
theorem dotBadLength : Obligations.DotBadLength := by
  refine ⟨fun s hidle hn c hc => ⟨_, ?_, raiseError_at_acceptance .badLength s⟩, fun s t hidle h => ?_⟩
  · calc exec c.1 s
      _ = startDot c.2 (clearOutcome s) := (exec_dot hc s).trans (commandWrite_idle hidle)
      _ = .next (raiseError .badLength (clearOutcome s)) := startDot_badLength (lengthLegal_false hn)
  · rw [exec_isum, commandWrite_idle hidle] at h
    rcases launch_errcode h with hcode | hcode <;> rw [hcode] <;> decide

/-- Settles O29: both commands reach `launch` with the block count of the premises, and `launch_outOfRange` answers. -/
theorem rangeError : Obligations.RangeError := by
  refine ⟨fun s nb hidle hcount hfit c hc => ⟨_, ?_, raiseError_at_acceptance .range s⟩,
    fun s hidle hfit => ⟨_, ?_, raiseError_at_acceptance .range s⟩⟩
  · obtain ⟨hlegal, rfl⟩ := legalCount_spec hcount
    calc exec c.1 s
      _ = startDot c.2 (clearOutcome s) := (exec_dot hc s).trans (commandWrite_idle hidle)
      _ = launch .dot c.2 (blockCount s.n) (clearOutcome s) := startDot_of_lengthLegal hlegal
      _ = .next (raiseError .range (clearOutcome s)) := launch_outOfRange hfit
  · calc exec .isum s
      _ = launch .isum s.eng.mode 1 (clearOutcome s) := (exec_isum s).trans (commandWrite_idle hidle)
      _ = .next (raiseError .range (clearOutcome s)) := launch_outOfRange hfit

/-! ## What a run of the engine alone leaves unchanged (R81, R134, R242) -/

/-- IGN, the operands and the bus are those of `s`. -/
structure RunFrame (s t : State) : Prop where
  ign : t.ign = s.ign
  operands : OperandsKept s t
  bus : BusKept s t

theorem RunFrame.agenda {s t : State} (h : RunFrame s t) (es : List Event) (k : Nat) :
    RunFrame s { t with inputs := es, draws := k } :=
  ⟨h.ign, h.operands.trans ⟨rfl, rfl, rfl, rfl⟩, h.bus.trans ⟨rfl, rfl⟩⟩

theorem RunFrame.turn {s t u : State} (h : RunFrame s t) (hu : EngineOutcome t u) : RunFrame s u := by
  obtain ⟨hign, hops, -⟩ := engineOutcome_frame hu
  exact ⟨hign.trans h.ign, h.operands.trans hops, h.bus.trans (engineOutcome_busKept hu)⟩

/-- Whatever a run of the engine alone keeps, it keeps together with the frame. -/
theorem KeptByEngine.and_frame {P : State → Prop} (hP : KeptByEngine P) (s : State) :
    KeptByEngine fun t => P t ∧ RunFrame s t where
  agenda t es k := fun ⟨hp, hf⟩ => ⟨hP.agenda t es k hp, hf.agenda es k⟩
  turn t u pick draw := fun ⟨hp, hf⟩ hu => ⟨hP.turn t u pick draw hp hu, hf.turn (engineStep_outcome hu)⟩
  hasOp t := fun ⟨hp, _⟩ => hP.hasOp t hp

/-! ## A run that meets a byte the platform does not admit (R82, R142, R244) -/

/-- A command is in progress that cannot complete without error: a read has failed, or a byte whose read will fail is
still pending. RESULT is that of `s`. -/
structure BusErrorAhead (s t : State) : Prop where
  busy : t.busy = true
  hasOp : t.eng.op ≠ .none
  done : t.done = false
  result : t.result = s.result
  fails : t.eng.berr = true ∨ ∃ a ∈ t.eng.pending, memAdmit t.platform a = false

/-- A read that succeeds took another byte than the one that fails, and the engine does not complete while that one is
pending. -/
theorem BusErrorAhead.turn {s t u : State} (h : BusErrorAhead s t) (hu : EngineOutcome t u) :
    BusErrorAhead s u ∨ EndedInError 4 s u := by
  cases hu with
  | idle hidle => exact absurd (h.busy.symm.trans hidle) nofun
  | busError => exact .inr ⟨h.result, rfl, h.done, rfl, rfl, engineIdle_atRest _⟩
  | done _ he hp => exact absurd h.fails (by simp [he, hp])
  | read _ he _ a _ hm =>
    obtain ⟨b, hb, hnot⟩ := h.fails.resolve_left (by simp [he])
    have hba : b ≠ a := by
      rintro rfl
      exact absurd (hm.symm.trans hnot) nofun
    exact .inl ⟨h.busy, h.hasOp, h.done, h.result, .inr ⟨b, (List.mem_erase_of_ne hba).2 hb, hnot⟩⟩
  | readFails => exact .inl ⟨h.busy, h.hasOp, h.done, h.result, .inl rfl⟩

theorem EndedInError.turn {code : BitVec 4} {s t u : State} (h : EndedInError code s t) (hu : EngineOutcome t u) :
    EndedInError code s u := by
  cases hu with
  | idle => exact h
  | busError hb | done hb | read hb | readFails hb => exact absurd (h.busy.symm.trans hb) nofun

theorem busErrorAhead_keptByEngine (s : State) : KeptByEngine fun t => BusErrorAhead s t ∨ EndedInError 4 s t where
  agenda _ _ _ h := h.imp (fun ha => ⟨ha.busy, ha.hasOp, ha.done, ha.result, ha.fails⟩)
    fun he => ⟨he.result, he.busy, he.done, he.err, he.errcode, he.engine⟩
  turn _ _ _ _ h hu := h.elim (·.turn (engineStep_outcome hu)) fun he => .inr (he.turn (engineStep_outcome hu))
  hasOp _ h hb := h.elim (·.hasOp) fun he => absurd (he.busy.symm.trans hb) nofun

theorem startEngine_busErrorAhead {op : EngOp} {nb : Word} {s : State} (hop : op ≠ .none)
    (hnot : ¬ InputAdmitted s nb.toNat) (mode : Mode) : BusErrorAhead s (startEngine op mode nb (clearOutcome s)) := by
  simp only [InputAdmitted, not_forall, Bool.not_eq_true] at hnot
  obtain ⟨a, hin, ha⟩ := hnot
  exact ⟨rfl, hop, rfl, rfl, .inr ⟨a, mem_inputAddresses.2 hin, ha⟩⟩

/-- The engine started over an input byte that is not admitted ends its command with BUS_ERROR. -/
theorem startEngine_ends_in_busError {op : EngOp} {mode : Mode} {nb : Word} {s : State} (hop : op ≠ .none)
    (hnot : ¬ InputAdmitted s nb.toNat) (honly : OnlyEngineTurns s) {k : Nat}
    (hk : (startEngine op mode nb (clearOutcome s)).eng.pending.length < k) :
    ∃ u, Host.Core.run Sys2Proof.core k (startEngine op mode nb (clearOutcome s)) = .next u ∧ EndedInError 4 s u ∧
      u.ign = s.ign ∧ OperandsKept s u ∧ ∀ a, memRead u.mem a = memRead s.mem a := by
  have hframe : RunFrame s (startEngine op mode nb (clearOutcome s)) := ⟨rfl, ⟨rfl, rfl, rfl, rfl⟩, ⟨rfl, rfl⟩⟩
  obtain ⟨u, hrun, ⟨hu, hkept⟩, hidle⟩ := ((busErrorAhead_keptByEngine s).and_frame s).run k
    ⟨.inl (startEngine_busErrorAhead hop hnot mode), hframe⟩ honly
  have hbusy : u.busy = false := hidle ((turnsLeft_le _).trans hk)
  have hended : EndedInError 4 s u := hu.resolve_left fun ha => absurd (ha.busy.symm.trans hbusy) nofun
  exact ⟨u, hrun, hended, hkept.ign, hkept.operands, fun a => by rw [hkept.bus.mem]⟩

/-- Settles O60: each turn keeps the error ahead until the last one records it. -/
theorem unadmittedInputEndsInBusError : Obligations.UnadmittedInputEndsInBusError := by
  refine ⟨fun s nb hidle hcount hfit hside hnot honly c hc => ?_, fun s hidle hfit hside hnot honly => ?_⟩
  · have hexec := exec_dot_starts hidle hcount hfit hside hc
    obtain ⟨-, rfl⟩ := legalCount_spec hcount
    exact ⟨_, hexec, fun k hk => startEngine_ends_in_busError (by decide) hnot honly hk⟩
  · exact ⟨_, exec_isum_starts hidle hfit hside, fun k hk => startEngine_ends_in_busError (by decide) hnot honly hk⟩

end Sys2Proof.Machine

/-! # Proofs: the reset event (70_reset_and_hazards) -/

namespace Sys2Proof.Machine

/-! ## What reset answers and leaves alone (R270, R272) -/

theorem runEvent_reset (s : State) : runEvent .reset s = .next (resetDevice s) := rfl

theorem resetDevice_surroundingsKept (s : State) : SurroundingsKept s (resetDevice s) where
  memory a := by rw [resetDevice_mem]
  hostStores := resetDevice_hostStores s
  uncleaned := resetDevice_uncleaned s
  platform := resetDevice_platform s
  readData := resetDevice_readData s
  inputs := resetDevice_inputs s
  draws := resetDevice_draws s

/-! ## The registers that hold constants (R34, R35) -/

theorem readReg_id (s : State) : readReg 0x00 s = 0x51445041 := rfl

theorem readReg_version (s : State) : readReg 0x04 s = 0x00010000 := rfl

/-- Settles O45: reset is one `resetDevice`, in a state with a command in progress as in an idle one; IRQ is 0 because IE
is, and ID and VERSION read the same in every state. -/
theorem resetEvent : Obligations.ResetEvent := by
  intro s
  have hirq : irq (resetDevice s) = false := irq_of_masked (resetDevice_ie s)
  have hengine : EngineAtRest (resetDevice s).eng := resetDevice_eng s ▸ engineReset_atRest
  exact ⟨resetDevice s, runEvent_reset s, resetDevice_ie s, resetDevice_busy s, resetDevice_done s, resetDevice_err s,
    resetDevice_ign s, resetDevice_errcode s, resetDevice_n s, resetDevice_waddr s, resetDevice_aaddr s,
    resetDevice_result s, hengine, hirq, readReg_id _, readReg_version _, resetDevice_surroundingsKept s⟩

end Sys2Proof.Machine
